-- ==== Sys2Proof/Word.lean ====
section
/-! DEFINITION. The words of the block: the widths of 00_scope.md R7, R8 and R10, and the two shapes its
register files have (16 entries indexed by a symbol, and 16 × 16 entries indexed by a pair of symbols). -/

namespace Sys2Proof

/-- The port's data word and the source's `u64` (R7, R8, R10). -/
abbrev U64 := BitVec 64

/-- A byte operand (R67, format FB) and the unit of the archive (R62). -/
abbrev Byte := BitVec 8

/-- A nibble, one of the 16 symbols (R7, R14). -/
abbrev Nibble := BitVec 4

/-- The 13-bit byte offset of a bus access (R47). -/
abbrev Offset := BitVec 13

/-- An IEEE 754 binary64 bit pattern, bit 63 the sign (R12, R52). -/
abbrev Binary64 := BitVec 64

/-- A register file with one entry per symbol: CNT (R27), or one row of N (R30). -/
abbrev Bank (α : Type) := Vector α 16

/-- The counter state: CNT[0..15], 16 × u64 (R15, R27). -/
abbrev Counters := Bank U64

/-- The count matrix: N[0..15][0..15], 256 × u64 (R15, R30). -/
abbrev CountMatrix := Bank (Bank U64)

/-- The 16 symbols in ascending order (R7). -/
def allSymbols : List Nibble := [0, 1, 2, 3, 4, 5, 6, 7, 8, 9, 10, 11, 12, 13, 14, 15]

/-- The bank whose entry for the symbol `t` is `f t`. -/
def bankOf {α : Type} (f : Nibble → α) : Bank α := ⟨⟨allSymbols.map f⟩, rfl⟩

/-- `REG[s]`: the entry of a bank at a symbol (R11). -/
def bankGet {α : Type} (v : Bank α) (s : Nibble) : α := v.get s.toFin

/-- `REG[s] <- x`: the bank with one entry replaced (R11). -/
def bankSet {α : Type} (v : Bank α) (s : Nibble) (x : α) : Bank α := v.set s.toNat x s.isLt

/-- `N[a][b]` (R11, R30). -/
def countAt (n : CountMatrix) (a b : Nibble) : U64 := bankGet (bankGet n a) b

end Sys2Proof
end

