-- ==== Sys2Proof/Syntax.lean ====
section
/-! DEFINITION. The syntax: the 16 commands of 30_encoding.md R72, the registers of the window of 10_state.md R18,
the host's bus accesses of 20_memory.md R46 to R48 with their responses, and the pseudo-instructions of R79. -/

namespace Sys2Proof

/-- The commands, one constructor per row of the opcode map (R72). An operand has the width of its field (R71), so
every term is a legal command. -/
inductive Instr where
  /-- NOP (R85). -/
  | nop
  /-- SOFT_RESET (R86). -/
  | softReset
  /-- ERR_CLEAR (R87). -/
  | errClear
  /-- ENC_START (R103). -/
  | encStart
  /-- ENC_SYM s (R104). -/
  | encSym (s : Nibble)
  /-- ENC_BYTE b (R105). -/
  | encByte (b : Byte)
  /-- DEC_START (R106). -/
  | decStart
  /-- DEC_VAL (R108). -/
  | decVal
  /-- STAT_START (R118). -/
  | statStart
  /-- STAT_SYM s (R120). -/
  | statSym (s : Nibble)
  /-- STAT_BYTE b (R121). -/
  | statByte (b : Byte)
  /-- STAT_FINISH (R122). -/
  | statFinish
  /-- SPLIT b (R92). -/
  | split (b : Byte)
  /-- JOIN_START (R93). -/
  | joinStart
  /-- JOIN_SYM s (R94). -/
  | joinSym (s : Nibble)
  /-- JOIN_END (R95). -/
  | joinEnd
  deriving DecidableEq, Repr

/-- The registers of the window, by the names of R18. -/
inductive Reg where
  | id | status | cmd | dataIn | dataOut0 | dataOut1 | errValue | errPos | codecPos | statM | statT | joinCnt
  | hJoint | hPrev | hCond | hPerBit | hRel | hMax
  | cnt (s : Nibble)
  | rowSum (a : Nibble)
  | n (a b : Nibble)
  | pj (a b : Nibble)
  | pc (a b : Nibble)
  deriving DecidableEq, Repr

/-- A bus access of the host: its byte offset, its size in bytes and, for a write, its value (R11, R46, R47). -/
inductive BusAccess where
  /-- `BusRead(off)` of `size` bytes. -/
  | read (off : Offset) (size : Nat)
  /-- `BusWrite(off, v)` of `size` bytes. -/
  | write (off : Offset) (size : Nat) (v : U64)
  deriving DecidableEq, Repr

/-- What the outside world can do to the block: a bus access (R46) or the hardware reset (R150). -/
inductive HostInput where
  | access (a : BusAccess)
  | hardwareReset
  deriving DecidableEq, Repr

/-- What the block answers to a bus access (R46, R49). -/
inductive BusResponse where
  /-- The value of a read. -/
  | data (v : U64)
  /-- The acknowledgement of a write. -/
  | ok
  /-- BUS_ERROR. -/
  | busError
  deriving DecidableEq, Repr

/-- The pseudo-instructions of R79 (the names that `->` binds are the host's own; the values are those of the
responses, in order). -/
inductive Pseudo where
  /-- `CMD <command>` -/
  | cmd (i : Instr)
  /-- `DEC <v>` -/
  | dec (v : U64)
  /-- `ENC <s> -> d` -/
  | enc (s : Nibble)
  /-- `ENCB <b> -> d0, d1` -/
  | encb (b : Byte)
  /-- `DECS <v> -> s` -/
  | decs (v : U64)
  /-- `CHECK -> st` -/
  | check
  deriving DecidableEq, Repr

/-- A command as the assembler reads it: a mnemonic and the value of its operand, if it has one (R77). -/
structure SourceCommand where
  mnemonic : String
  operand : Option Nat
  deriving DecidableEq, Repr

end Sys2Proof
end

