-- ==== Sys2Proof/WellFormed.lean ====
section
/-! DEFINITION. The checks on syntax: which bus accesses are well-formed (20_memory.md R48) and which operands the
assembler takes (30_encoding.md R77). A term of Instr needs no check: its operand types have exactly the widths of
the fields SYM and BYTE (R67, R71). -/

namespace Sys2Proof

/-- The formats of a command word (R67). -/
inductive Format where
  /-- No operand (R68). -/
  | f0
  /-- A symbol operand in `w[11:8]` (R69). -/
  | fs
  /-- A byte operand in `w[15:8]` (R70). -/
  | fb
  deriving DecidableEq, Repr

/-- A well-formed offset: `off[2:0] = 0` (R48). -/
def aligned (off : Offset) : Bool := off.extractLsb' 0 3 == 0#3

/-- A well-formed access has size 8 and an aligned offset (R48). -/
def BusAccess.wellFormed : BusAccess → Bool
  | .read off size => size == 8 && aligned off
  | .write off size _ => size == 8 && aligned off

/-- The operand a format takes: none, 0..15, or 0..255 (R77). -/
def operandFits : Format → Option Nat → Bool
  | .f0, none => true
  | .f0, some _ => false
  | .fs, some v => decide (v < 16)
  | .fs, none => false
  | .fb, some v => decide (v < 256)
  | .fb, none => false

end Sys2Proof
end

