-- ==== Sys2Proof/Decode.lean ====
section
/-! DEFINITION. The command encoding of 30_encoding.md: the opcode map and its masks (R68 to R73), the decoder, total
on every 64-bit word and refusing by name (R73, R74), and after it the encoder (R72, R77). -/

namespace Sys2Proof

/-- The field OPC, `w[7:0]` (R67). -/
def opcField (w : U64) : Byte := w.extractLsb' 0 8

/-- The field SYM, `w[11:8]` (R67, R71). -/
def symField (w : U64) : Nibble := w.extractLsb' 8 4

/-- The field BYTE, `w[15:8]` (R67, R71). -/
def byteField (w : U64) : Byte := w.extractLsb' 8 8

/-- The mask of a format: the bits that its rows fix (R68, R69, R70). -/
def formatMask : Format → U64
  | .f0 => 0xFFFFFFFFFFFFFFFF#64
  | .fs => 0xFFFFFFFFFFFFF0FF#64
  | .fb => 0xFFFFFFFFFFFF00FF#64

/-- The opcode map's column "format" (R72); none for a reserved opcode (R74). -/
def formatOf : Byte → Option Format
  | 0x00#8 => some .f0
  | 0x01#8 => some .f0
  | 0x02#8 => some .f0
  | 0x10#8 => some .f0
  | 0x11#8 => some .fs
  | 0x12#8 => some .fb
  | 0x18#8 => some .f0
  | 0x19#8 => some .f0
  | 0x20#8 => some .f0
  | 0x21#8 => some .fs
  | 0x22#8 => some .fb
  | 0x23#8 => some .f0
  | 0x30#8 => some .fb
  | 0x31#8 => some .f0
  | 0x32#8 => some .fs
  | 0x33#8 => some .f0
  | _ => none

/-- `legal(w)`: `(w AND mask) = match` for the row whose OPC equals `w[7:0]` (R73; the match of a row is its OPC,
R68 to R70). -/
def legal (w : U64) : Bool :=
  match formatOf (opcField w) with
  | some f => w &&& formatMask f == (opcField w).setWidth 64
  | none => false

/-- Why a word is illegal (R74). -/
inductive DecodeError where
  /-- One of the 240 reserved opcode values, R74 (a). -/
  | reservedOpcode (opc : Byte)
  /-- A legal OPC with a nonzero bit where its format requires 0, R74 (b). -/
  | nonzeroReservedBits (w : U64)
  deriving DecidableEq, Repr

/-- A word of format F0: `w[63:8]` must be 0 (R68). -/
def decodeF0 (w : U64) (i : Instr) : Except DecodeError Instr :=
  if w.extractLsb' 8 56 = 0#56 then .ok i else .error (.nonzeroReservedBits w)

/-- A word of format FS: `w[63:12]` must be 0, the operand is SYM (R69). -/
def decodeFS (w : U64) (i : Nibble → Instr) : Except DecodeError Instr :=
  if w.extractLsb' 12 52 = 0#52 then .ok (i (symField w)) else .error (.nonzeroReservedBits w)

/-- A word of format FB: `w[63:16]` must be 0, the operand is BYTE (R70). -/
def decodeFB (w : U64) (i : Byte → Instr) : Except DecodeError Instr :=
  if w.extractLsb' 16 48 = 0#48 then .ok (i (byteField w)) else .error (.nonzeroReservedBits w)

/-- The decoder: the opcode map of R72 read row by row, total over all 2^64 words (R73, R76). -/
def decode (w : U64) : Except DecodeError Instr :=
  match opcField w with
  | 0x00#8 => decodeF0 w .nop
  | 0x01#8 => decodeF0 w .softReset
  | 0x02#8 => decodeF0 w .errClear
  | 0x10#8 => decodeF0 w .encStart
  | 0x11#8 => decodeFS w .encSym
  | 0x12#8 => decodeFB w .encByte
  | 0x18#8 => decodeF0 w .decStart
  | 0x19#8 => decodeF0 w .decVal
  | 0x20#8 => decodeF0 w .statStart
  | 0x21#8 => decodeFS w .statSym
  | 0x22#8 => decodeFB w .statByte
  | 0x23#8 => decodeF0 w .statFinish
  | 0x30#8 => decodeFB w .split
  | 0x31#8 => decodeF0 w .joinStart
  | 0x32#8 => decodeFS w .joinSym
  | 0x33#8 => decodeF0 w .joinEnd
  | opc => .error (.reservedOpcode opc)

/-- The OPC of a command (R72). -/
def opcode : Instr → Byte
  | .nop => 0x00#8
  | .softReset => 0x01#8
  | .errClear => 0x02#8
  | .encStart => 0x10#8
  | .encSym _ => 0x11#8
  | .encByte _ => 0x12#8
  | .decStart => 0x18#8
  | .decVal => 0x19#8
  | .statStart => 0x20#8
  | .statSym _ => 0x21#8
  | .statByte _ => 0x22#8
  | .statFinish => 0x23#8
  | .split _ => 0x30#8
  | .joinStart => 0x31#8
  | .joinSym _ => 0x32#8
  | .joinEnd => 0x33#8

/-- The operand of a command as a number, 0 for a command of format F0 (R72). -/
def operandValue : Instr → Nat
  | .encSym s => s.toNat
  | .statSym s => s.toNat
  | .joinSym s => s.toNat
  | .encByte b => b.toNat
  | .statByte b => b.toNat
  | .split b => b.toNat
  | .nop => 0
  | .softReset => 0
  | .errClear => 0
  | .encStart => 0
  | .decStart => 0
  | .decVal => 0
  | .statStart => 0
  | .statFinish => 0
  | .joinStart => 0
  | .joinEnd => 0

/-- The encoder: `word = OPC + operand·0x100` (R72, R77). -/
def encode (i : Instr) : U64 := BitVec.ofNat 64 ((opcode i).toNat + operandValue i * 0x100)

/-- The table's word read by the decoder. A command is one 64-bit word (R67), moved over the port whole (R52), so bit k
of `w` is bit k of the word and every bit from `nbits` on is 0. -/
def decodeTableWord (nbits w : Nat) : Option Instr :=
  match decode (BitVec.ofNat 64 (w % 2 ^ nbits)) with
  | .ok i => some i
  | .error _ => none

end Sys2Proof
end

