-- ==== Sys2Proof/Config.lean ====
section
/-! DEFINITION. What an implementation fixes: the limits of 00_scope.md R8 and its open parameters, R9. An open
parameter is an opaque constant (nothing in Lean can evaluate it) or an argument of the functions that use it. -/

namespace Sys2Proof

/-- The parameter ARCHIVE_BYTE_ORDER of R9 and R63. The archive functions take it as an argument. -/
inductive ByteOrder where
  | le
  | be
  deriving DecidableEq, Repr

namespace Config

/-- `LEN_LIMIT = 2^64 - 16` symbols per operation (R8, R101). -/
def lenLimit : U64 := 0xFFFFFFFFFFFFFFF0#64

/-- The default of ARCHIVE_BYTE_ORDER (R9, R63). -/
def defaultByteOrder : ByteOrder := .le

/-- What stands behind the parameter ENTROPY_FN of R9 and R123: a pair of bit patterns for each count matrix, about
which nothing is known. Machine/Entropy.lean takes from it every value that the law of R123 allows
(assumption log entry 1). -/
opaque entropyRaw : CountMatrix → Binary64 × Binary64

/-- What stands behind the parameter EPS_H of R9 and R123: a bit pattern about which nothing is known.
Machine/Entropy.lean reads EPS_H from it (assumption log entry 2). -/
opaque epsHParam : Binary64

end Config

end Sys2Proof
end

