-- ==== Sys2Proof/Machine/Float.lean ====
section
/-! DEFINITION. The binary64 primitives of 00_scope.md R12, in exact integer arithmetic. Every finite binary64 value is
a whole number of units of 2^-1074, so a finite bit pattern is read as that number and a result is rounded once, from the
exact quotient. -/

namespace Sys2Proof.Machine

/-- +0.0 (R12). -/
def posZero : Binary64 := 0x0000000000000000#64

/-- -0.0, which no register ever holds (R132). -/
def negZero : Binary64 := 0x8000000000000000#64

/-- 0.25 (R125). -/
def quarter : Binary64 := 0x3FD0000000000000#64

/-- 4.0 (R12, R37). -/
def four : Binary64 := 0x4010000000000000#64

/-- The pattern of +infinity: the finite patterns without a sign are those below it. -/
def infPattern : Nat := 0x7FF0000000000000

/-- `num / den` rounded to the nearest integer, ties to even. -/
def roundHalfEven (num den : Nat) : Nat :=
  let q := num / den
  let r := num % den
  if 2 * r < den then q
  else if den < 2 * r then q + 1
  else if q % 2 = 0 then q
  else q + 1

/-- How many low bits of a magnitude of `u` whole units binary64 drops: all but 53 significant bits. -/
def droppedBits (u : Nat) : Nat := Nat.log2 u + 1 - 53

/-- The pattern of the rational `num / den ≥ 0` rounded to nearest even: the rounded significand counts on into the
exponent field, and what is too large is +infinity (R12). -/
def magnitudePattern (num den : Nat) : Nat :=
  let shift := droppedBits (num * 2 ^ 1074 / den)
  min (shift * 2 ^ 52 + roundHalfEven (num * 2 ^ 1074) (den * 2 ^ shift)) infPattern

/-- `rne64(num / den)` (R12). -/
def rne64 (num : Int) (den : Nat) : Binary64 :=
  if num < 0 then BitVec.ofNat 64 (2 ^ 63 + magnitudePattern num.natAbs den)
  else BitVec.ofNat 64 (magnitudePattern num.natAbs den)

/-- The magnitude of a finite pattern in units of 2^-1074. -/
def f64Magnitude (x : Binary64) : Nat :=
  let exponent := (x.extractLsb' 52 11).toNat
  let fraction := (x.extractLsb' 0 52).toNat
  if exponent = 0 then fraction else (2 ^ 52 + fraction) * 2 ^ (exponent - 1)

/-- The value of a finite pattern in units of 2^-1074. -/
def f64Value (x : Binary64) : Int := if x.msb then -(f64Magnitude x : Int) else f64Magnitude x

/-- Finite, not negative and not -0.0: what R123 (b) asks of an entropy and R132 of every register. -/
def nonnegFinite (x : Binary64) : Bool := decide (x.toNat < infPattern)

/-- `a ⊖ b` on finite values: rne64 of the exact difference, with the sign IEEE 754 gives a zero (R12). -/
def f64Sub (a b : Binary64) : Binary64 :=
  if f64Value a = f64Value b then (if a.msb && !b.msb then negZero else posZero)
  else rne64 (f64Value a - f64Value b) (2 ^ 1074)

/-- `a ⊗ b` on finite values: rne64 of the exact product, negative when the signs differ (R12). -/
def f64Mul (a b : Binary64) : Binary64 :=
  let pattern := magnitudePattern (f64Magnitude a * f64Magnitude b) (2 ^ 2148)
  if a.msb == b.msb then BitVec.ofNat 64 pattern else BitVec.ofNat 64 (2 ^ 63 + pattern)

/-- `nn(x)`: +0.0 when x is negative or -0.0, and x otherwise (R124). -/
def nn (x : Binary64) : Binary64 := if x.msb then posZero else x

/-- The binary64 rendering of a quotient of two counts: `rne64(n / d)`, and +0.0 when d = 0 (R128, R129). -/
def countQuotient (n d : Nat) : Binary64 := if d = 0 then posZero else rne64 (n : Int) d

end Sys2Proof.Machine
end

