-- ==== Sys2Proof/Machine/State.lean ====
section
/-! DEFINITION. The state of 10_state.md R15, unit by unit and nothing besides it but the host's side of the port, its
reset value (R45, R150), and the reasons a step can stop. -/

namespace Sys2Proof.Machine

/-- CODEC_MODE (R15, R22; the value 3 does not exist, R20). -/
inductive CodecMode where
  | idle
  | enc
  | dec
  deriving DecidableEq, Repr

/-- STAT_MODE (R15, R23; the value 3 does not exist, R20). -/
inductive StatMode where
  | idle
  | accum
  | done
  deriving DecidableEq, Repr

/-- ERR_CODE (R15, R21, R134; the codes 6 to 15 do not exist, R21). -/
inductive ErrCode where
  | none
  | corruptStream
  | invalidLength
  | illegalCommand
  | sequence
  | lengthOverflow
  deriving DecidableEq, Repr

/-- The codec unit (R15): CNT (R27), CODEC_MODE (R22) and CODEC_POS (R28). -/
structure CodecUnit where
  cnt : Counters
  mode : CodecMode
  pos : U64
  deriving DecidableEq, Repr

/-- The five entropy registers H_JOINT, H_PREV, H_COND, H_PERBIT and H_REL (R15, R36). -/
structure EntropyRegs where
  joint : Binary64
  prev : Binary64
  cond : Binary64
  perBit : Binary64
  rel : Binary64
  deriving DecidableEq, Repr

/-- The statistics unit (R15): N (R30), STAT_M (R31), STAT_MODE (R23), STAT_HAVE_PREV and STAT_PREV (R24), and the
entropy registers (R36). -/
structure StatUnit where
  n : CountMatrix
  m : U64
  mode : StatMode
  havePrev : Bool
  prev : Nibble
  h : EntropyRegs
  deriving DecidableEq, Repr

/-- The conversion unit (R15): JOIN_ACTIVE, JOIN_HALF_VALID and JOIN_HALF (R25), and JOIN_CNT (R38). -/
structure JoinUnit where
  active : Bool
  halfValid : Bool
  half : Nibble
  cnt : U64
  deriving DecidableEq, Repr

/-- The shared port's data registers (R15): DATA_IN (R39), DATA_OUT0 and DATA_OUT1 (R40). -/
structure PortRegs where
  dataIn : U64
  dataOut0 : U64
  dataOut1 : U64
  deriving DecidableEq, Repr

/-- The shared error latch (R15): ERR and ERR_CODE (R21), ERR_OPC, ERR_VALUE and ERR_POS (R26). -/
structure ErrLatch where
  err : Bool
  code : ErrCode
  opc : Byte
  value : U64
  pos : U64
  deriving DecidableEq, Repr

/-- The host's side of the port, the MODEL's own two fields and no state of the block (assumption log entry 3): the
inputs the host has still to give, in its program order (R46, R57), and the responses it has had, oldest first (R161). -/
structure HostSide where
  pending : List HostInput
  responses : List BusResponse
  deriving DecidableEq, Repr

/-- The state of the machine: every element of R15, grouped by the column "unit", and the host's side. -/
structure State where
  codec : CodecUnit
  stat : StatUnit
  join : JoinUnit
  port : PortRegs
  err : ErrLatch
  host : HostSide
  deriving DecidableEq, Repr

/-- Why a step stops with a fault. Each is a BUS_ERROR of R49, "a fault of the host's access": the block's state is what
it was and the error latch is not set (R141). Safe: the block would go on with the host's next access (log entry 4). -/
inductive Fault where
  /-- Raised by a bus access that is not well-formed: its size is not 8 or its offset is not aligned (R48). Safe. -/
  | malformedAccess (a : BusAccess)
  /-- Raised by a well-formed access at an offset that holds no register (R42, R51). Safe. -/
  | reservedOffset (a : BusAccess)
  /-- Raised by a well-formed write to a register that is neither CMD nor DATA_IN (R43, R51). Safe. -/
  | readOnlyRegister (a : BusAccess)
  deriving DecidableEq, Repr

/-- Why a step refuses. No arm of exec answers it: every command has its meaning. -/
inductive Refusal where
  /-- Raised by exec for a command that has no meaning yet. Safe: the machine stops. -/
  | notModelled (mnemonic : String)
  deriving DecidableEq, Repr

/-- `CNT[s] = s` for every s (R27, R45). -/
def initialCounters : Counters := bankOf fun s => s.setWidth 64

/-- `N[a][b] = 0` for every a and b (R45). -/
def zeroCounts : CountMatrix := bankOf fun _ => bankOf fun _ => 0#64

/-- The five entropy registers at +0.0 (R36, R45). -/
def zeroEntropies : EntropyRegs := { joint := 0#64, prev := 0#64, cond := 0#64, perBit := 0#64, rel := 0#64 }

/-- The cleared error latch (R45, R87). -/
def clearLatch : ErrLatch := { err := false, code := .none, opc := 0#8, value := 0#64, pos := 0#64 }

/-- The state after hardware reset, every element at the value R45 gives. The host has given no input and had no
response yet (log entry 3). -/
def State.reset : State where
  codec := { cnt := initialCounters, mode := .idle, pos := 0#64 }
  stat := { n := zeroCounts, m := 0#64, mode := .idle, havePrev := false, prev := 0#4, h := zeroEntropies }
  join := { active := false, halfValid := false, half := 0#4, cnt := 0#64 }
  port := { dataIn := 0#64, dataOut0 := 0#64, dataOut1 := 0#64 }
  err := clearLatch
  host := { pending := [], responses := [] }

end Sys2Proof.Machine
end

