-- ==== Sys2Proof/Machine/Entropy.lean ====
section
/-! DEFINITION. The exact sums of the count matrix (43_statistics.md R114, R115), the parameters ENTROPY_FN and EPS_H with
the law EntropyAccurate(EPS_H) built into ENTROPY_FN (R123), and the five entropies of STAT_FINISH (R122, R124, R125).

The law compares a binary64 value with `H = log2 T - (1/T)·Σ n·log2 n` (R117), where the parts n are the 256 counts for
HJ* and the 16 row sums for HP*. It is decided without logarithms: `num/den ≤ H` says
`2^(T·num) · Π n^(n·den) ≤ T^(T·den)`. -/

namespace Sys2Proof.Machine

/-- `rowSum[a] = Σ_b N[a][b]`, exact (R33, R115). -/
def rowTotal (n : CountMatrix) (a : Nibble) : Nat := (allSymbols.map fun b => (countAt n a b).toNat).sum

/-- `T = Σ_{a,b} N[a][b]`, exact (R32, R114). -/
def total (n : CountMatrix) : Nat := (allSymbols.map fun a => rowTotal n a).sum

/-- The 256 counts, the parts of HJ* (R117). -/
def cellParts (n : CountMatrix) : List Nat :=
  allSymbols.flatMap fun a => allSymbols.map fun b => (countAt n a b).toNat

/-- The 16 row sums, the parts of HP* (R117). -/
def rowParts (n : CountMatrix) : List Nat := allSymbols.map fun a => rowTotal n a

/-- `num / den ≤ H` for the entropy H of the parts (R117). -/
def entropyAtLeast (parts : List Nat) (num den : Nat) : Bool :=
  decide (2 ^ (parts.sum * num) * (parts.map fun n => n ^ (n * den)).prod ≤ parts.sum ^ (parts.sum * den))

/-- `H ≤ num / den` for the entropy H of the parts (R117). -/
def entropyAtMost (parts : List Nat) (num den : Nat) : Bool :=
  decide (parts.sum ^ (parts.sum * den) ≤ 2 ^ (parts.sum * num) * (parts.map fun n => n ^ (n * den)).prod)

/-- 2^-22, the default of EPS_H (R9, R123). -/
def defaultEpsH : Binary64 := 0x3E90000000000000#64

/-- `|x - H| ≤ eps` for the entropy H of the parts, R123 (c), with both values in units of 2^-1074. -/
def entropyNear (eps : Binary64) (parts : List Nat) (x : Binary64) : Bool :=
  entropyAtLeast parts (f64Magnitude x - f64Magnitude eps) (2 ^ 1074) &&
    entropyAtMost parts (f64Magnitude x + f64Magnitude eps) (2 ^ 1074)

/-- The pattern of 128.0: a sum of 256 counts is below 2^72, so every entropy is below it. -/
def entropyCeiling : Nat := 0x4060000000000000

/-- The largest pattern whose value is not above the entropy of the parts. -/
def floorPattern (parts : List Nat) : Nat :=
  Nat.findGreatest (fun p => entropyAtLeast parts (f64Magnitude (BitVec.ofNat 64 p)) (2 ^ 1074) = true) entropyCeiling

/-- A finite value without a sign that none is nearer to the entropy of the parts: where any function obeys the law of
R123, this value does. -/
def nearestEntropy (parts : List Nat) : Binary64 :=
  let below := BitVec.ofNat 64 (floorPattern parts)
  let above := BitVec.ofNat 64 (floorPattern parts + 1)
  if entropyAtMost parts (f64Magnitude below + f64Magnitude above) (2 ^ 1075) then below else above

/-- The law applied to one component: +0.0 when T = 0 (R123 (a)), the free value where it satisfies R123 (b) and (c), and
the nearest value where it breaks them. -/
def lawfulEntropy (eps : Binary64) (parts : List Nat) (raw : Binary64) : Binary64 :=
  if parts.sum = 0 then posZero
  else if nonnegFinite raw && entropyNear eps parts raw then raw
  else nearestEntropy parts

/-- Some value obeys the law of R123 with the bound eps for these parts. -/
def lawCanHold (eps : Binary64) (parts : List Nat) : Bool :=
  parts.sum == 0 || entropyNear eps parts (nearestEntropy parts)

/-- The count matrix whose 256 counts stand in a row of bits: every matrix is one of these. -/
def matrixOfBits (w : BitVec 16384) : CountMatrix :=
  bankOf fun a => bankOf fun b => w.extractLsb' (64 * (16 * a.toNat + b.toNat)) 64

/-- A bound that R123 lets an implementation have: not negative, and some function of the count matrix obeys the law
EntropyAccurate(eps). (The quantifier over all matrices is a condition, decidable as it is; nothing evaluates it.) -/
def admissibleEps (eps : Binary64) : Bool :=
  nonnegFinite eps &&
    decide (∀ w : BitVec 16384,
      (lawCanHold eps (cellParts (matrixOfBits w)) && lawCanHold eps (rowParts (matrixOfBits w))) = true)

/-- The EPS_H that a parameter value stands for: itself where the law can hold with it, the default elsewhere (R9, log
entry 2). -/
def epsHOf (param : Binary64) : Binary64 := if admissibleEps param then param else defaultEpsH

/-- EPS_H (R9, R123). -/
def epsH : Binary64 := epsHOf Config.epsHParam

/-- The function that a free function stands for under the law with the bound eps (R123, log entry 1). -/
def entropyFnOf (eps : Binary64) (raw : CountMatrix → Binary64 × Binary64) (n : CountMatrix) : Binary64 × Binary64 :=
  (lawfulEntropy eps (cellParts n) (raw n).1, lawfulEntropy eps (rowParts n) (raw n).2)

/-- ENTROPY_FN: a function of N alone about which nothing is known but the law (R123, log entry 1). -/
def entropyFn (n : CountMatrix) : Binary64 × Binary64 := entropyFnOf epsH Config.entropyRaw n

/-- `hc = nn(hj ⊖ hp)` (R124). -/
def condEntropy (hj hp : Binary64) : Binary64 := nn (f64Sub hj hp)

/-- The five entropy registers that STAT_FINISH writes (R122, R124, R125). -/
def finishEntropies (n : CountMatrix) : EntropyRegs :=
  let hj := (entropyFn n).1
  let hp := (entropyFn n).2
  let hc := condEntropy hj hp
  { joint := hj, prev := hp, cond := hc, perBit := f64Mul hc quarter, rel := f64Mul hc quarter }

end Sys2Proof.Machine
end

