-- ==== Sys2Proof/Machine/Operands.lean ====
section
/-! DEFINITION. The operand forms of 30_encoding.md R71: the symbols of a byte operand, a symbol as a 64-bit value, the
byte of two symbols, and the operand a command takes from DATA_IN. -/

namespace Sys2Proof.Machine

/-- `hi = b[7:4]`, the first symbol of a byte (R71, R90). -/
def hiSymbol (b : Byte) : Nibble := b.extractLsb' 4 4

/-- `lo = b[3:0]`, the second symbol of a byte (R71, R90). -/
def loSymbol (b : Byte) : Nibble := b.extractLsb' 0 4

/-- `zext_64(s)` (R10, R71). -/
def symbolWord (s : Nibble) : U64 := s.setWidth 64

/-- The byte `{hi, lo} = hi·16 + lo` (R10, R91). -/
def joinSymbols (hi lo : Nibble) : Byte := BitVec.ofNat 8 (hi.toNat * 16 + lo.toNat)

/-- `zext_64` of a byte (R10, R94). -/
def byteWord (b : Byte) : U64 := b.setWidth 64

/-- The operand `v` of DEC_VAL: the value of DATA_IN when the command executes (R39, R71, R108). -/
def dataInOperand (s : State) : U64 := s.port.dataIn

end Sys2Proof.Machine
end

