-- ==== Sys2Proof/Machine/Ops.lean ====
section
/-! DEFINITION. The operations the commands share: the dispatch of 40_control.md R81, `raise` (60_exceptions.md R135) and
the return from an error beside it (R87), the reset (R45, R150), the steps of the codec (42_codec.md R100, R107), the
accumulation step (43_statistics.md R119) and the host's side of the port. -/

namespace Sys2Proof.Machine

/-! ### The error latch -/

/-- `raise E(value, pos)` for the command word w: only the error latch is written (R135). -/
def raise (code : ErrCode) (w value pos : U64) (s : State) : State :=
  { s with err := { err := true, code := code, opc := opcField w, value := value, pos := pos } }

/-- The return from an error: the five latch fields are cleared and nothing else changes (R87, R139). -/
def clearError (s : State) : State := { s with err := clearLatch }

/-! ### The dispatch -/

/-- The checks of one command (R81): its mode, its length with the unit's count, and the data error it would raise
(the code, ERR_VALUE and ERR_POS), if any. -/
structure Checks where
  modeOk : Bool := true
  lengthOk : Bool := true
  unitCount : U64 := 0#64
  dataError : Option (ErrCode × U64 × U64) := none

/-- Steps 2 to 6 of R81 for the legal command word w of a command other than NOP, SOFT_RESET and ERR_CLEAR: ignored while
an error is latched (R82), otherwise the first check that fails raises its error (R136), otherwise the command is
performed. -/
def dispatch (w : U64) (c : Checks) (perform : State → State) (s : State) : Host.Outcome State Fault Refusal :=
  if s.err.err then .next s
  else if !c.modeOk then .next (raise .sequence w w 0#64 s)
  else if !c.lengthOk then .next (raise .lengthOverflow w w c.unitCount s)
  else
    match c.dataError with
    | some (code, value, pos) => .next (raise code w value pos s)
    | none => .next (perform s)

/-- `length_ok` for a command of one step: the unit's count is below LEN_LIMIT (R94, R101, R120). -/
def roomForOne (count : U64) : Bool := decide (count < Config.lenLimit)

/-- `length_ok` for a command of two steps: the unit's count is at most LEN_LIMIT - 2 (R101, R105, R121). -/
def roomForTwo (count : U64) : Bool := decide (count ≤ Config.lenLimit - 2#64)

/-! ### Reset -/

/-- The reset: every element of R15 takes its value of R45 (R86, R150). The host's side is not the block's. -/
def resetBlock (s : State) : State := { State.reset with host := s.host }

/-! ### The data registers -/

/-- `DATA_OUT0 <- v` (R40). -/
def setOut0 (v : U64) (s : State) : State := { s with port := { s.port with dataOut0 := v } }

/-- `DATA_OUT1 <- v` (R40). -/
def setOut1 (v : U64) (s : State) : State := { s with port := { s.port with dataOut1 := v } }

/-- `DATA_IN <- v` (R39, R51). -/
def setDataIn (v : U64) (s : State) : State := { s with port := { s.port with dataIn := v } }

/-! ### The codec unit -/

/-- `update(c, s)`: every counter is incremented and the counter of s is set to 0 (R100). -/
def updateCounters (c : Counters) (s : Nibble) : Counters := bankSet (bankOf fun t => bankGet c t + 1#64) s 0#64

/-- `match(v)`: the symbols whose counter holds v, in ascending order (R107). -/
def matchSet (c : Counters) (v : U64) : List Nibble := allSymbols.filter fun t => bankGet c t == v

/-- The smallest symbol of `match(v)`, if there is one (R107). -/
def lookup (c : Counters) (v : U64) : Option Nibble := (matchSet c v).head?

/-- The codec unit after a START command (R103, R106). -/
def startCodec (mode : CodecMode) : CodecUnit := { cnt := initialCounters, mode := mode, pos := 0#64 }

/-- The codec unit after one step for the symbol s: the counter update and the position (R100, R104, R108). -/
def codecStep (u : CodecUnit) (s : Nibble) : CodecUnit :=
  { u with cnt := updateCounters u.cnt s, pos := u.pos + 1#64 }

/-! ### The statistics unit -/

/-- `N[a][b] <- N[a][b] + 1` (R119). -/
def bumpCount (n : CountMatrix) (a b : Nibble) : CountMatrix :=
  bankSet n a (bankSet (bankGet n a) b (countAt n a b + 1#64))

/-- `accum(s)` (R119). -/
def accumulate (u : StatUnit) (s : Nibble) : StatUnit :=
  { u with
    n := if u.havePrev then bumpCount u.n u.prev s else u.n
    prev := s
    havePrev := true
    m := u.m + 1#64 }

/-- The statistics unit after STAT_START (R118). -/
def startStat : StatUnit :=
  { n := zeroCounts, m := 0#64, mode := .accum, havePrev := false, prev := 0#4, h := zeroEntropies }

/-! ### The host's side -/

/-- What the host has still to give (R57, R161). -/
def setPending (p : List HostInput) (s : State) : State := { s with host := { s.host with pending := p } }

/-- The host has had the response r (R46, R161). -/
def logResponse (r : BusResponse) (s : State) : State :=
  { s with host := { s.host with responses := s.host.responses ++ [r] } }

end Sys2Proof.Machine
end

