-- ==== Sys2Proof/Machine/Codec.lean ====
section
/-! DEFINITION. The commands of the codec unit (42_codec.md): ENC_START, ENC_SYM, ENC_BYTE, DEC_START and DEC_VAL. -/

namespace Sys2Proof.Machine

/-- ENC_START: accepted in every mode (R103). -/
def execEncStart (s : State) : Host.Outcome State Fault Refusal :=
  dispatch (encode .encStart) {} (fun s => { s with codec := startCodec .enc }) s

/-- What ENC_SYM performs: the counter of the symbol is emitted, then the counters are updated (R104). -/
def encodeSymbol (x : Nibble) (s : State) : State :=
  setOut0 (bankGet s.codec.cnt x) { s with codec := codecStep s.codec x }

/-- ENC_SYM s (R104). -/
def execEncSym (x : Nibble) (s : State) : Host.Outcome State Fault Refusal :=
  dispatch (encode (.encSym x))
    { modeOk := s.codec.mode == .enc, lengthOk := roomForOne s.codec.pos, unitCount := s.codec.pos }
    (encodeSymbol x) s

/-- What ENC_BYTE performs: the steps for hi and lo, the first code in DATA_OUT0 and the second in DATA_OUT1 (R105). -/
def encodeByte (b : Byte) (s : State) : State :=
  let mid := codecStep s.codec (hiSymbol b)
  setOut1 (bankGet mid.cnt (loSymbol b))
    (setOut0 (bankGet s.codec.cnt (hiSymbol b)) { s with codec := codecStep mid (loSymbol b) })

/-- ENC_BYTE b: both steps or neither (R105). -/
def execEncByte (b : Byte) (s : State) : Host.Outcome State Fault Refusal :=
  dispatch (encode (.encByte b))
    { modeOk := s.codec.mode == .enc, lengthOk := roomForTwo s.codec.pos, unitCount := s.codec.pos }
    (encodeByte b) s

/-- DEC_START: accepted in every mode (R106). -/
def execDecStart (s : State) : Host.Outcome State Fault Refusal :=
  dispatch (encode .decStart) {} (fun s => { s with codec := startCodec .dec }) s

/-- What DEC_VAL performs once the symbol is found: it is emitted and the counters are updated (R108). -/
def decodeSymbol (x : Nibble) (s : State) : State :=
  setOut0 (symbolWord x) { s with codec := codecStep s.codec x }

/-- DEC_VAL: the smallest symbol whose counter holds DATA_IN; CORRUPT_STREAM with the value and its position when there
is none (R107, R108). -/
def execDecVal (s : State) : Host.Outcome State Fault Refusal :=
  dispatch (encode .decVal)
    { modeOk := s.codec.mode == .dec
      lengthOk := roomForOne s.codec.pos
      unitCount := s.codec.pos
      dataError :=
        if (lookup s.codec.cnt (dataInOperand s)).isSome then none
        else some (.corruptStream, dataInOperand s, s.codec.pos) }
    (fun s =>
      match lookup s.codec.cnt (dataInOperand s) with
      | some x => decodeSymbol x s
      | none => s) s

end Sys2Proof.Machine
end

