-- ==== Sys2Proof/Machine/Control.lean ====
section
/-! DEFINITION. The control commands (40_control.md): NOP, SOFT_RESET and ERR_CLEAR, accepted while an error is
latched (R81 step 2, R82). -/

namespace Sys2Proof.Machine

/-- NOP: nothing (R85). -/
def execNop (s : State) : Host.Outcome State Fault Refusal := .next s

/-- SOFT_RESET: exactly as at hardware reset (R86, R151). -/
def execSoftReset (s : State) : Host.Outcome State Fault Refusal := .next (resetBlock s)

/-- ERR_CLEAR: the error latch is cleared, every unit keeps its mode and data (R87, R139). -/
def execErrClear (s : State) : Host.Outcome State Fault Refusal := .next (clearError s)

end Sys2Proof.Machine
end

