-- ==== Sys2Proof/Machine/Conversion.lean ====
section
/-! DEFINITION. The commands of the conversion unit (41_conversion.md): SPLIT, JOIN_START, JOIN_SYM and JOIN_END. -/

namespace Sys2Proof.Machine

/-- SPLIT b: the high symbol in DATA_OUT0, the low symbol in DATA_OUT1; stateless (R92). -/
def execSplit (b : Byte) (s : State) : Host.Outcome State Fault Refusal :=
  dispatch (encode (.split b)) {}
    (fun s => setOut1 (symbolWord (loSymbol b)) (setOut0 (symbolWord (hiSymbol b)) s)) s

/-- JOIN_START: accepted in any join state (R93). -/
def execJoinStart (s : State) : Host.Outcome State Fault Refusal :=
  dispatch (encode .joinStart) {}
    (fun s => { s with join := { active := true, halfValid := false, half := 0#4, cnt := 0#64 } }) s

/-- What JOIN_SYM performs: the first symbol of a pair is held, the second completes the byte (R94). -/
def joinSymbol (x : Nibble) (s : State) : State :=
  if s.join.halfValid then
    setOut0 (byteWord (joinSymbols s.join.half x))
      { s with join := { s.join with half := 0#4, halfValid := false, cnt := s.join.cnt + 1#64 } }
  else
    { s with join := { s.join with half := x, halfValid := true, cnt := s.join.cnt + 1#64 } }

/-- JOIN_SYM s (R94). -/
def execJoinSym (x : Nibble) (s : State) : Host.Outcome State Fault Refusal :=
  dispatch (encode (.joinSym x))
    { modeOk := s.join.active, lengthOk := roomForOne s.join.cnt, unitCount := s.join.cnt } (joinSymbol x) s

/-- JOIN_END: INVALID_LENGTH with the held symbol and the odd count when a half byte is held (R95). -/
def execJoinEnd (s : State) : Host.Outcome State Fault Refusal :=
  dispatch (encode .joinEnd)
    { modeOk := s.join.active
      dataError := if s.join.halfValid then some (.invalidLength, symbolWord s.join.half, s.join.cnt) else none }
    (fun s => { s with join := { s.join with active := false } }) s

end Sys2Proof.Machine
end

