-- ==== Sys2Proof/Machine/Statistics.lean ====
section
/-! DEFINITION. The commands of the statistics unit (43_statistics.md): STAT_START, STAT_SYM, STAT_BYTE and
STAT_FINISH. -/

namespace Sys2Proof.Machine

/-- STAT_START: accepted in every mode; the tables and the entropy registers are cleared (R118). -/
def execStatStart (s : State) : Host.Outcome State Fault Refusal :=
  dispatch (encode .statStart) {} (fun s => { s with stat := startStat }) s

/-- STAT_SYM s: one accumulation step (R120). -/
def execStatSym (x : Nibble) (s : State) : Host.Outcome State Fault Refusal :=
  dispatch (encode (.statSym x))
    { modeOk := s.stat.mode == .accum, lengthOk := roomForOne s.stat.m, unitCount := s.stat.m }
    (fun s => { s with stat := accumulate s.stat x }) s

/-- STAT_BYTE b: the accumulation steps of hi and lo as one command (R121). -/
def execStatByte (b : Byte) (s : State) : Host.Outcome State Fault Refusal :=
  dispatch (encode (.statByte b))
    { modeOk := s.stat.mode == .accum, lengthOk := roomForTwo s.stat.m, unitCount := s.stat.m }
    (fun s => { s with stat := accumulate (accumulate s.stat (hiSymbol b)) (loSymbol b) }) s

/-- STAT_FINISH: the entropy registers are computed and the tables become immutable (R122). -/
def execStatFinish (s : State) : Host.Outcome State Fault Refusal :=
  dispatch (encode .statFinish) { modeOk := s.stat.mode == .accum }
    (fun s => { s with stat := { s.stat with h := finishEntropies s.stat.n, mode := .done } }) s

end Sys2Proof.Machine
end

