-- ==== Sys2Proof/Machine/Dispatch.lean ====
section
/-! DEFINITION. What executing a legal command does (40_control.md R81, steps 2 to 6): one arm per command. -/

namespace Sys2Proof.Machine

-- R81: step 1, the illegal words, is executeWord in Machine/Bus.lean.
def exec (i : Instr) (s : State) : Host.Outcome State Fault Refusal :=
  match i with
  | .nop => Sys2Proof.Machine.execNop s
  | .softReset => Sys2Proof.Machine.execSoftReset s
  | .errClear => Sys2Proof.Machine.execErrClear s
  | .encStart => Sys2Proof.Machine.execEncStart s
  | .encSym x => Sys2Proof.Machine.execEncSym x s
  | .encByte b => Sys2Proof.Machine.execEncByte b s
  | .decStart => Sys2Proof.Machine.execDecStart s
  | .decVal => Sys2Proof.Machine.execDecVal s
  | .statStart => Sys2Proof.Machine.execStatStart s
  | .statSym x => Sys2Proof.Machine.execStatSym x s
  | .statByte b => Sys2Proof.Machine.execStatByte b s
  | .statFinish => Sys2Proof.Machine.execStatFinish s
  | .split b => Sys2Proof.Machine.execSplit b s
  | .joinStart => Sys2Proof.Machine.execJoinStart s
  | .joinSym x => Sys2Proof.Machine.execJoinSym x s
  | .joinEnd => Sys2Proof.Machine.execJoinEnd s

end Sys2Proof.Machine
end

