-- ==== Sys2Proof/Machine/Flags.lean ====
section
/-! DEFINITION. The codes of the modes and errors and the STATUS register, a view of the state (10_state.md R20). -/

namespace Sys2Proof.Machine

/-- STATUS[9:8] (R20, R22). -/
def codecModeCode : CodecMode → BitVec 2
  | .idle => 0#2
  | .enc => 1#2
  | .dec => 2#2

/-- STATUS[11:10] (R20, R23). -/
def statModeCode : StatMode → BitVec 2
  | .idle => 0#2
  | .accum => 1#2
  | .done => 2#2

/-- The error codes (R21, R134). -/
def errCodeValue : ErrCode → BitVec 4
  | .none => 0#4
  | .corruptStream => 1#4
  | .invalidLength => 2#4
  | .illegalCommand => 3#4
  | .sequence => 4#4
  | .lengthOverflow => 5#4

/-- STATUS, its fields from bit 63 down to bit 0; the reserved bits 63:32, 15 and 3:1 read 0 (R20). -/
def statusWord (s : State) : U64 :=
  0#32 ++ s.err.opc ++ s.stat.prev ++ s.join.half ++ 0#1 ++ BitVec.ofBool s.join.halfValid ++
    BitVec.ofBool s.join.active ++ BitVec.ofBool s.stat.havePrev ++ statModeCode s.stat.mode ++
    codecModeCode s.codec.mode ++ errCodeValue s.err.code ++ 0#3 ++ BitVec.ofBool s.err.err

end Sys2Proof.Machine
end

