-- ==== Sys2Proof/Machine/Registers.lean ====
section
/-! DEFINITION. The register map of 10_state.md R18: the offset of each register, the register at an offset, and the value
a register reads (R19 to R41). -/

namespace Sys2Proof.Machine

/-- The index `16·a + b` of a matrix register (R18). -/
def matrixIndex (a b : Nibble) : Nat := 16 * a.toNat + b.toNat

/-- The column "offset" of R18. -/
def regOffset : Reg → Offset
  | .id => 0x0000#13
  | .status => 0x0008#13
  | .cmd => 0x0010#13
  | .dataIn => 0x0018#13
  | .dataOut0 => 0x0020#13
  | .dataOut1 => 0x0028#13
  | .errValue => 0x0030#13
  | .errPos => 0x0038#13
  | .codecPos => 0x0040#13
  | .statM => 0x0048#13
  | .statT => 0x0050#13
  | .joinCnt => 0x0058#13
  | .hJoint => 0x0060#13
  | .hPrev => 0x0068#13
  | .hCond => 0x0070#13
  | .hPerBit => 0x0078#13
  | .hRel => 0x0080#13
  | .hMax => 0x0088#13
  | .cnt s => BitVec.ofNat 13 (0x0100 + 8 * s.toNat)
  | .rowSum a => BitVec.ofNat 13 (0x0180 + 8 * a.toNat)
  | .n a b => BitVec.ofNat 13 (0x0800 + 8 * matrixIndex a b)
  | .pj a b => BitVec.ofNat 13 (0x1000 + 8 * matrixIndex a b)
  | .pc a b => BitVec.ofNat 13 (0x1800 + 8 * matrixIndex a b)

/-- The registers of the first rows of R18, at the offsets 0x0000, 0x0008, …, 0x0088. -/
def scalarRegs : List Reg :=
  [.id, .status, .cmd, .dataIn, .dataOut0, .dataOut1, .errValue, .errPos, .codecPos, .statM, .statT, .joinCnt,
   .hJoint, .hPrev, .hCond, .hPerBit, .hRel, .hMax]

/-- The register at an aligned offset; none at the reserved offsets 0x0090..0x00F8 and 0x0200..0x07F8 (R18, R42). -/
def regAt (off : Offset) : Option Reg :=
  let k := off.toNat / 8
  if k < 32 then scalarRegs[k]?
  else if k < 48 then some (.cnt (BitVec.ofNat 4 (k - 32)))
  else if k < 64 then some (.rowSum (BitVec.ofNat 4 (k - 48)))
  else if k < 256 then none
  else
    let a := BitVec.ofNat 4 (k % 256 / 16)
    let b := BitVec.ofNat 4 (k % 16)
    if k < 512 then some (.n a b)
    else if k < 768 then some (.pj a b)
    else some (.pc a b)

/-- The identification constant: "NIBBLE" and the edition 7 (R2, R19). -/
def idConstant : U64 := 0x4E4942424C450007#64

/-- The value a register reads in a state (R19 to R41; CMD reads 0, R41). -/
def readReg (r : Reg) (s : State) : U64 :=
  match r with
  | .id => idConstant
  | .status => statusWord s
  | .cmd => 0#64
  | .dataIn => s.port.dataIn
  | .dataOut0 => s.port.dataOut0
  | .dataOut1 => s.port.dataOut1
  | .errValue => s.err.value
  | .errPos => s.err.pos
  | .codecPos => s.codec.pos
  | .statM => s.stat.m
  | .statT => BitVec.ofNat 64 (total s.stat.n)
  | .joinCnt => s.join.cnt
  | .hJoint => s.stat.h.joint
  | .hPrev => s.stat.h.prev
  | .hCond => s.stat.h.cond
  | .hPerBit => s.stat.h.perBit
  | .hRel => s.stat.h.rel
  | .hMax => four
  | .cnt x => bankGet s.codec.cnt x
  | .rowSum a => BitVec.ofNat 64 (rowTotal s.stat.n a)
  | .n a b => countAt s.stat.n a b
  | .pj a b => countQuotient (countAt s.stat.n a b).toNat (total s.stat.n)
  | .pc a b => countQuotient (countAt s.stat.n a b).toNat (rowTotal s.stat.n a)

end Sys2Proof.Machine
end

