-- ==== Sys2Proof/Machine/Bus.lean ====
section
/-! DEFINITION. The register port of 20_memory.md: bus reads and writes (R47 to R51), a command word written to CMD (R81),
the transition of one input of the host (R46), and a run of such inputs (R161). -/

namespace Sys2Proof.Machine

/-- A command word written to CMD (R81): an illegal word raises ILLEGAL_COMMAND, or is ignored while an error is latched
(step 1, R74); a legal word executes its command (steps 2 to 6). -/
def executeWord (w : U64) (s : State) : Host.Outcome State Fault Refusal :=
  match decode w with
  | .error _ => if s.err.err then .next s else .next (raise .illegalCommand w w 0#64 s)
  | .ok i => exec i s

/-- A write's acknowledgement beside the state its command leaves: OK whatever the command's outcome, R51 (b). -/
def acknowledge : Host.Outcome State Fault Refusal → Host.Outcome (BusResponse × State) Fault Refusal
  | .next s => .next (.ok, s)
  | .fault f => .fault f
  | .refused r => .refused r

/-- A well-formed write at a register (R51): DATA_IN stores the value, CMD executes it, every other register is
read-only (R43). -/
def writeReg (a : BusAccess) (r : Reg) (v : U64) (s : State) : Host.Outcome (BusResponse × State) Fault Refusal :=
  match r with
  | .dataIn => .next (.ok, setDataIn v s)
  | .cmd => acknowledge (executeWord v s)
  | _ => .fault (.readOnlyRegister a)

/-- One bus access (R46): its response and the state after it. A BUS_ERROR is a fault (R49): of an access that is not
well-formed (R48), at an offset without a register (R51), or of a write to a read-only register. -/
def busAccess (a : BusAccess) (s : State) : Host.Outcome (BusResponse × State) Fault Refusal :=
  if !a.wellFormed then .fault (.malformedAccess a)
  else
    match a with
    | .read off _ =>
      match regAt off with
      | some r => .next (.data (readReg r s), s)
      | none => .fault (.reservedOffset a)
    | .write off _ v =>
      match regAt off with
      | some r => writeReg a r v s
      | none => .fault (.reservedOffset a)

/-- The step of the machine: the host's next input takes effect, whole, before the one after it (R53, R57). While the host
gives none the block is idle and keeps all state (R149, R152). A hardware reset has no response (R150). -/
def hostStep (s : State) : Host.Outcome State Fault Refusal :=
  match s.host.pending with
  | [] => .next s
  | .hardwareReset :: rest => .next (resetBlock (setPending rest s))
  | .access a :: rest =>
    match busAccess a (setPending rest s) with
    | .next (r, t) => .next (logResponse r t)
    | .fault f => .fault f
    | .refused r => .refused r

/-- The same transition as the host sees it (R46, R49): BUS_ERROR is a response, the block's state is what it was (R141)
and the host may go on. -/
def respond (input : HostInput) (s : State) : Host.Outcome State Fault Refusal :=
  match input with
  | .hardwareReset => .next (resetBlock s)
  | .access a =>
    match busAccess a s with
    | .next (r, t) => .next (logResponse r t)
    | .fault _ => .next (logResponse .busError s)
    | .refused r => .refused r

/-- A run (R161): the inputs in order from a start state; its result is the final state, with the responses. -/
def hostRun : List HostInput → State → Host.Outcome State Fault Refusal
  | [], s => .next s
  | input :: rest, s =>
    match respond input s with
    | .next t => hostRun rest t
    | .fault f => .fault f
    | .refused r => .refused r

end Sys2Proof.Machine
end

