-- ==== Sys2Proof/Machine/Step.lean ====
section
/-! DEFINITION. One step of the machine: one transition per input of the host (20_memory.md R46). -/

namespace Sys2Proof.Machine

/-- The step: the host's next input takes effect (R46, R57). -/
def step (s : State) : Host.Outcome State Fault Refusal := hostStep s

/-- The state in which the host's next access is the write of the table's word w to CMD (R51 (b), R60). The block fetches
nothing: the host supplies every command (assumption log entry 5). -/
def State.withFetchWord (s : State) (nbits w : Nat) : State :=
  setPending (.access (.write 0x0010#13 8 (BitVec.ofNat 64 (w % 2 ^ nbits))) :: s.host.pending) s

end Sys2Proof.Machine
end

