-- ==== Sys2Proof/Machine/Assembler.lean ====
section
/-! DEFINITION. The command syntax and the host's programs (30_encoding.md R77 to R79): the assembler, and the
pseudo-instructions with their expansions into bus accesses. -/

namespace Sys2Proof.Machine

/-- The mnemonics of the opcode map with their OPC (R72). -/
def mnemonicTable : List (String × Byte) :=
  [("NOP", 0x00#8), ("SOFT_RESET", 0x01#8), ("ERR_CLEAR", 0x02#8), ("ENC_START", 0x10#8), ("ENC_SYM", 0x11#8),
   ("ENC_BYTE", 0x12#8), ("DEC_START", 0x18#8), ("DEC_VAL", 0x19#8), ("STAT_START", 0x20#8), ("STAT_SYM", 0x21#8),
   ("STAT_BYTE", 0x22#8), ("STAT_FINISH", 0x23#8), ("SPLIT", 0x30#8), ("JOIN_START", 0x31#8), ("JOIN_SYM", 0x32#8),
   ("JOIN_END", 0x33#8)]

/-- The assembler: `word = OPC + operand·0x100`; an unknown mnemonic or an operand the format does not take is an assembly
error (R77). -/
def assemble (c : SourceCommand) : Option U64 :=
  match mnemonicTable.lookup c.mnemonic with
  | none => none
  | some opc =>
    match formatOf opc with
    | none => none
    | some f =>
      if operandFits f c.operand then some (BitVec.ofNat 64 (opc.toNat + c.operand.getD 0 * 0x100)) else none

/-- The digits of R77's operands, each at the place that is its value: 0 to 9 in decimal, 0 to F in hexadecimal. -/
def operandDigits : List Char :=
  ['0', '1', '2', '3', '4', '5', '6', '7', '8', '9', 'A', 'B', 'C', 'D', 'E', 'F']

/-- The value of a digit in base 10 or 16; a small hexadecimal digit counts as its capital (log entry 8). -/
def digitValue (base : Nat) (c : Char) : Option Nat := (operandDigits.take base).idxOf? c.toUpper

/-- The value of a row of digits in a base, most significant first; none where one is no digit of the base. -/
def digitsValue (base : Nat) (row : List Char) : Option Nat :=
  row.foldlM (fun value c => (digitValue base c).map (value * base + ·)) 0

/-- An operand as it is written: decimal, or hexadecimal after `0x` (R77). -/
def parseOperand : List Char → Option Nat
  | '0' :: 'x' :: d :: ds => digitsValue 16 (d :: ds)
  | d :: ds => digitsValue 10 (d :: ds)
  | [] => none

/-- A command as it is written, its mnemonic and the characters of its operand if it has one: the word, or none for an
assembly error (R77). -/
def assembleText (mnemonic : String) (operand : Option (List Char)) : Option U64 :=
  match operand with
  | none => assemble { mnemonic := mnemonic, operand := none }
  | some cs =>
    match parseOperand cs with
    | some v => assemble { mnemonic := mnemonic, operand := some v }
    | none => none

/-- `WR <reg>, <value>` (R78). -/
def wr (r : Reg) (v : U64) : BusAccess := .write (regOffset r) 8 v

/-- `RD <reg>` (R78). -/
def rd (r : Reg) : BusAccess := .read (regOffset r) 8

/-- The expansions of the pseudo-instructions (R79). -/
def expand : Pseudo → List BusAccess
  | .cmd i => [wr .cmd (encode i)]
  | .dec v => [wr .dataIn v, wr .cmd (encode .decVal)]
  | .enc s => [wr .cmd (encode (.encSym s)), rd .dataOut0]
  | .encb b => [wr .cmd (encode (.encByte b)), rd .dataOut0, rd .dataOut1]
  | .decs v => [wr .dataIn v, wr .cmd (encode .decVal), rd .dataOut0]
  | .check => [rd .status]

/-- A host's program of pseudo-instructions as the inputs it gives (R78, R79). -/
def hostProgram (ps : List Pseudo) : List HostInput := (ps.flatMap expand).map .access

end Sys2Proof.Machine
end

