-- ==== Sys2Proof/Machine/Source.lean ====
section
/-! DEFINITION. The source's functions, which the commands render: the conversions (41_conversion.md R90, R91), encode and
decode over unbounded counters (42_codec.md R98, R99; 90_conflicts.md C8) and the pair counts (43_statistics.md R114). -/

namespace Sys2Proof.Machine

/-- The failures of the source's functions: InvalidLength (R91), CorruptStream with the value and its 0-based position
(R99), and the host's IOError with the path (R65). -/
inductive SourceError where
  | invalidLength
  | corruptStream (value position : Nat)
  | ioError (path : String)
  deriving DecidableEq, Repr

/-- `bytesToNibbles(B)`: the high symbol of each byte, then its low symbol (R90). -/
def bytesToNibbles (bytes : List Byte) : List Nibble := bytes.flatMap fun b => [hiSymbol b, loSymbol b]

/-- The bytes of the complete pairs of a sequence (R91). -/
def pairBytes : List Nibble → List Byte
  | hi :: lo :: rest => joinSymbols hi lo :: pairBytes rest
  | [_] => []
  | [] => []

/-- `nibblesToBytes(S)`: InvalidLength when the length is odd (R91). -/
def nibblesToBytes (seq : List Nibble) : Except SourceError (List Byte) :=
  if seq.length % 2 = 1 then .error .invalidLength else .ok (pairBytes seq)

/-- The source's initial counters, `counter[s] = s` (R98). -/
def sourceInit : Nibble → Nat := fun t => t.toNat

/-- One update of the source's counters: all incremented, then the chosen one zeroed (R98, steps 2 and 3; R100). -/
def sourceUpdate (c : Nibble → Nat) (s : Nibble) : Nibble → Nat := fun t => if t = s then 0 else c t + 1

/-- The loop of encode from given counters (R98). -/
def encodeFrom (c : Nibble → Nat) : List Nibble → List Nat
  | [] => []
  | s :: rest => c s :: encodeFrom (sourceUpdate c s) rest

/-- `encode(S)` (R98). -/
def sourceEncode (seq : List Nibble) : List Nat := encodeFrom sourceInit seq

/-- The loop of decode from given counters at a position (R99). -/
def decodeFrom (c : Nibble → Nat) (position : Nat) : List Nat → Except SourceError (List Nibble)
  | [] => .ok []
  | v :: rest =>
    match allSymbols.find? fun t => c t == v with
    | none => .error (.corruptStream v position)
    | some s =>
      match decodeFrom (sourceUpdate c s) (position + 1) rest with
      | .ok out => .ok (s :: out)
      | .error e => .error e

/-- `decode(E)` (R99). -/
def sourceDecode (values : List Nat) : Except SourceError (List Nibble) := decodeFrom sourceInit 0 values

/-- The adjacent pairs `(seq[i], seq[i+1])` of a sequence (R114). -/
def adjacentPairs (seq : List Nibble) : List (Nibble × Nibble) := seq.zip seq.tail

/-- `N[a][b]` of the sequence: how many adjacent pairs are (a, b) (R114). -/
def pairCount (seq : List Nibble) (a b : Nibble) : Nat := (adjacentPairs seq).count (a, b)

end Sys2Proof.Machine
end

