-- ==== Sys2Proof/Machine/Archive.lean ====
section
/-! DEFINITION. The archive format, host-side (20_memory.md R62 to R66): pack and unpack without the file operations,
which are out of scope (00_scope.md R6 (c)), and the host's realisation of both with the commands of the block. -/

namespace Sys2Proof.Machine

/-- `bytes8(v)` under LE: the least significant byte first (R63). -/
def bytes8LE (v : U64) : List Byte :=
  [v.extractLsb' 0 8, v.extractLsb' 8 8, v.extractLsb' 16 8, v.extractLsb' 24 8,
   v.extractLsb' 32 8, v.extractLsb' 40 8, v.extractLsb' 48 8, v.extractLsb' 56 8]

/-- `bytes8(v)` under an ARCHIVE_BYTE_ORDER: for BE, the reverse list (R63). -/
def bytes8 : ByteOrder → U64 → List Byte
  | .le, v => bytes8LE v
  | .be, v => (bytes8LE v).reverse

/-- The file of a list of encoded words (R62). -/
def packWords (order : ByteOrder) (words : List U64) : List Byte := words.flatMap (bytes8 order)

/-- `pack(seq)`: the file's bytes (R62). Beyond LEN_LIMIT a code can pass 2^64 - 1, where the source gives no behaviour
(R101): DESIGN CHOICE, each value is then taken modulo 2^64 (log entry 12). -/
def pack (order : ByteOrder) (seq : List Nibble) : List Byte :=
  packWords order ((sourceEncode seq).map (BitVec.ofNat 64))

/-- The word of eight bytes of a file under an ARCHIVE_BYTE_ORDER, the inverse of bytes8 (R63, R64). -/
def wordOf8 : ByteOrder → Byte → Byte → Byte → Byte → Byte → Byte → Byte → Byte → U64
  | .le, a, b, c, d, e, f, g, h => h ++ g ++ f ++ e ++ d ++ c ++ b ++ a
  | .be, a, b, c, d, e, f, g, h => a ++ b ++ c ++ d ++ e ++ f ++ g ++ h

/-- The words of a file; none when its length is not a multiple of 8 (R64). -/
def fileWords (order : ByteOrder) : List Byte → Option (List U64)
  | [] => some []
  | a :: b :: c :: d :: e :: f :: g :: h :: rest =>
    match fileWords order rest with
    | some words => some (wordOf8 order a b c d e f g h :: words)
    | none => none
  | _ :: _ => none

/-- `unpack(source)` of a file that could be read: IOError("malformed length", path), or what decode answers (R64, R65). -/
def unpack (order : ByteOrder) (path : String) (file : List Byte) : Except SourceError (List Nibble) :=
  match fileWords order file with
  | none => .error (.ioError path)
  | some words => sourceDecode (words.map BitVec.toNat)

/-- The commands of encode: ENC_START, then one ENC_SYM per symbol with DATA_OUT0 read after each (R66, R109). -/
def encodeProgram (seq : List Nibble) : List Pseudo := .cmd .encStart :: seq.map .enc

/-- The same for a byte buffer: ENC_START, then one ENC_BYTE per byte with DATA_OUT0 and DATA_OUT1 read after each
(R66). -/
def encodeBytesProgram (bytes : List Byte) : List Pseudo := .cmd .encStart :: bytes.map .encb

/-- The commands of decode: DEC_START, then for each value a write of DATA_IN, DEC_VAL and a read of DATA_OUT0
(R110). -/
def decodeProgram (words : List U64) : List Pseudo := .cmd .decStart :: words.map .decs

/-- The host's realisation of the statistics engine: STAT_START, one STAT_SYM per symbol, STAT_FINISH (R131). -/
def statProgram (seq : List Nibble) : List Pseudo :=
  .cmd .statStart :: (seq.map fun s => .cmd (.statSym s)) ++ [.cmd .statFinish]

/-- The symbols of a join: JOIN_SYM for each, with DATA_OUT0 read after the second of each pair (R97). -/
def joinPairs : List Nibble → List BusAccess
  | hi :: lo :: rest =>
    wr .cmd (encode (.joinSym hi)) :: wr .cmd (encode (.joinSym lo)) :: rd .dataOut0 :: joinPairs rest
  | [x] => [wr .cmd (encode (.joinSym x))]
  | [] => []

/-- The host's realisation of nibblesToBytes: JOIN_START, the symbols, JOIN_END (R97). -/
def joinAccesses (seq : List Nibble) : List BusAccess :=
  wr .cmd (encode .joinStart) :: (joinPairs seq ++ [wr .cmd (encode .joinEnd)])

/-- The host's realisation of bytesToNibbles: SPLIT for each byte, DATA_OUT0 then DATA_OUT1 read after each (R96). -/
def splitAccesses (bytes : List Byte) : List BusAccess :=
  bytes.flatMap fun b => [wr .cmd (encode (.split b)), rd .dataOut0, rd .dataOut1]

/-! ### The host's realisation of pack and unpack, R66 -/

/-- The values that reads returned, in order. -/
def readValues (responses : List BusResponse) : List U64 :=
  responses.filterMap fun r =>
    match r with
    | .data v => some v
    | .ok => none
    | .busError => none

/-- What follows an outcome: the continuation of a next state, the fault or the refusal itself. -/
def proceed {α β : Type} (o : Host.Outcome α Fault Refusal) (k : α → Host.Outcome β Fault Refusal) :
    Host.Outcome β Fault Refusal :=
  match o with
  | .next x => k x
  | .fault f => .fault f
  | .refused r => .refused r

/-- A run of accesses with the values its reads returned (R161). -/
def runReading (accesses : List BusAccess) (s : State) : Host.Outcome (List U64 × State) Fault Refusal :=
  proceed (hostRun (accesses.map .access) s) fun t =>
    .next (readValues (t.host.responses.drop s.host.responses.length), t)

/-- How a host's operation fails: as the source's function does, or with another error of the latch (R134, R140). -/
inductive HostError where
  /-- The source's error: IOError before any command (R64, R65), or CORRUPT_STREAM with ERR_VALUE and ERR_POS. -/
  | source (e : SourceError)
  /-- Any other latched error: its STATUS word, ERR_VALUE and ERR_POS. -/
  | latched (status value pos : U64)
  deriving DecidableEq, Repr

/-- The error that a STATUS word with ERR = 1 and the latch's two values report (R20, R134, R140). -/
def latchError (status value pos : U64) : HostError :=
  if status.extractLsb' 4 4 = 1#4 then .source (.corruptStream value.toNat pos.toNat) else .latched status value pos

/-- A host's test of a STATUS word it has read: with ERR = 1 the result is the error of the latch, which it reads
(R140); with ERR = 0 it goes on. -/
def checkStatus {α : Type} (status : U64) (s : State)
    (goOn : Host.Outcome (Except HostError α × State) Fault Refusal) :
    Host.Outcome (Except HostError α × State) Fault Refusal :=
  if status.extractLsb' 0 1 = 1#1 then
    proceed (runReading [rd .errValue, rd .errPos] s) fun (latch, t) =>
      .next (.error (latchError status (latch.getD 0 0#64) (latch.getD 1 0#64)), t)
  else goOn

/-- pack as a host realises it: an encode program, STATUS at its end (R157), and the values read, serialised (R63,
R66). -/
def hostPack (order : ByteOrder) (program : List Pseudo) (s : State) :
    Host.Outcome (Except HostError (List Byte) × State) Fault Refusal :=
  proceed (runReading ((program ++ [Pseudo.check]).flatMap expand) s) fun (values, t) =>
    checkStatus (values.getLastD 0#64) t (.next (.ok (packWords order values.dropLast), t))

/-- One DEC_VAL per word, DATA_OUT0 and STATUS read after each; at the first ERR = 1 the host stops (R66, R157). -/
def hostDecode : List U64 → State → Host.Outcome (Except HostError (List Nibble) × State) Fault Refusal
  | [], s => .next (.ok [], s)
  | v :: rest, s =>
    proceed (runReading (expand (.decs v) ++ expand .check) s) fun (values, t) =>
      checkStatus (values.getD 1 0#64) t
        (proceed (hostDecode rest t) fun (result, u) =>
          .next (result.map fun out => (values.getD 0 0#64).setWidth 4 :: out, u))

/-- unpack as a host realises it: R64's checks, which end a zero-byte file and a malformed length without a command; then
DEC_START and the words (R66). -/
def hostUnpack (order : ByteOrder) (path : String) (file : List Byte) (s : State) :
    Host.Outcome (Except HostError (List Nibble) × State) Fault Refusal :=
  match fileWords order file with
  | none => .next (.error (.source (.ioError path)), s)
  | some [] => .next (.ok [], s)
  | some words => proceed (runReading (expand (.cmd .decStart)) s) fun (_, t) => hostDecode words t

end Sys2Proof.Machine
end

