-- ==== Sys2Proof/Safety.lean ====
section
/-! DEFINITION. The terms the statements use: which accesses the block admits (20_memory.md R48, R51), the invariant of the
machine (10_state.md R21, R23 to R25, R29, R32, R36), an operation's success (60_exceptions.md R140), and the real values
that binary64 patterns and the exact entropies stand for (00_scope.md R12, 43_statistics.md R116, R117, R123). -/

namespace Sys2Proof.Machine

/-! ### Accesses -/

/-- An offset that the map of R18 assigns to a register, in numbers. -/
def assignedOffset (off : Nat) : Prop :=
  off % 8 = 0 ∧ (off ≤ 0x0088 ∨ (0x0100 ≤ off ∧ off ≤ 0x01F8) ∨ (0x0800 ≤ off ∧ off ≤ 0x1FF8))

/-- The accesses that get no BUS_ERROR: 8-byte reads of an assigned offset, and 8-byte writes of CMD or DATA_IN
(R43, R48, R51). -/
def Admitted : BusAccess → Prop
  | .read off size => size = 8 ∧ assignedOffset off.toNat
  | .write off size _ => size = 8 ∧ (off.toNat = 0x0010 ∨ off.toNat = 0x0018)

/-! ### The invariant -/

/-- I1 and its bound, and the limit of the position (R17, R29). -/
structure CodecInv (u : CodecUnit) : Prop where
  distinct : ∀ a b, bankGet u.cnt a = bankGet u.cnt b → a = b
  bounded : ∀ s, (bankGet u.cnt s).toNat ≤ 15 + u.pos.toNat
  limit : u.pos.toNat ≤ Config.lenLimit.toNat

/-- T = max(M - 1, 0) (R32), the limit of STAT_M (R17), STAT_HAVE_PREV and STAT_PREV (R24), nothing accumulated before the
first START, and the entropy registers: +0.0 until STAT_FINISH, then the entropies of N (R36, R122). -/
structure StatInv (u : StatUnit) : Prop where
  transitions : total u.n = u.m.toNat - 1
  limit : u.m.toNat ≤ Config.lenLimit.toNat
  havePrev : u.havePrev = true ↔ u.m ≠ 0#64
  prevZero : u.havePrev = false → u.prev = 0#4
  idle : u.mode = .idle → u.m = 0#64
  unfinished : u.mode ≠ .done → u.h = zeroEntropies
  finished : u.mode = .done → u.h = finishEntropies u.n

/-- JOIN_HALF_VALID marks an odd count, JOIN_HALF is 0 without it, and a finished join holds no half byte (R25, R95); the
limit of JOIN_CNT (R17). -/
structure JoinInv (u : JoinUnit) : Prop where
  parity : u.halfValid = true ↔ u.cnt.toNat % 2 = 1
  halfZero : u.halfValid = false → u.half = 0#4
  inactive : u.active = false → u.halfValid = false
  limit : u.cnt.toNat ≤ Config.lenLimit.toNat

/-- ERR = 0 if and only if ERR_CODE = 0, and then every field of the latch is 0 (R21, R26). -/
structure LatchInv (e : ErrLatch) : Prop where
  code : e.err = false ↔ e.code = .none
  clear : e.err = false → e = clearLatch

/-- The invariant of the machine: every unit's own. -/
structure MachineInv (s : State) : Prop where
  codec : CodecInv s.codec
  stat : StatInv s.stat
  join : JoinInv s.join
  latch : LatchInv s.err

/-- No error is latched: after the last command of an operation, the operation has succeeded (R140). -/
def NoError (s : State) : Prop := s.err.err = false

/-! ### When a command is performed -/

/-- The modes in which a command is accepted (R22, R23, R25; the fields mode_ok of files 40 to 43). -/
def ModeAccepts (i : Instr) (s : State) : Prop :=
  match i with
  | .nop | .softReset | .errClear | .encStart | .decStart | .statStart | .split _ | .joinStart => True
  | .encSym _ | .encByte _ => s.codec.mode = .enc
  | .decVal => s.codec.mode = .dec
  | .statSym _ | .statByte _ | .statFinish => s.stat.mode = .accum
  | .joinSym _ | .joinEnd => s.join.active = true

/-- The steps of a command and the count of its unit before it (the fields length_ok and unit_count). -/
def stepsAndCount (i : Instr) (s : State) : Nat × U64 :=
  match i with
  | .encSym _ | .decVal => (1, s.codec.pos)
  | .encByte _ => (2, s.codec.pos)
  | .statSym _ => (1, s.stat.m)
  | .statByte _ => (2, s.stat.m)
  | .joinSym _ => (1, s.join.cnt)
  | .nop | .softReset | .errClear | .encStart | .decStart | .statStart | .statFinish | .split _ | .joinStart
  | .joinEnd => (0, 0#64)

/-- A command of at least one step whose steps would pass LEN_LIMIT (R101, R120, R121, R94). -/
def PassesLimit (i : Instr) (s : State) : Prop :=
  0 < (stepsAndCount i s).1 ∧ 2 ^ 64 - 16 < (stepsAndCount i s).2.toNat + (stepsAndCount i s).1

/-! ### Units -/

/-- The column "unit" of the opcode map (R72). -/
inductive CommandUnit where
  | control
  | codec
  | statistics
  | conversion
  deriving DecidableEq, Repr

/-- The unit of a command (R72). -/
def unitOf : Instr → CommandUnit
  | .nop => .control
  | .softReset => .control
  | .errClear => .control
  | .encStart => .codec
  | .encSym _ => .codec
  | .encByte _ => .codec
  | .decStart => .codec
  | .decVal => .codec
  | .statStart => .statistics
  | .statSym _ => .statistics
  | .statByte _ => .statistics
  | .statFinish => .statistics
  | .split _ => .conversion
  | .joinStart => .conversion
  | .joinSym _ => .conversion
  | .joinEnd => .conversion

/-! ### The archive -/

/-- What byte j of a word of the archive counts: 256^j under LE, 256^(7-j) under BE (R63). -/
def byteWeight : ByteOrder → Nat → Nat
  | .le, j => 256 ^ j
  | .be, j => 256 ^ (7 - j)

/-! ### Real values -/

/-- The real value of a finite binary64 pattern (R12). -/
noncomputable def f64Real (x : Binary64) : ℝ := (f64Value x : ℝ) / 2 ^ 1074

/-- `-Σ p·log2 p` over the nonzero parts, with p = n / T (R116). It is 0 when every part is 0. -/
noncomputable def partsEntropy (parts : List Nat) : ℝ :=
  -((parts.filter fun n => 0 < n).map fun n : Nat =>
      ((n : ℝ) / (parts.sum : ℝ)) * Real.logb 2 ((n : ℝ) / (parts.sum : ℝ))).sum

/-- HJ*(N) (R117). -/
noncomputable def exactJoint (n : CountMatrix) : ℝ := partsEntropy (cellParts n)

/-- HP*(N) (R117). -/
noncomputable def exactPrev (n : CountMatrix) : ℝ := partsEntropy (rowParts n)

/-- HC*(N) (R117). -/
noncomputable def exactCond (n : CountMatrix) : ℝ := exactJoint n - exactPrev n

/-- The law EntropyAccurate(eps) (R123). -/
def EntropyAccurate (eps : ℝ) (f : CountMatrix → Binary64 × Binary64) : Prop :=
  ∀ n : CountMatrix,
    (total n = 0 → f n = (posZero, posZero)) ∧
    (0 < total n →
      nonnegFinite (f n).1 = true ∧ nonnegFinite (f n).2 = true ∧
      |f64Real (f n).1 - exactJoint n| ≤ eps ∧ |f64Real (f n).2 - exactPrev n| ≤ eps)

/-- x is the finite binary64 value without a sign nearest to q, the even one of two (R12). -/
def NearestEven (q : ℝ) (x : Binary64) : Prop :=
  nonnegFinite x = true ∧
    ∀ y : Binary64, nonnegFinite y = true → y ≠ x →
      |f64Real x - q| < |f64Real y - q| ∨ (|f64Real x - q| = |f64Real y - q| ∧ x.toNat % 2 = 0)

end Sys2Proof.Machine
end

