-- ==== Sys2Proof/Certificates/Slice0/Obligations.lean ====
section
/-! DEFINITION. The statements for the provers. Each docstring names the rule of spec/ that the statement formalises. -/

open Sys2Proof Sys2Proof.Machine

/-! ### The encoding -/

/-- R72, R77: decoding the word of a command gives the command, operand included, and the word is legal (R73). -/
def Obligations.DecodeEncodeEveryCommand : Prop :=
  ∀ i : Instr, decode (encode i) = .ok i ∧ legal (encode i) = true

/-- R73: a legal word decodes to the command it encodes, every other word of the 2^64 is refused. -/
def Obligations.DecodeAnswersExactlyLegalWords : Prop :=
  ∀ w : U64,
    (legal w = true → ∃ i, decode w = .ok i ∧ encode i = w) ∧ (legal w = false → ∃ e, decode w = .error e)

/-- R80: the encoding examples, both ways, and the illegal words among them. -/
def Obligations.EncodingExamples : Prop :=
  encode (.encSym 10#4) = 0x0000000000000A11#64 ∧ decode 0x0000000000000A11#64 = .ok (.encSym 10#4) ∧
  encode (.encSym 0#4) = 0x0000000000000011#64 ∧ decode 0x0000000000000011#64 = .ok (.encSym 0#4) ∧
  encode (.encByte 0xAB#8) = 0x000000000000AB12#64 ∧ decode 0x000000000000AB12#64 = .ok (.encByte 0xAB#8) ∧
  encode (.statSym 15#4) = 0x0000000000000F21#64 ∧ decode 0x0000000000000F21#64 = .ok (.statSym 15#4) ∧
  encode (.statByte 0x01#8) = 0x0000000000000122#64 ∧ decode 0x0000000000000122#64 = .ok (.statByte 0x01#8) ∧
  encode (.split 0xAB#8) = 0x000000000000AB30#64 ∧ decode 0x000000000000AB30#64 = .ok (.split 0xAB#8) ∧
  encode (.joinSym 5#4) = 0x0000000000000532#64 ∧ decode 0x0000000000000532#64 = .ok (.joinSym 5#4) ∧
  encode .decVal = 0x0000000000000019#64 ∧ decode 0x0000000000000019#64 = .ok .decVal ∧
  legal 0x0000000000000005#64 = false ∧ legal 0x0000000000001011#64 = false ∧
  legal 0x0000000000000110#64 = false ∧ legal 0x8000000000000000#64 = false

/-- R74: a word with a reserved opcode, or with a nonzero bit where its format requires 0, raises ILLEGAL_COMMAND with
ERR_VALUE = w, or is ignored while an error is latched; it has no other effect. -/
def Obligations.IllegalWordRaisesOrIsIgnored : Prop :=
  ∀ (w : U64) (s : State),
    (let opc := w.toNat % 256
     (0x03 ≤ opc ∧ opc ≤ 0x0F) ∨ (0x13 ≤ opc ∧ opc ≤ 0x17) ∨ (0x1A ≤ opc ∧ opc ≤ 0x1F) ∨
     (0x24 ≤ opc ∧ opc ≤ 0x2F) ∨ 0x34 ≤ opc ∨
     (opc ∈ [0x00, 0x01, 0x02, 0x10, 0x18, 0x19, 0x20, 0x23, 0x31, 0x33] ∧ w.toNat / 2 ^ 8 ≠ 0) ∨
     (opc ∈ [0x11, 0x21, 0x32] ∧ w.toNat / 2 ^ 12 ≠ 0) ∨
     (opc ∈ [0x12, 0x22, 0x30] ∧ w.toNat / 2 ^ 16 ≠ 0)) →
    (s.err.err = false →
      busAccess (.write 0x0010#13 8 w) s = .next (.ok, { s with
        err := { err := true, code := .illegalCommand, opc := w.setWidth 8, value := w, pos := 0#64 } })) ∧
    (s.err.err = true → busAccess (.write 0x0010#13 8 w) s = .next (.ok, s))

/-- R77: the assembler never emits an illegal word; each mnemonic of R72, with the operand its format takes, assembles to
the word of its command; an unknown mnemonic, an operand where the format has none, a missing one, and one out of range
are assembly errors. -/
def Obligations.AssemblerEmitsOnlyLegalWords : Prop :=
  (∀ (c : SourceCommand) (w : U64), assemble c = some w → legal w = true) ∧
  (assemble ⟨"NOP", none⟩ = some (encode .nop) ∧ assemble ⟨"SOFT_RESET", none⟩ = some (encode .softReset) ∧
    assemble ⟨"ERR_CLEAR", none⟩ = some (encode .errClear) ∧ assemble ⟨"ENC_START", none⟩ = some (encode .encStart) ∧
    (∀ x : Nibble, assemble ⟨"ENC_SYM", some x.toNat⟩ = some (encode (.encSym x))) ∧
    (∀ b : Byte, assemble ⟨"ENC_BYTE", some b.toNat⟩ = some (encode (.encByte b))) ∧
    assemble ⟨"DEC_START", none⟩ = some (encode .decStart) ∧ assemble ⟨"DEC_VAL", none⟩ = some (encode .decVal) ∧
    assemble ⟨"STAT_START", none⟩ = some (encode .statStart) ∧
    (∀ x : Nibble, assemble ⟨"STAT_SYM", some x.toNat⟩ = some (encode (.statSym x))) ∧
    (∀ b : Byte, assemble ⟨"STAT_BYTE", some b.toNat⟩ = some (encode (.statByte b))) ∧
    assemble ⟨"STAT_FINISH", none⟩ = some (encode .statFinish) ∧
    (∀ b : Byte, assemble ⟨"SPLIT", some b.toNat⟩ = some (encode (.split b))) ∧
    assemble ⟨"JOIN_START", none⟩ = some (encode .joinStart) ∧
    (∀ x : Nibble, assemble ⟨"JOIN_SYM", some x.toNat⟩ = some (encode (.joinSym x))) ∧
    assemble ⟨"JOIN_END", none⟩ = some (encode .joinEnd)) ∧
  (let f0 := ["NOP", "SOFT_RESET", "ERR_CLEAR", "ENC_START", "DEC_START", "DEC_VAL", "STAT_START", "STAT_FINISH",
      "JOIN_START", "JOIN_END"]
   let fs := ["ENC_SYM", "STAT_SYM", "JOIN_SYM"]
   let fb := ["ENC_BYTE", "STAT_BYTE", "SPLIT"]
   (∀ name ∈ f0, ∀ v, assemble ⟨name, some v⟩ = none) ∧
   (∀ name ∈ fs, assemble ⟨name, none⟩ = none ∧ ∀ v, 16 ≤ v → assemble ⟨name, some v⟩ = none) ∧
   (∀ name ∈ fb, assemble ⟨name, none⟩ = none ∧ ∀ v, 256 ≤ v → assemble ⟨name, some v⟩ = none) ∧
   (∀ name, name ∉ f0 → name ∉ fs → name ∉ fb → ∀ v, assemble ⟨name, v⟩ = none))

/-! ### The port -/

/-- A write of a legal word to CMD runs exec of its command at the state whose pending inputs are those after the write;
exec leaves the host's side alone, and the step adds the acknowledgement (R46, R51, R81). -/
def Obligations.StepRunsDecodedCommand : Prop :=
  ∀ (s : State) (w : U64) (rest : List HostInput) (i : Instr),
    s.host.pending = .access (.write 0x0010#13 8 w) :: rest → decode w = .ok i →
    ∃ t, exec i (setPending rest s) = .next t ∧
      t.host = { pending := rest, responses := s.host.responses } ∧
      step s = .next (logResponse .ok t)

/-- R53, R81: every command completes, as one change of the block's state; the host's side is not the block's. -/
def Obligations.EveryCommandCompletes : Prop :=
  ∀ (i : Instr) (s : State), ∃ t, exec i s = .next t ∧ t.host = s.host

/-- R48, R49, R51: an access that is not admitted, and no other, gets BUS_ERROR: the step is a fault, the host's view of it
is a BUS_ERROR response with no state changed, and no step ever refuses. -/
def Obligations.BusErrorExactlyOnAccessesNotAdmitted : Prop :=
  ∀ (s : State) (a : BusAccess) (rest : List HostInput), s.host.pending = .access a :: rest →
    (Admitted a → ∃ t, step s = .next t) ∧
    (¬ Admitted a → (∃ f, step s = .fault f) ∧ respond (.access a) s = .next (logResponse .busError s))

/-- R46, R57: on an admitted access the step is the transition the host sees, so that a run of admitted accesses is a
sequence of steps. -/
def Obligations.StepIsTheHostsTransition : Prop :=
  ∀ (s : State) (input : HostInput) (rest : List HostInput), s.host.pending = input :: rest →
    (∀ a, input = .access a → Admitted a) → step s = respond input (setPending rest s)

/-- R149, R152: while the host gives no access the block keeps all state. -/
def Obligations.IdleStepKeepsState : Prop := ∀ s : State, s.host.pending = [] → step s = .next s

/-- R18: an aligned offset is assigned to a register exactly as the map says, one register per offset; the offset of each
register is that of its row. -/
def Obligations.RegisterMapIsOneToOne : Prop :=
  (∀ r : Reg, regAt (regOffset r) = some r ∧ assignedOffset (regOffset r).toNat) ∧
  (∀ off : Offset, assignedOffset off.toNat → ∃ r, regAt off = some r ∧ regOffset r = off) ∧
  (∀ off : Offset, off.toNat % 8 = 0 → ¬ assignedOffset off.toNat → regAt off = none) ∧
  (regOffset .id = 0x0000#13 ∧ regOffset .status = 0x0008#13 ∧ regOffset .cmd = 0x0010#13 ∧
    regOffset .dataIn = 0x0018#13 ∧ regOffset .dataOut0 = 0x0020#13 ∧ regOffset .dataOut1 = 0x0028#13 ∧
    regOffset .errValue = 0x0030#13 ∧ regOffset .errPos = 0x0038#13 ∧ regOffset .codecPos = 0x0040#13 ∧
    regOffset .statM = 0x0048#13 ∧ regOffset .statT = 0x0050#13 ∧ regOffset .joinCnt = 0x0058#13 ∧
    regOffset .hJoint = 0x0060#13 ∧ regOffset .hPrev = 0x0068#13 ∧ regOffset .hCond = 0x0070#13 ∧
    regOffset .hPerBit = 0x0078#13 ∧ regOffset .hRel = 0x0080#13 ∧ regOffset .hMax = 0x0088#13) ∧
  (∀ a b : Nibble, (regOffset (.cnt a)).toNat = 0x0100 + 8 * a.toNat ∧
    (regOffset (.rowSum a)).toNat = 0x0180 + 8 * a.toNat ∧
    (regOffset (.n a b)).toNat = 0x0800 + 8 * (16 * a.toNat + b.toNat) ∧
    (regOffset (.pj a b)).toNat = 0x1000 + 8 * (16 * a.toNat + b.toNat) ∧
    (regOffset (.pc a b)).toNat = 0x1800 + 8 * (16 * a.toNat + b.toNat))

/-- R50: a well-formed read at an assigned offset returns the value of that offset's register in the current state and
changes no state, so that a read repeated gives the same value; CMD reads 0; every register with storage reads its element
of R15 (R26 to R28, R30, R31, R36, R38 to R40). -/
def Obligations.ReadReturnsRegisterAndChangesNothing : Prop :=
  ∀ s : State,
    (∀ off : Offset, assignedOffset off.toNat →
      ∃ r, regOffset r = off ∧ busAccess (.read off 8) s = .next (.data (readReg r s), s) ∧
        (off = 0x0010#13 → readReg r s = 0#64)) ∧
    readReg .dataIn s = s.port.dataIn ∧ readReg .dataOut0 s = s.port.dataOut0 ∧ readReg .dataOut1 s = s.port.dataOut1 ∧
    readReg .errValue s = s.err.value ∧ readReg .errPos s = s.err.pos ∧
    readReg .codecPos s = s.codec.pos ∧ (∀ x, readReg (.cnt x) s = bankGet s.codec.cnt x) ∧
    readReg .joinCnt s = s.join.cnt ∧
    readReg .statM s = s.stat.m ∧ (∀ a b, readReg (.n a b) s = countAt s.stat.n a b) ∧
    readReg .hJoint s = s.stat.h.joint ∧ readReg .hPrev s = s.stat.h.prev ∧ readReg .hCond s = s.stat.h.cond ∧
    readReg .hPerBit s = s.stat.h.perBit ∧ readReg .hRel s = s.stat.h.rel

/-- R51: what a well-formed write does at each offset: (a) DATA_IN takes the value; (b) CMD executes the command and is
acknowledged whatever its outcome; (c) a read-only register and (d) a reserved offset give BUS_ERROR, which the host
sees as a response with no state changed; so does a read at a reserved offset. -/
def Obligations.RegisterWritesFollowTheMap : Prop :=
  ∀ (s : State) (off : Offset) (v : U64),
    (off.toNat = 0x0018 →
      busAccess (.write off 8 v) s = .next (.ok, { s with port := { s.port with dataIn := v } })) ∧
    (off.toNat = 0x0010 → ∃ t, executeWord v s = .next t ∧ busAccess (.write off 8 v) s = .next (.ok, t)) ∧
    (assignedOffset off.toNat → off.toNat ≠ 0x0018 → off.toNat ≠ 0x0010 →
      (∃ f, busAccess (.write off 8 v) s = .fault f) ∧
        respond (.access (.write off 8 v)) s = .next (logResponse .busError s)) ∧
    (off.toNat % 8 = 0 → ¬ assignedOffset off.toNat →
      (∃ f g, busAccess (.write off 8 v) s = .fault f ∧ busAccess (.read off 8) s = .fault g) ∧
        respond (.access (.write off 8 v)) s = .next (logResponse .busError s) ∧
        respond (.access (.read off 8)) s = .next (logResponse .busError s))

/-- R19, R37: ID at 0x0000 and H_MAX at 0x0088 read their constants in every state. -/
def Obligations.ConstantRegistersReadTheirConstants : Prop :=
  regAt 0x0000#13 = some .id ∧ regAt 0x0088#13 = some .hMax ∧
  ∀ s : State, readReg .id s = 0x4E4942424C450007#64 ∧ readReg .hMax s = 0x4010000000000000#64

/-- R20: the fields of STATUS at 0x0008, and its reserved bits; all read 0 after reset. -/
def Obligations.StatusShowsTheFields : Prop :=
  regAt 0x0008#13 = some .status ∧ readReg .status State.reset = 0#64 ∧
  ∀ s : State,
    let w := readReg .status s
    w.extractLsb' 0 1 = (if s.err.err then 1#1 else 0#1) ∧ w.extractLsb' 1 3 = 0#3 ∧
    (w.extractLsb' 4 4).toNat = (match s.err.code with
      | .none => 0 | .corruptStream => 1 | .invalidLength => 2 | .illegalCommand => 3 | .sequence => 4
      | .lengthOverflow => 5) ∧
    (w.extractLsb' 8 2).toNat = (match s.codec.mode with | .idle => 0 | .enc => 1 | .dec => 2) ∧
    (w.extractLsb' 10 2).toNat = (match s.stat.mode with | .idle => 0 | .accum => 1 | .done => 2) ∧
    w.extractLsb' 12 1 = (if s.stat.havePrev then 1#1 else 0#1) ∧
    w.extractLsb' 13 1 = (if s.join.active then 1#1 else 0#1) ∧
    w.extractLsb' 14 1 = (if s.join.halfValid then 1#1 else 0#1) ∧ w.extractLsb' 15 1 = 0#1 ∧
    w.extractLsb' 16 4 = s.join.half ∧ w.extractLsb' 20 4 = s.stat.prev ∧ w.extractLsb' 24 8 = s.err.opc ∧
    w.extractLsb' 32 32 = 0#32

/-- R32, R33: STAT_T and ROWSUM read the exact sums of the counts, which fit 64 bits in every state of the invariant. -/
def Obligations.SumRegistersReadExactSums : Prop :=
  ∀ (s : State) (a : Nibble), MachineInv s →
    (readReg .statT s).toNat = (allSymbols.map fun x => (allSymbols.map fun y => (readReg (.n x y) s).toNat).sum).sum ∧
    (readReg (.rowSum a) s).toNat = (allSymbols.map fun y => (readReg (.n a y) s).toNat).sum ∧
    (readReg .statT s).toNat = (readReg .statM s).toNat - 1

/-- R12, R128, R129: PJ and PC read the quotient of the exact counts rounded to nearest even, and +0.0 when the divisor is
0. -/
def Obligations.ProbabilityRegistersAreCorrectlyRounded : Prop :=
  ∀ (s : State) (a b : Nibble),
    (total s.stat.n ≠ 0 →
      NearestEven (((countAt s.stat.n a b).toNat : ℝ) / (total s.stat.n : ℝ)) (readReg (.pj a b) s)) ∧
    (total s.stat.n = 0 → readReg (.pj a b) s = 0#64) ∧
    (rowTotal s.stat.n a ≠ 0 →
      NearestEven (((countAt s.stat.n a b).toNat : ℝ) / (rowTotal s.stat.n a : ℝ)) (readReg (.pc a b) s)) ∧
    (rowTotal s.stat.n a = 0 → readReg (.pc a b) s = 0#64)

/-! ### Reset and the control commands -/

/-- R45: every element of the state after hardware reset and after SOFT_RESET, whatever the state before, and in the state
State.reset; R151: STATUS and the derived registers then read 0. -/
def Obligations.ResetValues : Prop :=
  ∀ t : State,
    (t = State.reset ∨ (∃ s, exec .softReset s = .next t) ∨
      (∃ s rest, s.host.pending = .hardwareReset :: rest ∧ step s = .next t)) →
    (∀ x, (bankGet t.codec.cnt x).toNat = x.toNat) ∧ t.codec.mode = .idle ∧ t.codec.pos = 0#64 ∧
    (∀ a b, countAt t.stat.n a b = 0#64) ∧ t.stat.m = 0#64 ∧ t.stat.mode = .idle ∧ t.stat.havePrev = false ∧
    t.stat.prev = 0#4 ∧ t.stat.h.joint = 0#64 ∧ t.stat.h.prev = 0#64 ∧ t.stat.h.cond = 0#64 ∧
    t.stat.h.perBit = 0#64 ∧ t.stat.h.rel = 0#64 ∧
    t.join.active = false ∧ t.join.halfValid = false ∧ t.join.half = 0#4 ∧ t.join.cnt = 0#64 ∧
    t.port.dataIn = 0#64 ∧ t.port.dataOut0 = 0#64 ∧ t.port.dataOut1 = 0#64 ∧
    t.err.err = false ∧ t.err.code = .none ∧ t.err.opc = 0#8 ∧ t.err.value = 0#64 ∧ t.err.pos = 0#64 ∧
    readReg .status t = 0#64 ∧ readReg .statT t = 0#64 ∧
    ∀ a b, readReg (.rowSum a) t = 0#64 ∧ readReg (.pj a b) t = 0#64 ∧ readReg (.pc a b) t = 0#64

/-- R85: NOP leaves every register unchanged, in every state. -/
def Obligations.NopChangesNothing : Prop := ∀ s : State, exec .nop s = .next s

/-- R86, R150, R151: SOFT_RESET and the hardware reset give every element its reset value, in every state. -/
def Obligations.SoftResetEqualsHardwareReset : Prop :=
  ∀ s : State,
    exec .softReset s = .next { State.reset with host := s.host } ∧
    ∀ rest, s.host.pending = .hardwareReset :: rest →
      step s = .next { State.reset with host := { pending := rest, responses := s.host.responses } }

/-- R87, R139: ERR_CLEAR sets the five latch fields to 0 and changes nothing else, in every state. -/
def Obligations.ErrClearClearsOnlyTheLatch : Prop :=
  ∀ s : State, exec .errClear s = .next { s with
    err := { err := false, code := .none, opc := 0#8, value := 0#64, pos := 0#64 } }

/-! ### Errors -/

/-- R82: while ERR = 1 every command other than NOP, SOFT_RESET and ERR_CLEAR, legal or illegal, changes no state. -/
def Obligations.LatchedErrorBlocksCommands : Prop :=
  ∀ (s : State) (w : U64), s.err.err = true →
    (∀ i, i ≠ .nop → i ≠ .softReset → i ≠ .errClear → exec i s = .next s) ∧
    (decode w ≠ .ok .nop → decode w ≠ .ok .softReset → decode w ≠ .ok .errClear → executeWord w s = .next s)

/-- R83, R137: a command word that raises an error changes the error latch and nothing else. -/
def Obligations.FailingCommandWritesOnlyTheLatch : Prop :=
  ∀ (w : U64) (s t : State), s.err.err = false → executeWord w s = .next t → t.err.err = true →
    t = { s with err := t.err } ∧ t.err.opc = w.setWidth 8

/-- R134: which command word raises which error, its cause, and what the latch records; ERR_OPC is `w[7:0]`. -/
def Obligations.ErrorLatchRecordsTheTable : Prop :=
  ∀ (w : U64) (s t : State), s.err.err = false → executeWord w s = .next t → t.err.err = true →
    t.err.opc = w.setWidth 8 ∧
    match t.err.code with
    | .none => False
    | .corruptStream => decode w = .ok .decVal ∧ (∀ x, bankGet s.codec.cnt x ≠ s.port.dataIn) ∧
        t.err.value = s.port.dataIn ∧ t.err.pos = s.codec.pos
    | .invalidLength => decode w = .ok .joinEnd ∧ s.join.halfValid = true ∧
        t.err.value = s.join.half.setWidth 64 ∧ t.err.pos = s.join.cnt
    | .illegalCommand => legal w = false ∧ t.err.value = w ∧ t.err.pos = 0#64
    | .sequence => (∃ i, decode w = .ok i ∧ ¬ ModeAccepts i s) ∧ t.err.value = w ∧ t.err.pos = 0#64
    | .lengthOverflow => t.err.value = w ∧
        ∃ i, decode w = .ok i ∧ PassesLimit i s ∧ t.err.pos = (stepsAndCount i s).2

/-- R81 step 3, R134: a legal command given in a mode that does not accept it raises SEQUENCE, whatever else is wrong with
it (R136). -/
def Obligations.WrongModeRaisesSequence : Prop :=
  ∀ (i : Instr) (s : State), s.err.err = false → ¬ ModeAccepts i s →
    exec i s = .next { s with
      err := { err := true, code := .sequence, opc := opcode i, value := encode i, pos := 0#64 } }

/-- R81 step 4, R101, R134: a command whose steps would pass LEN_LIMIT raises LENGTH_OVERFLOW with the unit's count and does
nothing else, whatever its data (R136). -/
def Obligations.PassingTheLimitRaisesLengthOverflow : Prop :=
  ∀ (i : Instr) (s : State), s.err.err = false → ModeAccepts i s → PassesLimit i s →
    exec i s = .next { s with
      err := { err := true, code := .lengthOverflow, opc := opcode i, value := encode i, pos := (stepsAndCount i s).2 } }

/-- R21, R39, R40, R43, R130, R139: each part of the state changes only by its own inputs. An access that changes a unit is the
write of a command of that unit or of SOFT_RESET to CMD; one that changes DATA_IN is a write of DATA_IN or SOFT_RESET; one
that changes a latched error is ERR_CLEAR or SOFT_RESET; one that changes DATA_OUT0 or DATA_OUT1 is SOFT_RESET or a
command whose rule names that register (R40). -/
def Obligations.EachPartChangesOnlyByItsOwnInputs : Prop :=
  ∀ (a : BusAccess) (s t : State) (r : BusResponse), busAccess a s = .next (r, t) →
    t = s ∨
    (∃ v, a = .write 0x0018#13 8 v ∧ t = { s with port := { s.port with dataIn := v } }) ∨
    (∃ w, a = .write 0x0010#13 8 w ∧ legal w = false ∧ s.err.err = false ∧ t = { s with err := t.err }) ∨
    ∃ w i, a = .write 0x0010#13 8 w ∧ decode w = .ok i ∧ t.host = s.host ∧
      (t.codec ≠ s.codec → i = .softReset ∨ unitOf i = .codec) ∧
      (t.stat ≠ s.stat → i = .softReset ∨ unitOf i = .statistics) ∧
      (t.join ≠ s.join → i = .softReset ∨ unitOf i = .conversion) ∧
      (t.port.dataIn ≠ s.port.dataIn → i = .softReset) ∧
      (t.port.dataOut0 ≠ s.port.dataOut0 → i = .softReset ∨ i = .decVal ∨ (∃ x, i = .encSym x ∨ i = .joinSym x) ∨
        ∃ b, i = .encByte b ∨ i = .split b) ∧
      (t.port.dataOut1 ≠ s.port.dataOut1 → i = .softReset ∨ ∃ b, i = .encByte b ∨ i = .split b) ∧
      (s.err.err = true → t.err ≠ s.err → i = .softReset ∨ i = .errClear)

/-- R89: a command of one unit writes no other unit's state and not DATA_IN, and what it leaves of its unit, the port and
the latch depends on these alone. -/
def Obligations.UnitsAreIndependent : Prop :=
  ∀ (i : Instr) (s t : State), exec i s = .next t →
    (unitOf i = .codec → t.stat = s.stat ∧ t.join = s.join ∧ t.port.dataIn = s.port.dataIn ∧
      ∀ s' t', s'.codec = s.codec → s'.port = s.port → s'.err = s.err → exec i s' = .next t' →
        t'.codec = t.codec ∧ t'.port = t.port ∧ t'.err = t.err) ∧
    (unitOf i = .statistics → t.codec = s.codec ∧ t.join = s.join ∧ t.port.dataIn = s.port.dataIn ∧
      ∀ s' t', s'.stat = s.stat → s'.port = s.port → s'.err = s.err → exec i s' = .next t' →
        t'.stat = t.stat ∧ t'.port = t.port ∧ t'.err = t.err) ∧
    (unitOf i = .conversion → t.codec = s.codec ∧ t.stat = s.stat ∧ t.port.dataIn = s.port.dataIn ∧
      ∀ s' t', s'.join = s.join → s'.port = s.port → s'.err = s.err → exec i s' = .next t' →
        t'.join = t.join ∧ t'.port = t.port ∧ t'.err = t.err)

/-! ### The conversion unit -/

/-- R92: SPLIT writes the two symbols of its byte, the high one in DATA_OUT0, and nothing else. -/
def Obligations.SplitWritesBothSymbols : Prop :=
  ∀ (b : Byte) (s : State), s.err.err = false →
    ∃ t, exec (.split b) s = .next t ∧
      t = { s with port := { s.port with dataOut0 := t.port.dataOut0, dataOut1 := t.port.dataOut1 } } ∧
      t.port.dataOut0.toNat = b.toNat / 16 ∧ t.port.dataOut1.toNat = b.toNat % 16

/-- R93: JOIN_START opens a join with nothing held, in any join state, and changes nothing else. -/
def Obligations.JoinStartOpensAJoin : Prop :=
  ∀ s : State, s.err.err = false →
    exec .joinStart s = .next { s with join := { active := true, halfValid := false, half := 0#4, cnt := 0#64 } }

/-- R94: JOIN_SYM holds the first symbol of a pair and leaves DATA_OUT0; with the second it writes the byte; it counts the
symbol; nothing else changes. -/
def Obligations.JoinSymHoldsOrCompletes : Prop :=
  ∀ (x : Nibble) (s : State), s.err.err = false → s.join.active = true → s.join.cnt.toNat < 2 ^ 64 - 16 →
    ∃ t, exec (.joinSym x) s = .next t ∧
      t = { s with join := t.join, port := { s.port with dataOut0 := t.port.dataOut0 } } ∧
      t.join.active = true ∧ t.join.cnt.toNat = s.join.cnt.toNat + 1 ∧
      (s.join.halfValid = false →
        t.join.halfValid = true ∧ t.join.half = x ∧ t.port.dataOut0 = s.port.dataOut0) ∧
      (s.join.halfValid = true →
        t.join.halfValid = false ∧ t.join.half = 0#4 ∧
        t.port.dataOut0.toNat = s.join.half.toNat * 16 + x.toNat)

/-- R95: JOIN_END of an even join ends it and keeps JOIN_CNT; of an odd one it raises INVALID_LENGTH with the held symbol
and the count, and leaves the join as it was. -/
def Obligations.JoinEndChecksTheLength : Prop :=
  ∀ s : State, s.err.err = false → s.join.active = true →
    (s.join.halfValid = false → exec .joinEnd s = .next { s with join := { s.join with active := false } }) ∧
    (s.join.halfValid = true → exec .joinEnd s = .next { s with
      err := { err := true, code := .invalidLength, opc := 0x33#8, value := s.join.half.setWidth 64, pos := s.join.cnt } })

/-- R90, R91: the symbols of a byte buffer, high then low; the bytes of an even sequence, pair by pair; InvalidLength for an
odd one; and joining the symbols of a buffer gives the buffer back. -/
def Obligations.NibblesRoundTrip : Prop :=
  (∀ bytes : List Byte,
    (bytesToNibbles bytes).length = 2 * bytes.length ∧
    (∀ i b, bytes[i]? = some b →
      (bytesToNibbles bytes)[2 * i]? = some (b.extractLsb' 4 4) ∧
      (bytesToNibbles bytes)[2 * i + 1]? = some (b.extractLsb' 0 4)) ∧
    nibblesToBytes (bytesToNibbles bytes) = .ok bytes) ∧
  (∀ seq : List Nibble,
    (seq.length % 2 = 1 → nibblesToBytes seq = .error .invalidLength) ∧
    (seq.length % 2 = 0 → ∃ bytes, nibblesToBytes seq = .ok bytes ∧ 2 * bytes.length = seq.length ∧
      ∀ i hi lo, seq[2 * i]? = some hi → seq[2 * i + 1]? = some lo →
        bytes[i]?.map BitVec.toNat = some (hi.toNat * 16 + lo.toNat)))

/-- R96: SPLIT of each byte, with DATA_OUT0 and DATA_OUT1 read after each, gives exactly bytesToNibbles. -/
def Obligations.SplitRendersBytesToNibbles : Prop :=
  ∀ (bytes : List Byte) (s : State), NoError s →
    ∃ t, hostRun ((splitAccesses bytes).map .access) s = .next t ∧ NoError t ∧
      (t.host.responses.drop s.host.responses.length).filterMap
        (fun r => match r with | .data v => some v | .ok => none | .busError => none) =
      (bytesToNibbles bytes).map fun x => x.setWidth 64

/-- R97: a join of an even sequence succeeds and delivers exactly its bytes; of an odd one, JOIN_END raises
INVALID_LENGTH with the last symbol and the length, and the whole latch is as R135 writes it. -/
def Obligations.JoinRendersNibblesToBytes : Prop :=
  ∀ (seq : List Nibble) (s : State), NoError s → seq.length ≤ 2 ^ 64 - 16 →
    ∃ t, hostRun ((joinAccesses seq).map .access) s = .next t ∧
      (∀ bytes, nibblesToBytes seq = .ok bytes → NoError t ∧ t.join.active = false ∧
        t.host.responses = s.host.responses ++ [.ok] ++
          (bytes.flatMap fun b => [.ok, .ok, .data (b.setWidth 64)]) ++ [.ok]) ∧
      (seq.length % 2 = 1 → ∃ x, seq.getLast? = some x ∧
        t.err = { err := true, code := .invalidLength, opc := 0x33#8, value := x.setWidth 64,
                  pos := BitVec.ofNat 64 seq.length })

/-! ### The codec unit -/

/-- R103, R106: ENC_START and DEC_START give every counter its initial value, select the mode and set the position to 0, in
every mode; nothing else changes. -/
def Obligations.CodecStartsInitialise : Prop :=
  ∀ s : State, s.err.err = false →
    ∃ t u, exec .encStart s = .next t ∧ exec .decStart s = .next u ∧
      t = { s with codec := t.codec } ∧ t.codec.mode = .enc ∧ t.codec.pos = 0#64 ∧
      (∀ x, (bankGet t.codec.cnt x).toNat = x.toNat) ∧
      u = { s with codec := u.codec } ∧ u.codec.mode = .dec ∧ u.codec.pos = 0#64 ∧
      (∀ x, (bankGet u.codec.cnt x).toNat = x.toNat)

/-- R100: one update increments every counter exactly and zeroes the chosen one; the others keep their order. -/
def Obligations.CounterUpdateAgesAllAndZeroesOne : Prop :=
  ∀ (c : Counters) (x : Nibble), (∀ y, (bankGet c y).toNat + 1 < 2 ^ 64) →
    bankGet (updateCounters c x) x = 0#64 ∧
    (∀ y, y ≠ x → (bankGet (updateCounters c x) y).toNat = (bankGet c y).toNat + 1) ∧
    (∀ y z, y ≠ x → z ≠ x →
      ((bankGet (updateCounters c x) y).toNat < (bankGet (updateCounters c x) z).toNat ↔
        (bankGet c y).toNat < (bankGet c z).toNat))

/-- R104: ENC_SYM emits the symbol's counter in DATA_OUT0, updates the counters and counts the symbol; nothing else
changes. -/
def Obligations.EncSymEmitsAndUpdates : Prop :=
  ∀ (x : Nibble) (s : State), s.err.err = false → s.codec.mode = .enc → s.codec.pos.toNat < 2 ^ 64 - 16 →
    ∃ t, exec (.encSym x) s = .next t ∧
      t = { s with codec := t.codec, port := { s.port with dataOut0 := t.port.dataOut0 } } ∧
      t.port.dataOut0 = bankGet s.codec.cnt x ∧ t.codec.mode = .enc ∧
      t.codec.pos.toNat = s.codec.pos.toNat + 1 ∧
      bankGet t.codec.cnt x = 0#64 ∧ ∀ y, y ≠ x → bankGet t.codec.cnt y = bankGet s.codec.cnt y + 1#64

/-- R105: ENC_BYTE is ENC_SYM of the high symbol then of the low one, as one command, with the first code in DATA_OUT0 and
the second in DATA_OUT1. -/
def Obligations.EncByteIsTwoEncSyms : Prop :=
  ∀ (b : Byte) (s : State), s.err.err = false → s.codec.mode = .enc → s.codec.pos.toNat ≤ 2 ^ 64 - 18 →
    ∃ t u v, exec (.encByte b) s = .next t ∧
      exec (.encSym (b.extractLsb' 4 4)) s = .next u ∧ exec (.encSym (b.extractLsb' 0 4)) u = .next v ∧
      t = { s with
        codec := v.codec
        port := { s.port with dataOut0 := u.port.dataOut0, dataOut1 := v.port.dataOut0 } } ∧
      t.codec.pos.toNat = s.codec.pos.toNat + 2

/-- R107, R108: DEC_VAL emits the smallest symbol whose counter holds DATA_IN, updates the counters and counts the value;
when no counter holds it, it raises CORRUPT_STREAM with the value and its position. -/
def Obligations.DecValFindsTheSymbol : Prop :=
  ∀ s : State, s.err.err = false → s.codec.mode = .dec → s.codec.pos.toNat < 2 ^ 64 - 16 →
    (∀ x, bankGet s.codec.cnt x = s.port.dataIn → (∀ y, bankGet s.codec.cnt y = s.port.dataIn → x.toNat ≤ y.toNat) →
      ∃ t, exec .decVal s = .next t ∧
        t = { s with codec := t.codec, port := { s.port with dataOut0 := x.setWidth 64 } } ∧
        t.codec.mode = .dec ∧ t.codec.pos.toNat = s.codec.pos.toNat + 1 ∧
        bankGet t.codec.cnt x = 0#64 ∧ ∀ y, y ≠ x → bankGet t.codec.cnt y = bankGet s.codec.cnt y + 1#64) ∧
    ((∀ x, bankGet s.codec.cnt x ≠ s.port.dataIn) →
      exec .decVal s = .next { s with
        err := { err := true, code := .corruptStream, opc := 0x19#8, value := s.port.dataIn, pos := s.codec.pos } })

/-- R101: where the invariant holds, no counter wraps in a step below the limit. -/
def Obligations.NoCounterWraps : Prop :=
  ∀ s : State, MachineInv s →
    (s.codec.pos.toNat < 2 ^ 64 - 16 → ∀ x, (bankGet s.codec.cnt x).toNat + 1 < 2 ^ 64) ∧
    (s.stat.m.toNat < 2 ^ 64 - 16 → ∀ a b, (countAt s.stat.n a b).toNat + 1 < 2 ^ 64)

/-- R102: after ENC_START and the symbols of a sequence, the counter of a symbol that occurs is the distance from its last
occurrence, and that of one that does not is its initial value plus the position. -/
def Obligations.CounterClosedForm : Prop :=
  ∀ (seq : List Nibble) (s : State), NoError s → seq.length ≤ 2 ^ 64 - 16 →
    ∃ t, hostRun (hostProgram (encodeProgram seq)) s = .next t ∧ t.codec.pos.toNat = seq.length ∧
      ∀ x : Nibble,
        (x ∉ seq → (bankGet t.codec.cnt x).toNat = x.toNat + seq.length) ∧
        (∀ j, seq[j]? = some x → (∀ k, j < k → seq[k]? ≠ some x) →
          (bankGet t.codec.cnt x).toNat = seq.length - 1 - j)

/-- R98, R109: ENC_START and one ENC_SYM per symbol, with DATA_OUT0 read after each, yield exactly encode of the sequence;
no error occurs. -/
def Obligations.EncodeCommandsRenderEncode : Prop :=
  ∀ (seq : List Nibble) (s : State), NoError s → seq.length ≤ 2 ^ 64 - 16 →
    (∀ v ∈ sourceEncode seq, v < 2 ^ 64) ∧
    ∃ t, hostRun (hostProgram (encodeProgram seq)) s = .next t ∧ NoError t ∧
      t.host.responses = s.host.responses ++ [.ok] ++
        (sourceEncode seq).flatMap fun v => [.ok, .data (BitVec.ofNat 64 v)]

/-- R99, R110: DEC_START and, for each value, a write of DATA_IN, DEC_VAL and a read of DATA_OUT0, yield exactly decode of
the values when it succeeds; when it fails at position i, the latch records the value and i, the values read before are the
first i symbols, and the rest is ignored. -/
def Obligations.DecodeCommandsRenderDecode : Prop :=
  ∀ (words : List U64) (s : State), NoError s → words.length ≤ 2 ^ 64 - 16 →
    ∃ t, hostRun (hostProgram (decodeProgram words)) s = .next t ∧
      (∀ seq, sourceDecode (words.map BitVec.toNat) = .ok seq → NoError t ∧
        t.host.responses = s.host.responses ++ [.ok] ++ seq.flatMap fun x => [.ok, .ok, .data (x.setWidth 64)]) ∧
      (∀ v i, sourceDecode (words.map BitVec.toNat) = .error (.corruptStream v i) →
        t.err = { err := true, code := .corruptStream, opc := 0x19#8, value := BitVec.ofNat 64 v, pos := BitVec.ofNat 64 i } ∧
        t.codec.pos = BitVec.ofNat 64 i ∧
        ∃ seq later, sourceDecode ((words.map BitVec.toNat).take i) = .ok seq ∧ seq.length = i ∧
          t.host.responses = s.host.responses ++ [.ok] ++ (seq.flatMap fun x => [.ok, .ok, .data (x.setWidth 64)]) ++ later)

/-- R111: decode is the exact inverse of encode for every sequence, and after any prefix of the steps the 16 counters are
pairwise distinct. -/
def Obligations.DecodeInvertsEncode : Prop :=
  ∀ seq : List Nibble, sourceDecode (sourceEncode seq) = .ok seq ∧ (sourceEncode seq).length = seq.length ∧
    ∀ (k : Nat) (a b : Nibble),
      (seq.take k).foldl sourceUpdate sourceInit a = (seq.take k).foldl sourceUpdate sourceInit b → a = b

/-- R29: in every state that a run of any inputs reaches from reset, the 16 counters are pairwise distinct and at most
15 + CODEC_POS. -/
def Obligations.CountersStayDistinctOnEveryRun : Prop :=
  ∀ (inputs : List HostInput) (t : State), hostRun inputs State.reset = .next t →
    (∀ a b, bankGet t.codec.cnt a = bankGet t.codec.cnt b → a = b) ∧
    (∀ x, (bankGet t.codec.cnt x).toNat ≤ 15 + t.codec.pos.toNat)

/-! ### The statistics unit -/

/-- R118: STAT_START clears the counts, the previous symbol and the entropy registers and starts accumulating, in every
mode; nothing else changes. -/
def Obligations.StatStartClearsTheTables : Prop :=
  ∀ s : State, s.err.err = false →
    ∃ t, exec .statStart s = .next t ∧ t = { s with stat := t.stat } ∧ t.stat.mode = .accum ∧
      (∀ a b, countAt t.stat.n a b = 0#64) ∧ t.stat.m = 0#64 ∧ t.stat.havePrev = false ∧ t.stat.prev = 0#4 ∧
      t.stat.h = { joint := 0#64, prev := 0#64, cond := 0#64, perBit := 0#64, rel := 0#64 }

/-- R119, R120: STAT_SYM counts the pair of the previous symbol and this one, if there is a previous symbol, and no other
pair; it keeps the symbol and counts it; nothing else changes. -/
def Obligations.StatSymCountsThePair : Prop :=
  ∀ (x : Nibble) (s : State), s.err.err = false → s.stat.mode = .accum → s.stat.m.toNat < 2 ^ 64 - 16 →
    ∃ t, exec (.statSym x) s = .next t ∧ t = { s with stat := t.stat } ∧ t.stat.mode = .accum ∧
      t.stat.m.toNat = s.stat.m.toNat + 1 ∧ t.stat.havePrev = true ∧ t.stat.prev = x ∧ t.stat.h = s.stat.h ∧
      ∀ a b, countAt t.stat.n a b =
        if s.stat.havePrev = true ∧ a = s.stat.prev ∧ b = x then countAt s.stat.n a b + 1#64 else countAt s.stat.n a b

/-- R121: STAT_BYTE is STAT_SYM of the high symbol then of the low one, as one command. -/
def Obligations.StatByteIsTwoStatSyms : Prop :=
  ∀ (b : Byte) (s : State), s.err.err = false → s.stat.mode = .accum → s.stat.m.toNat ≤ 2 ^ 64 - 18 →
    ∃ t u, exec (.statByte b) s = .next t ∧ exec (.statSym (b.extractLsb' 4 4)) s = .next u ∧
      exec (.statSym (b.extractLsb' 0 4)) u = .next t ∧ t.stat.m.toNat = s.stat.m.toNat + 2 ∧
      t = { s with stat := t.stat }

/-- R122, R125: STAT_FINISH writes the five entropy registers from ENTROPY_FN of the counts and enters DONE; nothing else
changes. H_PERBIT, and H_REL with it, is the correctly rounded quarter of H_COND. -/
def Obligations.StatFinishComputesTheEntropies : Prop :=
  ∀ s : State, s.err.err = false → s.stat.mode = .accum →
    ∃ t, exec .statFinish s = .next t ∧
      t = { s with stat := { s.stat with h := t.stat.h, mode := .done } } ∧
      (t.stat.h.joint, t.stat.h.prev) = entropyFn s.stat.n ∧
      t.stat.h.cond = nn (f64Sub t.stat.h.joint t.stat.h.prev) ∧
      t.stat.h.perBit = f64Mul t.stat.h.cond 0x3FD0000000000000#64 ∧ t.stat.h.rel = t.stat.h.perBit ∧
      NearestEven (f64Real t.stat.h.cond / 4) t.stat.h.perBit

/-- R123: ENTROPY_FN satisfies the law EntropyAccurate(EPS_H), whatever values it takes. -/
def Obligations.EntropyFunctionIsAccurate : Prop := EntropyAccurate (f64Real epsH) entropyFn

/-- R117: the bounds of the exact entropies of every count matrix. -/
def Obligations.ExactEntropyBounds : Prop :=
  ∀ n : CountMatrix,
    0 ≤ exactPrev n ∧ exactPrev n ≤ 4 ∧ 0 ≤ exactJoint n ∧ exactJoint n ≤ 8 ∧ 0 ≤ exactCond n ∧ exactCond n ≤ 4

/-- R124: H_COND is within 2·EPS_H + 2^-50 of HC*, for every count matrix. -/
def Obligations.ConditionalEntropyWithinTolerance : Prop :=
  ∀ n : CountMatrix, |f64Real (finishEntropies n).cond - exactCond n| ≤ 2 * f64Real epsH + 1 / 2 ^ 50

/-- R132: no entropy register that STAT_FINISH writes and no probability register holds a NaN, an infinity, a negative value
or -0.0. -/
def Obligations.FloatRegistersStayNonnegativeAndFinite : Prop :=
  ∀ (s : State) (a b : Nibble), MachineInv s →
    ∀ r ∈ [Reg.hJoint, .hPrev, .hCond, .hPerBit, .hRel, .pj a b, .pc a b], (readReg r s).toNat < 0x7FF0000000000000

/-- R126: STAT_FINISH with at most one symbol accumulated writes +0.0 in all five entropy registers, and every table
register reads 0. -/
def Obligations.DegenerateStatisticsAreZero : Prop :=
  ∀ s : State, MachineInv s → s.err.err = false → s.stat.mode = .accum → s.stat.m.toNat ≤ 1 →
    ∃ t, exec .statFinish s = .next t ∧
      (∀ r ∈ [Reg.hJoint, .hPrev, .hCond, .hPerBit, .hRel, .statT], readReg r t = 0#64) ∧
      ∀ a b, readReg (.n a b) t = 0#64 ∧ readReg (.rowSum a) t = 0#64 ∧ readReg (.pj a b) t = 0#64 ∧
        readReg (.pc a b) t = 0#64

/-- R114, R115, R131: STAT_START, one STAT_SYM per symbol and STAT_FINISH leave the counts of the sequence's adjacent pairs,
T = max(M - 1, 0), the row sums and the probabilities of these counts (R128, R129), and entropy registers related to the
exact entropies by R123 to R125; no error occurs. -/
def Obligations.StatisticsCommandsRenderTheEngine : Prop :=
  ∀ (seq : List Nibble) (s : State), NoError s → seq.length ≤ 2 ^ 64 - 16 →
    ∃ t, hostRun (hostProgram (statProgram seq)) s = .next t ∧ NoError t ∧ t.stat.mode = .done ∧
      (∀ a b, (readReg (.n a b) t).toNat = pairCount seq a b) ∧ (readReg .statM t).toNat = seq.length ∧
      (readReg .statT t).toNat = seq.length - 1 ∧
      (∀ a b,
        let row := (allSymbols.map fun c => pairCount seq a c).sum
        (readReg (.rowSum a) t).toNat = row ∧
        (2 ≤ seq.length →
          NearestEven ((pairCount seq a b : ℝ) / ((seq.length - 1 : Nat) : ℝ)) (readReg (.pj a b) t)) ∧
        (seq.length < 2 → readReg (.pj a b) t = 0#64) ∧
        (row ≠ 0 → NearestEven ((pairCount seq a b : ℝ) / (row : ℝ)) (readReg (.pc a b) t)) ∧
        (row = 0 → readReg (.pc a b) t = 0#64)) ∧
      t.stat.h = finishEntropies t.stat.n ∧
      |f64Real (readReg .hJoint t) - exactJoint t.stat.n| ≤ f64Real epsH ∧
      |f64Real (readReg .hPrev t) - exactPrev t.stat.n| ≤ f64Real epsH ∧
      |f64Real (readReg .hCond t) - exactCond t.stat.n| ≤ 2 * f64Real epsH + 1 / 2 ^ 50

/-! ### The archive -/

/-- R62, R63, R64: an archive has 8 bytes per symbol, and unpacking it under the same byte order gives the sequence back.
R66: from a state without an error the host's realisations give what the functions give: pack with one ENC_SYM per symbol,
and with one ENC_BYTE per byte, and unpack with its checks before any command and STATUS read after each word. -/
def Obligations.ArchiveRoundTrip : Prop :=
  ∀ order : ByteOrder,
    (∀ (path : String) (seq : List Nibble), seq.length ≤ 2 ^ 64 - 16 →
      unpack order path (pack order seq) = .ok seq ∧ (pack order seq).length = 8 * seq.length) ∧
    (∀ (seq : List Nibble) (s : State), NoError s → seq.length ≤ 2 ^ 64 - 16 →
      ∃ t, hostPack order (encodeProgram seq) s = .next (.ok (pack order seq), t) ∧ NoError t) ∧
    (∀ (bytes : List Byte) (s : State), NoError s → 2 * bytes.length ≤ 2 ^ 64 - 16 →
      ∃ t, hostPack order (encodeBytesProgram bytes) s = .next (.ok (pack order (bytesToNibbles bytes)), t) ∧ NoError t) ∧
    (∀ (path : String) (file : List Byte) (s : State), NoError s → file.length ≤ 8 * (2 ^ 64 - 16) →
      ∃ t, hostUnpack order path file s = .next ((unpack order path file).mapError .source, t) ∧
        (file = [] ∨ file.length % 8 ≠ 0 → t = s))

/-- R64, R65: a zero-byte file yields the empty sequence; a file whose length is not a multiple of 8 fails with IOError
carrying the path; every other file is decoded as its 8-byte words under the byte order. -/
def Obligations.UnpackReadsWordsOrRefuses : Prop :=
  ∀ (order : ByteOrder) (path : String) (file : List Byte),
    (file = [] → unpack order path file = .ok []) ∧
    (file.length % 8 ≠ 0 → unpack order path file = .error (.ioError path)) ∧
    (file.length % 8 = 0 → ∃ words : List Nat, unpack order path file = sourceDecode words ∧
      8 * words.length = file.length ∧
      ∀ i, i < words.length → words[i]? = some (((List.range 8).map fun j =>
        (file.getD (8 * i + j) 0).toNat * byteWeight order j).sum))

/-! ### The invariant -/

/-- R45: the state after reset satisfies the invariant. -/
def Obligations.ResetSatisfiesTheInvariant : Prop := MachineInv State.reset

/-- R17, R21, R23 to R25, R29, R32, R36: every step from a state of the invariant, reached or not, gives one of the
invariant. -/
def Obligations.StepKeepsTheInvariant : Prop := ∀ s t : State, MachineInv s → step s = .next t → MachineInv t
end

