-- ==== Sys2Proof/Laws/Bank.lean ====
section
/-! SUPPORT. What reading a bank gives: after bankOf, after bankSet, and that two banks that read alike are equal. -/

namespace Sys2Proof

theorem mem_allSymbols (s : Nibble) : s ∈ allSymbols := by
  revert s; decide

theorem nodup_allSymbols : allSymbols.Nodup := by decide

@[simp] theorem bankGet_bankOf {α : Type} (f : Nibble → α) (s : Nibble) : bankGet (bankOf f) s = f s := by
  obtain ⟨⟨k, hk⟩⟩ := s
  change k < 16 at hk
  interval_cases k <;> rfl

theorem bankGet_bankSet {α : Type} (v : Bank α) (s t : Nibble) (x : α) :
    bankGet (bankSet v s x) t = if t = s then x else bankGet v t := by
  have hst : (s.toNat = t.toNat) ↔ t = s := by rw [← BitVec.toNat_inj]; exact eq_comm
  simp only [bankGet, bankSet, Vector.get_eq_getElem, Vector.getElem_set]
  by_cases h : t = s
  · subst h; simp
  · have : ¬ s.toNat = t.toNat := fun e => h (hst.mp e)
    simp [h, this]

@[simp] theorem bankGet_bankSet_self {α : Type} (v : Bank α) (s : Nibble) (x : α) : bankGet (bankSet v s x) s = x := by
  simp [bankGet_bankSet]

theorem bank_ext {α : Type} (v w : Bank α) (h : ∀ s, bankGet v s = bankGet w s) : v = w := by
  ext i hi
  simpa [bankGet, Vector.get_eq_getElem] using h ⟨⟨i, hi⟩⟩

end Sys2Proof
end

