-- ==== Sys2Proof/Laws/State.lean ====
section
/-! SUPPORT. Each field of the state after each update of Machine/Ops.lean, so that no proof unfolds a record update. -/

namespace Sys2Proof.Machine

@[simp] theorem raise_codec (code : ErrCode) (w value pos : U64) (s : State) :
    (raise code w value pos s).codec = s.codec := rfl
@[simp] theorem raise_stat (code : ErrCode) (w value pos : U64) (s : State) :
    (raise code w value pos s).stat = s.stat := rfl
@[simp] theorem raise_join (code : ErrCode) (w value pos : U64) (s : State) :
    (raise code w value pos s).join = s.join := rfl
@[simp] theorem raise_port (code : ErrCode) (w value pos : U64) (s : State) :
    (raise code w value pos s).port = s.port := rfl
@[simp] theorem raise_err (code : ErrCode) (w value pos : U64) (s : State) :
    (raise code w value pos s).err = { err := true, code := code, opc := opcField w, value := value, pos := pos } := rfl
@[simp] theorem raise_host (code : ErrCode) (w value pos : U64) (s : State) :
    (raise code w value pos s).host = s.host := rfl

@[simp] theorem clearError_codec (s : State) : (clearError s).codec = s.codec := rfl
@[simp] theorem clearError_stat (s : State) : (clearError s).stat = s.stat := rfl
@[simp] theorem clearError_join (s : State) : (clearError s).join = s.join := rfl
@[simp] theorem clearError_port (s : State) : (clearError s).port = s.port := rfl
@[simp] theorem clearError_err (s : State) : (clearError s).err = clearLatch := rfl
@[simp] theorem clearError_host (s : State) : (clearError s).host = s.host := rfl

@[simp] theorem resetBlock_codec (s : State) : (resetBlock s).codec = State.reset.codec := rfl
@[simp] theorem resetBlock_stat (s : State) : (resetBlock s).stat = State.reset.stat := rfl
@[simp] theorem resetBlock_join (s : State) : (resetBlock s).join = State.reset.join := rfl
@[simp] theorem resetBlock_port (s : State) : (resetBlock s).port = State.reset.port := rfl
@[simp] theorem resetBlock_err (s : State) : (resetBlock s).err = State.reset.err := rfl
@[simp] theorem resetBlock_host (s : State) : (resetBlock s).host = s.host := rfl

@[simp] theorem setOut0_codec (v : U64) (s : State) : (setOut0 v s).codec = s.codec := rfl
@[simp] theorem setOut0_stat (v : U64) (s : State) : (setOut0 v s).stat = s.stat := rfl
@[simp] theorem setOut0_join (v : U64) (s : State) : (setOut0 v s).join = s.join := rfl
@[simp] theorem setOut0_port (v : U64) (s : State) : (setOut0 v s).port = { s.port with dataOut0 := v } := rfl
@[simp] theorem setOut0_err (v : U64) (s : State) : (setOut0 v s).err = s.err := rfl
@[simp] theorem setOut0_host (v : U64) (s : State) : (setOut0 v s).host = s.host := rfl

@[simp] theorem setOut1_codec (v : U64) (s : State) : (setOut1 v s).codec = s.codec := rfl
@[simp] theorem setOut1_stat (v : U64) (s : State) : (setOut1 v s).stat = s.stat := rfl
@[simp] theorem setOut1_join (v : U64) (s : State) : (setOut1 v s).join = s.join := rfl
@[simp] theorem setOut1_port (v : U64) (s : State) : (setOut1 v s).port = { s.port with dataOut1 := v } := rfl
@[simp] theorem setOut1_err (v : U64) (s : State) : (setOut1 v s).err = s.err := rfl
@[simp] theorem setOut1_host (v : U64) (s : State) : (setOut1 v s).host = s.host := rfl

@[simp] theorem setDataIn_codec (v : U64) (s : State) : (setDataIn v s).codec = s.codec := rfl
@[simp] theorem setDataIn_stat (v : U64) (s : State) : (setDataIn v s).stat = s.stat := rfl
@[simp] theorem setDataIn_join (v : U64) (s : State) : (setDataIn v s).join = s.join := rfl
@[simp] theorem setDataIn_port (v : U64) (s : State) : (setDataIn v s).port = { s.port with dataIn := v } := rfl
@[simp] theorem setDataIn_err (v : U64) (s : State) : (setDataIn v s).err = s.err := rfl
@[simp] theorem setDataIn_host (v : U64) (s : State) : (setDataIn v s).host = s.host := rfl

@[simp] theorem setPending_codec (p : List HostInput) (s : State) : (setPending p s).codec = s.codec := rfl
@[simp] theorem setPending_stat (p : List HostInput) (s : State) : (setPending p s).stat = s.stat := rfl
@[simp] theorem setPending_join (p : List HostInput) (s : State) : (setPending p s).join = s.join := rfl
@[simp] theorem setPending_port (p : List HostInput) (s : State) : (setPending p s).port = s.port := rfl
@[simp] theorem setPending_err (p : List HostInput) (s : State) : (setPending p s).err = s.err := rfl
@[simp] theorem setPending_host (p : List HostInput) (s : State) :
    (setPending p s).host = { s.host with pending := p } := rfl

@[simp] theorem logResponse_codec (r : BusResponse) (s : State) : (logResponse r s).codec = s.codec := rfl
@[simp] theorem logResponse_stat (r : BusResponse) (s : State) : (logResponse r s).stat = s.stat := rfl
@[simp] theorem logResponse_join (r : BusResponse) (s : State) : (logResponse r s).join = s.join := rfl
@[simp] theorem logResponse_port (r : BusResponse) (s : State) : (logResponse r s).port = s.port := rfl
@[simp] theorem logResponse_err (r : BusResponse) (s : State) : (logResponse r s).err = s.err := rfl
@[simp] theorem logResponse_host (r : BusResponse) (s : State) :
    (logResponse r s).host = { s.host with responses := s.host.responses ++ [r] } := rfl

@[simp] theorem updateCounters_get (c : Counters) (s t : Nibble) :
    bankGet (updateCounters c s) t = if t = s then 0#64 else bankGet c t + 1#64 := by
  simp [updateCounters, bankGet_bankSet]

@[simp] theorem initialCounters_get (t : Nibble) : bankGet initialCounters t = t.setWidth 64 := by
  simp [initialCounters]

@[simp] theorem zeroCounts_at (a b : Nibble) : countAt zeroCounts a b = 0#64 := by
  simp [countAt, zeroCounts]

theorem bumpCount_at (n : CountMatrix) (a b x y : Nibble) :
    countAt (bumpCount n a b) x y = if x = a ∧ y = b then countAt n a b + 1#64 else countAt n x y := by
  unfold bumpCount countAt
  rw [bankGet_bankSet]
  by_cases hx : x = a
  · subst hx; simp [bankGet_bankSet]
  · simp [hx]

@[simp] theorem codecStep_cnt (u : CodecUnit) (s : Nibble) : (codecStep u s).cnt = updateCounters u.cnt s := rfl
@[simp] theorem codecStep_mode (u : CodecUnit) (s : Nibble) : (codecStep u s).mode = u.mode := rfl
@[simp] theorem codecStep_pos (u : CodecUnit) (s : Nibble) : (codecStep u s).pos = u.pos + 1#64 := rfl

@[simp] theorem accumulate_n (u : StatUnit) (s : Nibble) :
    (accumulate u s).n = if u.havePrev then bumpCount u.n u.prev s else u.n := rfl
@[simp] theorem accumulate_m (u : StatUnit) (s : Nibble) : (accumulate u s).m = u.m + 1#64 := rfl
@[simp] theorem accumulate_mode (u : StatUnit) (s : Nibble) : (accumulate u s).mode = u.mode := rfl
@[simp] theorem accumulate_havePrev (u : StatUnit) (s : Nibble) : (accumulate u s).havePrev = true := rfl
@[simp] theorem accumulate_prev (u : StatUnit) (s : Nibble) : (accumulate u s).prev = s := rfl
@[simp] theorem accumulate_h (u : StatUnit) (s : Nibble) : (accumulate u s).h = u.h := rfl

end Sys2Proof.Machine
end

