-- ==== Sys2Proof/Laws/Ops.lean ====
section
/-! SUPPORT. What each shared operation can do, said once: the dispatch of a command, the lookup of the decoder, the sums
of the count matrix under one increment, and the length checks. -/

namespace Sys2Proof.Machine

/-- Every way a dispatched command can end (R81): ignored, one of the three errors, or performed. -/
theorem dispatch_cases (w : U64) (c : Checks) (p : State → State) (s : State) :
    (s.err.err = true ∧ dispatch w c p s = .next s) ∨
    (s.err.err = false ∧ c.modeOk = false ∧ dispatch w c p s = .next (raise .sequence w w 0#64 s)) ∨
    (s.err.err = false ∧ c.modeOk = true ∧ c.lengthOk = false ∧
      dispatch w c p s = .next (raise .lengthOverflow w w c.unitCount s)) ∨
    (∃ e, s.err.err = false ∧ c.modeOk = true ∧ c.lengthOk = true ∧ c.dataError = some e ∧
      dispatch w c p s = .next (raise e.1 w e.2.1 e.2.2 s)) ∨
    (s.err.err = false ∧ c.modeOk = true ∧ c.lengthOk = true ∧ c.dataError = none ∧
      dispatch w c p s = .next (p s)) := by
  unfold dispatch
  cases he : s.err.err <;> cases hm : c.modeOk <;> cases hl : c.lengthOk <;> cases hd : c.dataError <;> simp

theorem dispatch_blocked {w : U64} {c : Checks} {p : State → State} {s : State} (h : s.err.err = true) :
    dispatch w c p s = .next s := by
  simp [dispatch, h]

theorem dispatch_mode {w : U64} {c : Checks} {p : State → State} {s : State} (h : s.err.err = false)
    (hm : c.modeOk = false) : dispatch w c p s = .next (raise .sequence w w 0#64 s) := by
  simp [dispatch, h, hm]

theorem dispatch_length {w : U64} {c : Checks} {p : State → State} {s : State} (h : s.err.err = false)
    (hm : c.modeOk = true) (hl : c.lengthOk = false) :
    dispatch w c p s = .next (raise .lengthOverflow w w c.unitCount s) := by
  simp [dispatch, h, hm, hl]

theorem dispatch_data {w : U64} {c : Checks} {p : State → State} {s : State} {e : ErrCode × U64 × U64}
    (h : s.err.err = false) (hm : c.modeOk = true) (hl : c.lengthOk = true) (hd : c.dataError = some e) :
    dispatch w c p s = .next (raise e.1 w e.2.1 e.2.2 s) := by
  simp [dispatch, h, hm, hl, hd]

theorem dispatch_perform {w : U64} {c : Checks} {p : State → State} {s : State} (h : s.err.err = false)
    (hm : c.modeOk = true) (hl : c.lengthOk = true) (hd : c.dataError = none) :
    dispatch w c p s = .next (p s) := by
  simp [dispatch, h, hm, hl, hd]

/-- A symbol that the lookup finds has the counter value (R107). -/
theorem lookup_some {c : Counters} {v : U64} {x : Nibble} (h : lookup c v = some x) : bankGet c x = v := by
  have hx : x ∈ matchSet c v := List.mem_of_head? h
  simpa [matchSet, mem_allSymbols] using hx

/-- The lookup finds nothing exactly when no counter holds the value (R107, R108). -/
theorem lookup_none {c : Counters} {v : U64} : lookup c v = none ↔ ∀ x, bankGet c x ≠ v := by
  simp [lookup, matchSet, mem_allSymbols]

/-- Where the counters are distinct, the lookup finds the one symbol whose counter holds the value (R99, R107). -/
theorem lookup_unique {c : Counters} (hc : ∀ a b, bankGet c a = bankGet c b → a = b) (x : Nibble) :
    lookup c (bankGet c x) = some x := by
  cases h : lookup c (bankGet c x) with
  | none => exact absurd rfl (lookup_none.mp h x)
  | some y => rw [hc y x (lookup_some h)]

theorem roomForOne_iff (count : U64) : roomForOne count = true ↔ count.toNat < Config.lenLimit.toNat := by
  simp [roomForOne, BitVec.lt_def]

theorem roomForTwo_iff (count : U64) : roomForTwo count = true ↔ count.toNat + 2 ≤ Config.lenLimit.toNat := by
  have h : (Config.lenLimit - 2#64).toNat = 0xFFFFFFFFFFFFFFEE := by decide
  have h' : Config.lenLimit.toNat = 0xFFFFFFFFFFFFFFF0 := by decide
  simp only [roomForTwo, BitVec.le_def, decide_eq_true_eq, h, h']
  omega

end Sys2Proof.Machine
end

