-- ==== Sys2Proof/Laws/Exec.lean ====
section
/-! SUPPORT. exec unfolded for each command: the command's word, its checks and what it performs, ready for the lemmas
about dispatch. -/

namespace Sys2Proof.Machine

theorem exec_nop (s : State) : exec .nop s = .next s := rfl

theorem exec_softReset (s : State) : exec .softReset s = .next (resetBlock s) := rfl

theorem exec_errClear (s : State) : exec .errClear s = .next (clearError s) := rfl

theorem exec_encStart (s : State) :
    exec .encStart s = dispatch (encode .encStart) {} (fun s => { s with codec := startCodec .enc }) s := rfl

theorem exec_encSym (x : Nibble) (s : State) :
    exec (.encSym x) s = dispatch (encode (.encSym x))
      { modeOk := s.codec.mode == .enc, lengthOk := roomForOne s.codec.pos, unitCount := s.codec.pos }
      (encodeSymbol x) s := rfl

theorem exec_encByte (b : Byte) (s : State) :
    exec (.encByte b) s = dispatch (encode (.encByte b))
      { modeOk := s.codec.mode == .enc, lengthOk := roomForTwo s.codec.pos, unitCount := s.codec.pos }
      (encodeByte b) s := rfl

theorem exec_decStart (s : State) :
    exec .decStart s = dispatch (encode .decStart) {} (fun s => { s with codec := startCodec .dec }) s := rfl

theorem exec_decVal (s : State) :
    exec .decVal s = dispatch (encode .decVal)
      { modeOk := s.codec.mode == .dec
        lengthOk := roomForOne s.codec.pos
        unitCount := s.codec.pos
        dataError :=
          if (lookup s.codec.cnt s.port.dataIn).isSome then none
          else some (.corruptStream, s.port.dataIn, s.codec.pos) }
      (fun s => match lookup s.codec.cnt s.port.dataIn with | some x => decodeSymbol x s | none => s) s := rfl

theorem exec_statStart (s : State) :
    exec .statStart s = dispatch (encode .statStart) {} (fun s => { s with stat := startStat }) s := rfl

theorem exec_statSym (x : Nibble) (s : State) :
    exec (.statSym x) s = dispatch (encode (.statSym x))
      { modeOk := s.stat.mode == .accum, lengthOk := roomForOne s.stat.m, unitCount := s.stat.m }
      (fun s => { s with stat := accumulate s.stat x }) s := rfl

theorem exec_statByte (b : Byte) (s : State) :
    exec (.statByte b) s = dispatch (encode (.statByte b))
      { modeOk := s.stat.mode == .accum, lengthOk := roomForTwo s.stat.m, unitCount := s.stat.m }
      (fun s => { s with stat := accumulate (accumulate s.stat (hiSymbol b)) (loSymbol b) }) s := rfl

theorem exec_statFinish (s : State) :
    exec .statFinish s = dispatch (encode .statFinish) { modeOk := s.stat.mode == .accum }
      (fun s => { s with stat := { s.stat with h := finishEntropies s.stat.n, mode := .done } }) s := rfl

theorem exec_split (b : Byte) (s : State) :
    exec (.split b) s = dispatch (encode (.split b)) {}
      (fun s => setOut1 (symbolWord (loSymbol b)) (setOut0 (symbolWord (hiSymbol b)) s)) s := rfl

theorem exec_joinStart (s : State) :
    exec .joinStart s = dispatch (encode .joinStart) {}
      (fun s => { s with join := { active := true, halfValid := false, half := 0#4, cnt := 0#64 } }) s := rfl

theorem exec_joinSym (x : Nibble) (s : State) :
    exec (.joinSym x) s = dispatch (encode (.joinSym x))
      { modeOk := s.join.active, lengthOk := roomForOne s.join.cnt, unitCount := s.join.cnt } (joinSymbol x) s := rfl

theorem exec_joinEnd (s : State) :
    exec .joinEnd s = dispatch (encode .joinEnd)
      { modeOk := s.join.active
        dataError := if s.join.halfValid then some (.invalidLength, symbolWord s.join.half, s.join.cnt) else none }
      (fun s => { s with join := { s.join with active := false } }) s := rfl

end Sys2Proof.Machine
end

