-- ==== Sys2Proof/Laws/Bus.lean ====
section
/-! SUPPORT. What one input of the host can do, said once: the three outcomes of a bus access, and the step on an idle
port, a reset and an access. -/

namespace Sys2Proof.Machine

theorem aligned_iff (off : Offset) : aligned off = true ↔ off.toNat % 8 = 0 := by
  simp only [aligned, beq_iff_eq, ← BitVec.toNat_inj]
  simp

theorem step_idle {s : State} (h : s.host.pending = []) : step s = .next s := by simp [step, hostStep, h]

theorem step_reset {s : State} {rest : List HostInput} (h : s.host.pending = .hardwareReset :: rest) :
    step s = .next (resetBlock (setPending rest s)) := by
  simp [step, hostStep, h]

/-- A bus access that is answered gives the next state with the response logged. -/
theorem step_access {s t : State} {a : BusAccess} {r : BusResponse} {rest : List HostInput}
    (h : s.host.pending = .access a :: rest) (ha : busAccess a (setPending rest s) = .next (r, t)) :
    step s = .next (logResponse r t) := by
  simp [step, hostStep, h, ha]

theorem step_access_fault {s : State} {a : BusAccess} {f : Fault} {rest : List HostInput}
    (h : s.host.pending = .access a :: rest) (ha : busAccess a (setPending rest s) = .fault f) :
    step s = .fault f := by
  simp [step, hostStep, h, ha]

/-- A read at an assigned offset (R50). -/
theorem busAccess_read {off : Offset} {r : Reg} (s : State) (ha : aligned off = true) (hr : regAt off = some r) :
    busAccess (.read off 8) s = .next (.data (readReg r s), s) := by
  simp [busAccess, BusAccess.wellFormed, ha, hr]

/-- A write of CMD whose word's execution gives a next state (R51 (b)). -/
theorem busAccess_cmd {w : U64} {s t : State} (h : executeWord w s = .next t) :
    busAccess (.write 0x0010#13 8 w) s = .next (.ok, t) := by
  have hr : regAt 0x0010#13 = some .cmd := by decide
  have ha : aligned 0x0010#13 = true := by decide
  simp [busAccess, BusAccess.wellFormed, ha, hr, writeReg, h, acknowledge]

/-- A write of DATA_IN (R51 (a)). -/
theorem busAccess_dataIn (v : U64) (s : State) : busAccess (.write 0x0018#13 8 v) s = .next (.ok, setDataIn v s) := by
  have hr : regAt 0x0018#13 = some .dataIn := by decide
  have ha : aligned 0x0018#13 = true := by decide
  simp [busAccess, BusAccess.wellFormed, ha, hr, writeReg]

theorem executeWord_ok {w : U64} {i : Instr} (s : State) (h : decode w = .ok i) : executeWord w s = exec i s := by
  simp [executeWord, h]

theorem executeWord_illegal {w : U64} {e : DecodeError} (s : State) (h : decode w = .error e) :
    executeWord w s = if s.err.err then .next s else .next (raise .illegalCommand w w 0#64 s) := by
  simp [executeWord, h]

/-- A run is the run of its first part, then of its second. -/
theorem hostRun_append (xs ys : List HostInput) (s t : State) (h : hostRun xs s = .next t) :
    hostRun (xs ++ ys) s = hostRun ys t := by
  induction xs generalizing s with
  | nil => simp only [hostRun] at h; cases h; rfl
  | cons x xs ih =>
    simp only [hostRun, List.cons_append] at h ⊢
    cases hr : respond x s with
    | next u => rw [hr] at h; exact ih u h
    | fault f => rw [hr] at h; cases h
    | refused r => rw [hr] at h; cases h

end Sys2Proof.Machine
end

