-- ==== Sys2Proof/Laws/Archive.lean ====
section
/-! SUPPORT. What the host's side of pack and unpack can do, said once (R66): the values of a run's reads, what follows an
outcome, and the test of a STATUS word. -/

namespace Sys2Proof.Machine

@[simp] theorem readValues_nil : readValues [] = [] := rfl

@[simp] theorem readValues_append (xs ys : List BusResponse) : readValues (xs ++ ys) = readValues xs ++ readValues ys := by
  simp [readValues]

@[simp] theorem readValues_data (v : U64) (rest : List BusResponse) :
    readValues (.data v :: rest) = v :: readValues rest := rfl

@[simp] theorem readValues_ok (rest : List BusResponse) : readValues (.ok :: rest) = readValues rest := rfl

@[simp] theorem readValues_busError (rest : List BusResponse) : readValues (.busError :: rest) = readValues rest := rfl

@[simp] theorem proceed_next {α β : Type} (x : α) (k : α → Host.Outcome β Fault Refusal) :
    proceed (.next x) k = k x := rfl

@[simp] theorem proceed_fault {α β : Type} (f : Fault) (k : α → Host.Outcome β Fault Refusal) :
    proceed (.fault f) k = .fault f := rfl

@[simp] theorem proceed_refused {α β : Type} (r : Refusal) (k : α → Host.Outcome β Fault Refusal) :
    proceed (.refused r) k = .refused r := rfl

/-- A continued outcome that is a next state came from one. -/
theorem proceed_eq_next {α β : Type} {o : Host.Outcome α Fault Refusal} {k : α → Host.Outcome β Fault Refusal} {y : β}
    (h : proceed o k = .next y) : ∃ x, o = .next x ∧ k x = .next y := by
  cases o with
  | next x => exact ⟨x, rfl, h⟩
  | fault f => cases h
  | refused r => cases h

/-- A run that adds the responses rs returns the values of their reads (R161). -/
theorem runReading_of_run {accesses : List BusAccess} {s t : State} {rs : List BusResponse}
    (h : hostRun (accesses.map .access) s = .next t) (hr : t.host.responses = s.host.responses ++ rs) :
    runReading accesses s = .next (readValues rs, t) := by
  simp [runReading, h, hr]

/-- With ERR = 0 the host goes on (R66, R140). -/
theorem checkStatus_clear {α : Type} {status : U64} {s : State}
    {goOn : Host.Outcome (Except HostError α × State) Fault Refusal} (h : status.extractLsb' 0 1 = 0#1) :
    checkStatus status s goOn = goOn := by
  simp [checkStatus, h]

/-- With ERR = 1 the result is the error of the latch (R140). -/
theorem checkStatus_set {α : Type} {status : U64} {s t : State} {latch : List U64}
    {goOn : Host.Outcome (Except HostError α × State) Fault Refusal} (h : status.extractLsb' 0 1 = 1#1)
    (hr : runReading [rd .errValue, rd .errPos] s = .next (latch, t)) :
    checkStatus status s goOn =
      .next (.error (latchError status (latch.getD 0 0#64) (latch.getD 1 0#64)), t) := by
  simp [checkStatus, h, hr]

end Sys2Proof.Machine
end

