-- ==== Sys2Proof/Laws/Counts.lean ====
section
/-! SUPPORT. The exact sums of the count matrix (R32, R33): of the zero matrix, and after one increment (R119). -/

namespace Sys2Proof.Machine

/-- A sum over a list without repeats, with one summand raised by one. -/
theorem sum_map_bump (l : List Nibble) (hl : l.Nodup) (b : Nibble) (hb : b ∈ l) (f g : Nibble → Nat)
    (hself : g b = f b + 1) (hother : ∀ y, y ≠ b → g y = f y) : (l.map g).sum = (l.map f).sum + 1 := by
  induction l with
  | nil => simp at hb
  | cons y l ih =>
    have hl' := List.nodup_cons.mp hl
    by_cases hy : y = b
    · subst hy
      have : l.map g = l.map f := List.map_congr_left fun z hz => hother z (by rintro rfl; exact hl'.1 hz)
      simp [this, hself]; omega
    · have hb' : b ∈ l := by simpa [Ne.symm hy] using hb
      simp [ih hl'.2 hb', hother y hy]; omega

theorem le_sum_map (l : List Nibble) (f : Nibble → Nat) (a : Nibble) (ha : a ∈ l) : f a ≤ (l.map f).sum :=
  List.le_sum_of_mem (List.mem_map_of_mem ha)

theorem countAt_le_rowTotal (n : CountMatrix) (a b : Nibble) : (countAt n a b).toNat ≤ rowTotal n a :=
  le_sum_map allSymbols (fun b => (countAt n a b).toNat) b (mem_allSymbols b)

theorem rowTotal_le_total (n : CountMatrix) (a : Nibble) : rowTotal n a ≤ total n :=
  le_sum_map allSymbols (rowTotal n) a (mem_allSymbols a)

theorem countAt_le_total (n : CountMatrix) (a b : Nibble) : (countAt n a b).toNat ≤ total n :=
  (countAt_le_rowTotal n a b).trans (rowTotal_le_total n a)

theorem rowTotal_bumpCount (n : CountMatrix) (a b x : Nibble) (h : (countAt n a b).toNat + 1 < 2 ^ 64) :
    rowTotal (bumpCount n a b) x = if x = a then rowTotal n a + 1 else rowTotal n x := by
  by_cases hx : x = a
  · subst hx
    rw [if_pos rfl]
    refine sum_map_bump allSymbols nodup_allSymbols b (mem_allSymbols b) _ _ ?_ ?_
    · simpa [bumpCount_at, BitVec.toNat_add] using h
    · intro y hy; simp [bumpCount_at, hy]
  · simp [rowTotal, bumpCount_at, hx]

/-- One exact increment adds one transition (R32, R119). -/
theorem total_bumpCount (n : CountMatrix) (a b : Nibble) (h : (countAt n a b).toNat + 1 < 2 ^ 64) :
    total (bumpCount n a b) = total n + 1 := by
  refine sum_map_bump allSymbols nodup_allSymbols a (mem_allSymbols a) _ _ ?_ ?_
  · simp [rowTotal_bumpCount n a b _ h]
  · intro y hy; simp [rowTotal_bumpCount n a b _ h, hy]

@[simp] theorem rowTotal_zeroCounts (a : Nibble) : rowTotal zeroCounts a = 0 := by simp [rowTotal]

@[simp] theorem total_zeroCounts : total zeroCounts = 0 := by simp [total]

theorem rowParts_sum (n : CountMatrix) : (rowParts n).sum = total n := rfl

theorem cellParts_sum (n : CountMatrix) : (cellParts n).sum = total n := by
  simp [cellParts, total, rowTotal, List.flatMap_def, List.sum_flatten]; rfl

end Sys2Proof.Machine
end

