-- ==== Sys2Proof/Laws/Decode.lean ====
section
/-! SUPPORT. The fields of a word as numbers, and those of an encoded command (R67, R72). -/

namespace Sys2Proof

theorem opcField_toNat (w : U64) : (opcField w).toNat = w.toNat % 256 := by simp [opcField]

theorem symField_toNat (w : U64) : (symField w).toNat = w.toNat / 256 % 16 := by
  simp [symField, Nat.shiftRight_eq_div_pow]

theorem byteField_toNat (w : U64) : (byteField w).toNat = w.toNat / 256 % 256 := by
  simp [byteField, Nat.shiftRight_eq_div_pow]

theorem operandValue_lt (i : Instr) : operandValue i < 256 := by
  cases i <;> simp only [operandValue] <;> omega

theorem encode_toNat (i : Instr) : (encode i).toNat = (opcode i).toNat + operandValue i * 256 := by
  have h1 := operandValue_lt i
  have h2 := (opcode i).isLt
  simp only [encode, BitVec.toNat_ofNat]
  omega

/-- The opcode field of a command's word is its OPC: what ERR_OPC records (R134). -/
@[simp] theorem opcField_encode (i : Instr) : opcField (encode i) = opcode i := by
  apply BitVec.eq_of_toNat_eq
  have h2 := (opcode i).isLt
  rw [opcField_toNat, encode_toNat]
  omega

end Sys2Proof
end

