-- ==== Sys2Proof/Laws/Float.lean ====
section
/-! SUPPORT. What the binary64 primitives of 00_scope.md R12 answer: rounding is to the nearest value, ties to even, and
differences, products and quotients are so rounded. -/

namespace Sys2Proof.Machine

/-- The rounded quotient is within one half of the exact one, and even where it is exactly one half away (R12). -/
theorem roundHalfEven_near (num den : Nat) (hd : 0 < den) :
    2 * (roundHalfEven num den * den) ≤ 2 * num + den ∧ 2 * num ≤ 2 * (roundHalfEven num den * den) + den ∧
    (2 * (roundHalfEven num den * den) = 2 * num + den ∨ 2 * num = 2 * (roundHalfEven num den * den) + den →
      roundHalfEven num den % 2 = 0) := by
  have h1 := Nat.div_add_mod num den
  have h2 := Nat.mod_lt num hd
  rw [Nat.mul_comm] at h1
  have h3 : (num / den + 1) * den = num / den * den + den := by ring
  unfold roundHalfEven
  dsimp only
  split_ifs <;> (try simp only [h3]) <;> refine ⟨by omega, by omega, fun h => ?_⟩ <;> omega

/-- No integer is nearer to the exact quotient than the rounded one; one as near only where the rounded one is even. -/
theorem roundHalfEven_nearest (num den : Nat) (hd : 0 < den) (k : Nat) (hk : k ≠ roundHalfEven num den) :
    |(roundHalfEven num den : ℝ) - num / den| < |(k : ℝ) - num / den| ∨
    (|(roundHalfEven num den : ℝ) - num / den| = |(k : ℝ) - num / den| ∧ roundHalfEven num den % 2 = 0) := by
  obtain ⟨h1, h2, h3⟩ := roundHalfEven_near num den hd
  generalize roundHalfEven num den = m at *
  have hd' : (0 : ℝ) < den := by exact_mod_cast hd
  have hx : (num : ℝ) = num / den * den := by field_simp
  generalize (num : ℝ) / den = x at *
  have g1 : 2 * (m : ℝ) ≤ 2 * x + 1 := by
    have : (2 * ((m : ℝ) * den)) ≤ 2 * num + den := by exact_mod_cast h1
    rw [hx] at this; nlinarith
  have g2 : 2 * x ≤ 2 * (m : ℝ) + 1 := by
    have : (2 * (num : ℝ)) ≤ 2 * (m * den) + den := by exact_mod_cast h2
    rw [hx] at this; nlinarith
  have g3 : 2 * (m : ℝ) = 2 * x + 1 ∨ 2 * x = 2 * (m : ℝ) + 1 → m % 2 = 0 := by
    intro h
    apply h3
    rcases h with h | h
    · left
      have : 2 * ((m : ℝ) * den) = 2 * num + den := by rw [hx]; linear_combination (den : ℝ) * h
      exact_mod_cast this
    · right
      have : 2 * (num : ℝ) = 2 * (m * den) + den := by rw [hx]; linear_combination (den : ℝ) * h
      exact_mod_cast this
  rcases lt_or_gt_of_ne hk with h | h
  · have h' : (k : ℝ) + 1 ≤ m := by exact_mod_cast h
    have e1 : |(k : ℝ) - x| = x - k := by rw [abs_sub_comm, abs_of_nonneg]; linarith
    rw [e1]
    by_cases he : |(m : ℝ) - x| < x - k
    · exact .inl he
    · rcases abs_cases ((m : ℝ) - x) with ⟨c1, c2⟩ | ⟨c1, c2⟩ <;> rw [c1] at he ⊢
      · exact .inr ⟨by linarith, g3 (.inl (by linarith))⟩
      · exact absurd (by linarith) he
  · have h' : (m : ℝ) + 1 ≤ k := by exact_mod_cast h
    have e1 : |(k : ℝ) - x| = k - x := by rw [abs_of_nonneg]; linarith
    rw [e1]
    by_cases he : |(m : ℝ) - x| < k - x
    · exact .inl he
    · rcases abs_cases ((m : ℝ) - x) with ⟨c1, c2⟩ | ⟨c1, c2⟩ <;> rw [c1] at he ⊢
      · exact absurd (by linarith) he
      · exact .inr ⟨by linarith, g3 (.inr (by linarith))⟩

/-- No integer is nearer to the exact quotient than the rounded one. -/
theorem roundHalfEven_le (num den : Nat) (hd : 0 < den) (k : Nat) :
    |(roundHalfEven num den : ℝ) - num / den| ≤ |(k : ℝ) - num / den| := by
  by_cases h : k = roundHalfEven num den
  · rw [h]
  · rcases roundHalfEven_nearest num den hd k h with h | ⟨h, _⟩
    · exact h.le
    · exact h.le

theorem exponent_toNat (x : Binary64) : (x.extractLsb' 52 11).toNat = x.toNat / 2 ^ 52 % 2 ^ 11 := by
  simp [Nat.shiftRight_eq_div_pow]

theorem fraction_toNat (x : Binary64) : (x.extractLsb' 0 52).toNat = x.toNat % 2 ^ 52 := by simp

/-- The magnitude of a finite pattern without a sign, from its exponent and fraction (R12). -/
theorem f64Magnitude_eq (x : Binary64) (h : x.toNat < infPattern) :
    f64Magnitude x = if x.toNat / 2 ^ 52 = 0 then x.toNat else
      (2 ^ 52 + x.toNat % 2 ^ 52) * 2 ^ (x.toNat / 2 ^ 52 - 1) := by
  have e : x.toNat / 2 ^ 52 % 2 ^ 11 = x.toNat / 2 ^ 52 := by simp only [infPattern] at h; omega
  simp only [f64Magnitude, exponent_toNat, fraction_toNat, e]
  split_ifs with h0
  · omega
  · rfl

/-- A significand of at most 53 bits placed `shift` bits up is what the pattern `shift * 2^52 + m` stands for. -/
theorem f64Magnitude_pattern (shift m : Nat) (hm : m ≤ 2 ^ 53) (h : shift = 0 ∨ 2 ^ 52 ≤ m)
    (hf : shift * 2 ^ 52 + m < infPattern) :
    f64Magnitude (BitVec.ofNat 64 (shift * 2 ^ 52 + m)) = m * 2 ^ shift := by
  have hp : (BitVec.ofNat 64 (shift * 2 ^ 52 + m)).toNat = shift * 2 ^ 52 + m := by
    simp only [infPattern] at hf; simp only [BitVec.toNat_ofNat]; omega
  rw [f64Magnitude_eq _ (by rw [hp]; exact hf), hp]
  rcases Nat.lt_or_ge m (2 ^ 52) with h1 | h1
  · obtain rfl : shift = 0 := by omega
    rw [if_pos (by omega)]; simp
  · rcases Nat.lt_or_ge m (2 ^ 53) with h2 | h2
    · have e1 : (shift * 2 ^ 52 + m) / 2 ^ 52 = shift + 1 := by omega
      have e2 : 2 ^ 52 + (shift * 2 ^ 52 + m) % 2 ^ 52 = m := by omega
      rw [e1, e2, if_neg (by omega), Nat.add_sub_cancel]
    · have e1 : (shift * 2 ^ 52 + m) / 2 ^ 52 = shift + 2 := by omega
      have e2 : 2 ^ 52 + (shift * 2 ^ 52 + m) % 2 ^ 52 = 2 ^ 52 := by omega
      obtain rfl : m = 2 ^ 53 := by omega
      rw [e1, e2, if_neg (by omega), show shift + 2 - 1 = shift + 1 by omega]
      ring

/-- A finite value is a multiple of 2^s units, or has less than 53 significant bits above them. -/
theorem f64Magnitude_multiple_or_lt (x : Binary64) (h : x.toNat < infPattern) (s : Nat) :
    (∃ k, f64Magnitude x = k * 2 ^ s) ∨ (0 < s ∧ f64Magnitude x < 2 ^ (52 + s)) := by
  rw [f64Magnitude_eq x h]
  split_ifs with h0
  · rcases Nat.eq_zero_or_pos s with rfl | hs
    · exact .inl ⟨x.toNat, by simp⟩
    · refine .inr ⟨hs, ?_⟩
      have : 2 ^ 52 ≤ 2 ^ (52 + s) := Nat.pow_le_pow_right (by omega) (by omega)
      omega
  · generalize x.toNat / 2 ^ 52 - 1 = e
    have hf : x.toNat % 2 ^ 52 < 2 ^ 52 := Nat.mod_lt _ (by omega)
    generalize x.toNat % 2 ^ 52 = f at *
    rcases Nat.lt_or_ge e s with hs | hs
    · refine .inr ⟨by omega, ?_⟩
      calc (2 ^ 52 + f) * 2 ^ e < 2 ^ 53 * 2 ^ e := by
            apply Nat.mul_lt_mul_of_pos_right (by omega) (by positivity)
        _ = 2 ^ (53 + e) := by rw [← pow_add]
        _ ≤ 2 ^ (52 + s) := Nat.pow_le_pow_right (by omega) (by omega)
    · exact .inl ⟨(2 ^ 52 + f) * 2 ^ (e - s), by rw [Nat.mul_assoc, ← pow_add, Nat.sub_add_cancel hs]⟩

/-- Larger patterns stand for larger magnitudes. -/
theorem f64Magnitude_lt (x y : Binary64) (hy : y.toNat < infPattern) (h : x.toNat < y.toNat) :
    f64Magnitude x < f64Magnitude y := by
  rw [f64Magnitude_eq x (by omega), f64Magnitude_eq y hy]
  have hx := Nat.div_add_mod x.toNat (2 ^ 52)
  have hy' := Nat.div_add_mod y.toNat (2 ^ 52)
  have fx : x.toNat % 2 ^ 52 < 2 ^ 52 := Nat.mod_lt _ (by omega)
  have fy : y.toNat % 2 ^ 52 < 2 ^ 52 := Nat.mod_lt _ (by omega)
  generalize x.toNat / 2 ^ 52 = ex at *
  generalize y.toNat / 2 ^ 52 = ey at *
  generalize x.toNat % 2 ^ 52 = f at *
  generalize y.toNat % 2 ^ 52 = g at *
  have hpos : 1 ≤ 2 ^ (ey - 1) := Nat.one_le_two_pow
  split_ifs with h1 h2 h2
  · omega
  · calc x.toNat < 2 ^ 52 + g := by omega
      _ = (2 ^ 52 + g) * 1 := by ring
      _ ≤ _ := Nat.mul_le_mul_left _ hpos
  · omega
  · rcases Nat.lt_or_ge ex ey with h3 | h3
    · calc (2 ^ 52 + f) * 2 ^ (ex - 1) < 2 ^ 53 * 2 ^ (ex - 1) :=
            Nat.mul_lt_mul_of_pos_right (by omega) (by positivity)
        _ = 2 ^ 52 * 2 ^ ex := by rw [← pow_add, ← pow_add]; congr 1; omega
        _ ≤ 2 ^ 52 * 2 ^ (ey - 1) := Nat.mul_le_mul_left _ (Nat.pow_le_pow_right (by omega) (by omega))
        _ ≤ _ := Nat.mul_le_mul_right _ (by omega)
    · obtain rfl : ex = ey := by omega
      exact Nat.mul_lt_mul_of_pos_right (by omega) (by positivity)

/-- Two finite patterns without a sign stand for the same magnitude only if they are one. -/
theorem f64Magnitude_inj (x y : Binary64) (hx : x.toNat < infPattern) (hy : y.toNat < infPattern)
    (h : f64Magnitude x = f64Magnitude y) : x = y := by
  apply BitVec.eq_of_toNat_eq
  rcases Nat.lt_trichotomy x.toNat y.toNat with h1 | h1 | h1
  · have := f64Magnitude_lt x y hy h1; omega
  · exact h1
  · have := f64Magnitude_lt y x hx h1; omega

theorem nonnegFinite_iff (x : Binary64) : nonnegFinite x = true ↔ x.toNat < infPattern := by simp [nonnegFinite]

/-- The real value of a finite pattern without a sign. -/
theorem f64Real_of_nonneg {x : Binary64} (h : nonnegFinite x = true) : f64Real x = (f64Magnitude x : ℝ) / 2 ^ 1074 := by
  rw [nonnegFinite_iff] at h
  have : x.msb = false := by
    rw [BitVec.msb_eq_decide]; simp only [infPattern] at h; simp; omega
  simp [f64Real, f64Value, this]


/-- The dropped bits leave a quotient of at most 53 bits, and of exactly 53 where a bit is dropped. -/
theorem droppedBits_bounds (u : Nat) : u < 2 ^ (53 + droppedBits u) ∧ (droppedBits u = 0 ∨ 2 ^ (52 + droppedBits u) ≤ u) := by
  unfold droppedBits
  rcases Nat.eq_zero_or_pos u with rfl | hu
  · simp
  · have h1 := Nat.lt_log2_self (n := u)
    have h2 := Nat.log2_self_le (n := u) (by omega)
    constructor
    · exact h1.trans_le (Nat.pow_le_pow_right (by omega) (by omega))
    · rcases Nat.lt_or_ge (Nat.log2 u) 53 with h | h
      · left; omega
      · right
        rw [show 52 + (Nat.log2 u + 1 - 53) = Nat.log2 u by omega]; exact h2

/-- How magnitudePattern is made: the significand m and the number of dropped bits, with their bounds. -/
theorem magnitudePattern_parts (num den : Nat) (hd : 0 < den) :
    ∃ s m : Nat, m = roundHalfEven (num * 2 ^ 1074) (den * 2 ^ s) ∧
      magnitudePattern num den = min (s * 2 ^ 52 + m) infPattern ∧ m ≤ 2 ^ 53 ∧
      (s = 0 ∨ (2 ^ 52 ≤ m ∧ den * 2 ^ (52 + s) ≤ num * 2 ^ 1074)) ∧ s = droppedBits (num * 2 ^ 1074 / den) := by
  refine ⟨_, _, rfl, rfl, ?_, ?_, rfl⟩
  all_goals
    obtain ⟨h1, h2⟩ := droppedBits_bounds (num * 2 ^ 1074 / den)
    generalize num * 2 ^ 1074 = u at *
    generalize droppedBits (u / den) = s at *
    obtain ⟨r1, r2, r3⟩ := roundHalfEven_near u (den * 2 ^ s) (by positivity)
    generalize roundHalfEven u (den * 2 ^ s) = m at *
    have hD : 0 < den * 2 ^ s := by positivity
  · have hu : u < den * 2 ^ s * 2 ^ 53 := by
      have := (Nat.div_lt_iff_lt_mul hd).mp h1
      rwa [pow_add, Nat.mul_comm, Nat.mul_comm (2 ^ 53), ← Nat.mul_assoc] at this
    by_contra hc
    have : (2 ^ 53 + 1) * (den * 2 ^ s) ≤ m * (den * 2 ^ s) := Nat.mul_le_mul_right _ (by omega)
    generalize den * 2 ^ s = D at *
    nlinarith
  · rcases h2 with h2 | h2
    · exact .inl h2
    · right
      have hu : den * 2 ^ (52 + s) ≤ u := by
        have := Nat.mul_le_of_le_div _ _ _ h2
        rwa [Nat.mul_comm]
      refine ⟨?_, hu⟩
      have hu' : den * 2 ^ s * 2 ^ 52 ≤ u := by
        calc den * 2 ^ s * 2 ^ 52 = den * 2 ^ (52 + s) := by rw [pow_add]; ring
          _ ≤ u := hu
      by_contra hc
      have : m * (den * 2 ^ s) + den * 2 ^ s ≤ 2 ^ 52 * (den * 2 ^ s) := by
        rw [← Nat.succ_mul]; exact Nat.mul_le_mul_right _ (by omega)
      generalize den * 2 ^ s = D at *
      nlinarith

/-- rne64 of a rational without a sign, where it is finite (R12): the nearest binary64 value, the even one of two. -/
theorem magnitudePattern_nearestEven (num den : Nat) (hd : 0 < den) (hf : magnitudePattern num den < infPattern) :
    NearestEven ((num : ℝ) / den) (BitVec.ofNat 64 (magnitudePattern num den)) := by
  obtain ⟨s, m, hm, hp, hle, hs, -⟩ := magnitudePattern_parts num den hd
  have hp' : magnitudePattern num den = s * 2 ^ 52 + m := by omega
  rw [hp'] at hf ⊢
  have hx : (BitVec.ofNat 64 (s * 2 ^ 52 + m)).toNat = s * 2 ^ 52 + m := by
    simp only [infPattern] at hf; simp only [BitVec.toNat_ofNat]; omega
  have hfin : nonnegFinite (BitVec.ofNat 64 (s * 2 ^ 52 + m)) = true := by rw [nonnegFinite_iff, hx]; exact hf
  have hmag := f64Magnitude_pattern s m hle (by omega) hf
  refine ⟨hfin, fun y hy hne => ?_⟩
  rw [f64Real_of_nonneg hfin, f64Real_of_nonneg hy, hmag, hx]
  have hpar : (s * 2 ^ 52 + m) % 2 = m % 2 := by omega
  rw [hpar]
  have hd' : (0 : ℝ) < den := by exact_mod_cast hd
  have hq : (num : ℝ) / den = ((num * 2 ^ 1074 : Nat) : ℝ) / ((den * 2 ^ s : Nat) : ℝ) * (2 ^ s / 2 ^ 1074) := by
    push_cast; field_simp
  have hc : (0 : ℝ) < 2 ^ s / 2 ^ 1074 := by positivity
  have e1 : ((m * 2 ^ s : Nat) : ℝ) / 2 ^ 1074 = (m : ℝ) * (2 ^ s / 2 ^ 1074) := by push_cast; ring
  have hD : 0 < den * 2 ^ s := by positivity
  rw [hq, e1, ← sub_mul, abs_mul, abs_of_pos hc]
  have key : ∀ z : ℝ, (f64Magnitude y : ℝ) / 2 ^ 1074 = z * (2 ^ s / 2 ^ 1074) →
      (|(m : ℝ) - ((num * 2 ^ 1074 : Nat) : ℝ) / ((den * 2 ^ s : Nat) : ℝ)| <
          |z - ((num * 2 ^ 1074 : Nat) : ℝ) / ((den * 2 ^ s : Nat) : ℝ)| ∨
        (|(m : ℝ) - ((num * 2 ^ 1074 : Nat) : ℝ) / ((den * 2 ^ s : Nat) : ℝ)| =
          |z - ((num * 2 ^ 1074 : Nat) : ℝ) / ((den * 2 ^ s : Nat) : ℝ)| ∧ m % 2 = 0)) →
      |(m : ℝ) - ((num * 2 ^ 1074 : Nat) : ℝ) / ((den * 2 ^ s : Nat) : ℝ)| * (2 ^ s / 2 ^ 1074) <
          |(f64Magnitude y : ℝ) / 2 ^ 1074 -
            ((num * 2 ^ 1074 : Nat) : ℝ) / ((den * 2 ^ s : Nat) : ℝ) * (2 ^ s / 2 ^ 1074)| ∨
        |(m : ℝ) - ((num * 2 ^ 1074 : Nat) : ℝ) / ((den * 2 ^ s : Nat) : ℝ)| * (2 ^ s / 2 ^ 1074) =
          |(f64Magnitude y : ℝ) / 2 ^ 1074 -
            ((num * 2 ^ 1074 : Nat) : ℝ) / ((den * 2 ^ s : Nat) : ℝ) * (2 ^ s / 2 ^ 1074)| ∧ m % 2 = 0 := by
    intro z hz h
    rw [hz, ← sub_mul, abs_mul, abs_of_pos hc]
    rcases h with h | ⟨h, h'⟩
    · exact .inl (mul_lt_mul_of_pos_right h hc)
    · exact .inr ⟨by rw [h], h'⟩
  rcases f64Magnitude_multiple_or_lt y ((nonnegFinite_iff y).mp hy) s with ⟨k, hk⟩ | ⟨hs0, hlt⟩
  · refine key k (by rw [hk]; push_cast; ring) ?_
    rw [hm]
    apply roundHalfEven_nearest _ _ hD
    rintro rfl
    apply hne
    apply f64Magnitude_inj y _ ((nonnegFinite_iff y).mp hy) ((nonnegFinite_iff _).mp hfin)
    rw [hk, hmag, ← hm]
  · obtain ⟨-, hge⟩ : 2 ^ 52 ≤ m ∧ den * 2 ^ (52 + s) ≤ num * 2 ^ 1074 := by omega
    refine key ((f64Magnitude y : ℝ) / 2 ^ s) (by field_simp) (.inl ?_)
    have h52 := roundHalfEven_le (num * 2 ^ 1074) (den * 2 ^ s) hD (2 ^ 52)
    rw [← hm] at h52
    have hX : (2 : ℝ) ^ 52 ≤ ((num * 2 ^ 1074 : Nat) : ℝ) / ((den * 2 ^ s : Nat) : ℝ) := by
      rw [le_div_iff₀ (by exact_mod_cast hD)]
      have : 2 ^ 52 * (den * 2 ^ s) ≤ num * 2 ^ 1074 := by
        calc 2 ^ 52 * (den * 2 ^ s) = den * 2 ^ (52 + s) := by rw [pow_add]; ring
          _ ≤ _ := hge
      exact_mod_cast this
    have hY : (f64Magnitude y : ℝ) / 2 ^ s < 2 ^ 52 := by
      rw [div_lt_iff₀ (by positivity), ← pow_add]
      exact_mod_cast hlt
    refine h52.trans_lt ?_
    push_cast at hX ⊢
    rw [abs_sub_comm, abs_of_nonneg (by linarith), abs_sub_comm, abs_of_nonneg (by linarith)]
    linarith

/-- The largest finite magnitude, in units of 2^-1074. -/
def maxMagnitude : Nat := (2 ^ 53 - 1) * 2 ^ 2045

theorem pow_le_maxMagnitude : 2 ^ 1074 ≤ maxMagnitude := by
  have h : 1 * 2 ^ 1074 ≤ (2 ^ 53 - 1) * 2 ^ 2045 :=
    Nat.mul_le_mul (by norm_num) (Nat.pow_le_pow_right (by norm_num) (by norm_num))
  rwa [Nat.one_mul] at h

theorem f64Magnitude_le_max (x : Binary64) (h : x.toNat < infPattern) : f64Magnitude x ≤ maxMagnitude := by
  rw [f64Magnitude_eq x h, maxMagnitude]
  simp only [infPattern] at h
  have hf : x.toNat % 2 ^ 52 < 2 ^ 52 := Nat.mod_lt _ (by omega)
  split_ifs with h0
  · calc x.toNat ≤ (2 ^ 53 - 1) * 1 := by omega
      _ ≤ _ := Nat.mul_le_mul_left _ Nat.one_le_two_pow
  · exact Nat.mul_le_mul (by omega) (Nat.pow_le_pow_right (by omega) (by omega))

/-- A rational that is not above the largest finite value has a finite pattern. -/
theorem magnitudePattern_lt (num den : Nat) (hd : 0 < den) (h : num * 2 ^ 1074 ≤ den * maxMagnitude) :
    magnitudePattern num den < infPattern := by
  obtain ⟨s, m, hm, hp, hle, hs, -⟩ := magnitudePattern_parts num den hd
  have hs' : s ≤ 2045 := by
    rcases hs with rfl | ⟨-, hs⟩
    · omega
    · have h1 : den * 2 ^ (52 + s) < den * 2 ^ 2098 := by
        refine (hs.trans h).trans_lt (Nat.mul_lt_mul_of_pos_left ?_ hd)
        rw [maxMagnitude, show 2098 = 53 + 2045 by omega, pow_add]
        exact Nat.mul_lt_mul_of_pos_right (by omega) (by positivity)
      have := (Nat.pow_lt_pow_iff_right (by omega : 1 < 2)).mp (lt_of_mul_lt_mul_left' h1)
      omega
  have hm' : s = 2045 → m < 2 ^ 53 := by
    rintro rfl
    obtain ⟨h1, -⟩ := roundHalfEven_near (num * 2 ^ 1074) (den * 2 ^ 2045) (by positivity)
    rw [← hm] at h1
    rw [maxMagnitude, Nat.mul_left_comm, Nat.mul_comm] at h
    have hD : 0 < den * 2 ^ 2045 := by positivity
    generalize den * 2 ^ 2045 = D at *
    by_contra hc
    have : 2 ^ 53 * D ≤ m * D := Nat.mul_le_mul_right _ (by omega)
    omega
  rw [hp]
  simp only [infPattern]
  omega

/-- The rounded value of a rational below 2^(e+53) units is within half of 2^e units of it, where it is finite. -/
theorem magnitudePattern_error (num den : Nat) (hd : 0 < den) (hf : magnitudePattern num den < infPattern) (e : Nat)
    (h : num * 2 ^ 1074 < den * 2 ^ (e + 53)) :
    |f64Real (BitVec.ofNat 64 (magnitudePattern num den)) - (num : ℝ) / den| ≤ 2 ^ e / 2 ^ 1075 := by
  have hfin := (magnitudePattern_nearestEven num den hd hf).1
  obtain ⟨s, m, hm, hp, hle, hs, -⟩ := magnitudePattern_parts num den hd
  have hse : s ≤ e := by
    rcases hs with rfl | ⟨-, hs⟩
    · omega
    · have := lt_of_mul_lt_mul_left' (hs.trans_lt h)
      have := (Nat.pow_lt_pow_iff_right (by omega : 1 < 2)).mp this
      omega
  have hp' : magnitudePattern num den = s * 2 ^ 52 + m := by omega
  rw [f64Real_of_nonneg hfin]
  rw [hp'] at hf ⊢
  rw [f64Magnitude_pattern s m hle (by omega) hf]
  have hD : 0 < den * 2 ^ s := by positivity
  obtain ⟨h1, h2, -⟩ := roundHalfEven_near (num * 2 ^ 1074) (den * 2 ^ s) hD
  rw [← hm] at h1 h2
  have hd' : (0 : ℝ) < den := by exact_mod_cast hd
  have g1 : 2 * ((m : ℝ) * (den * 2 ^ s)) ≤ 2 * (num * 2 ^ 1074) + den * 2 ^ s := by exact_mod_cast h1
  have g2 : 2 * ((num : ℝ) * 2 ^ 1074) ≤ 2 * (m * (den * 2 ^ s)) + den * 2 ^ s := by exact_mod_cast h2
  have hb : (2 : ℝ) ^ s / 2 ^ 1075 ≤ 2 ^ e / 2 ^ 1075 := by
    gcongr
    norm_num
  refine le_trans ?_ hb
  have e1 : ((m * 2 ^ s : Nat) : ℝ) / 2 ^ 1074 - num / den = (2 * (m * (den * 2 ^ s)) - 2 * (num * 2 ^ 1074)) / (den * 2 ^ 1075) := by
    push_cast; field_simp
  rw [e1, abs_div, abs_of_pos (by positivity : (0 : ℝ) < den * 2 ^ 1075), div_le_div_iff₀ (by positivity) (by positivity)]
  have : |2 * ((m : ℝ) * (den * 2 ^ s)) - 2 * (num * 2 ^ 1074)| ≤ (den : ℝ) * 2 ^ s := abs_le.mpr ⟨by linarith, by linarith⟩
  calc _ ≤ (den * 2 ^ s : ℝ) * 2 ^ 1075 := by gcongr
    _ = _ := by ring

/-- A rational that 53 bits hold is rounded to itself. -/
theorem magnitudePattern_exact (num den : Nat) (hd : 0 < den) (hf : magnitudePattern num den < infPattern) (e c : Nat)
    (hc : num * 2 ^ 1074 = c * (den * 2 ^ e)) (h : num * 2 ^ 1074 < den * 2 ^ (e + 53)) :
    f64Real (BitVec.ofNat 64 (magnitudePattern num den)) = (num : ℝ) / den := by
  have hfin := (magnitudePattern_nearestEven num den hd hf).1
  obtain ⟨s, m, hm, hp, hle, hs, -⟩ := magnitudePattern_parts num den hd
  have hse : s ≤ e := by
    rcases hs with rfl | ⟨-, hs⟩
    · omega
    · have h1 : den * 2 ^ (52 + s) < den * 2 ^ (e + 53) := hs.trans_lt h
      have := (Nat.pow_lt_pow_iff_right (a := 2) (by omega)).mp (Nat.lt_of_mul_lt_mul_left h1)
      omega
  have hp' : magnitudePattern num den = s * 2 ^ 52 + m := by omega
  rw [hp'] at hf hfin ⊢
  rw [f64Real_of_nonneg hfin, f64Magnitude_pattern s m hle (by omega) hf]
  have hD : 0 < den * 2 ^ s := by positivity
  obtain ⟨h1, h2, -⟩ := roundHalfEven_near (num * 2 ^ 1074) (den * 2 ^ s) hD
  rw [← hm] at h1 h2
  have hc' : num * 2 ^ 1074 = c * 2 ^ (e - s) * (den * 2 ^ s) := by
    rw [hc, ← Nat.sub_add_cancel hse, pow_add, Nat.add_sub_cancel]; ring
  have hmc : m = c * 2 ^ (e - s) := by
    rw [hc'] at h1 h2
    generalize c * 2 ^ (e - s) = c' at *
    generalize den * 2 ^ s = D at *
    apply Nat.le_antisymm <;> by_contra hh
    · have : (c' + 1) * D ≤ m * D := Nat.mul_le_mul_right _ (by omega)
      rw [Nat.add_mul] at this; omega
    · have : (m + 1) * D ≤ c' * D := Nat.mul_le_mul_right _ (by omega)
      rw [Nat.add_mul] at this; omega
  have key : (num : ℝ) * 2 ^ 1074 = m * (den * 2 ^ s) := by rw [hmc]; exact_mod_cast hc'
  have hd' : (0 : ℝ) < den := by exact_mod_cast hd
  rw [div_eq_div_iff (by positivity) hd'.ne', Nat.cast_mul, Nat.cast_pow, Nat.cast_ofNat, key]
  ring

/-! ### What the nearest value gives -/

/-- Two patterns without a sign and with one real value are one. -/
theorem f64Real_inj {x y : Binary64} (hx : nonnegFinite x = true) (hy : nonnegFinite y = true)
    (h : f64Real x = f64Real y) : x = y := by
  rw [f64Real_of_nonneg hx, f64Real_of_nonneg hy, div_left_inj' (by positivity)] at h
  exact f64Magnitude_inj x y ((nonnegFinite_iff x).mp hx) ((nonnegFinite_iff y).mp hy) (by exact_mod_cast h)

theorem f64Real_nonneg {x : Binary64} (hx : nonnegFinite x = true) : 0 ≤ f64Real x := by
  rw [f64Real_of_nonneg hx]; positivity

/-- A value that is exact is the rounded one. -/
theorem NearestEven.eq_of_exact {q : ℝ} {x y : Binary64} (h : NearestEven q x) (hy : nonnegFinite y = true)
    (hq : f64Real y = q) : x = y := by
  by_contra hne
  rcases h.2 y hy (Ne.symm hne) with h1 | ⟨h1, -⟩
  · rw [hq, sub_self, abs_zero] at h1
    exact absurd h1 (not_lt.mpr (abs_nonneg _))
  · rw [hq, sub_self, abs_zero, abs_eq_zero, sub_eq_zero] at h1
    exact hne (f64Real_inj h.1 hy (by rw [h1, hq]))

/-- The rounded value does not pass a binary64 value above the exact one. -/
theorem NearestEven.le_of_le {q : ℝ} {x y : Binary64} (h : NearestEven q x) (hy : nonnegFinite y = true)
    (hq : q ≤ f64Real y) : f64Real x ≤ f64Real y := by
  by_contra hc
  rw [not_le] at hc
  have hne : y ≠ x := by rintro rfl; exact lt_irrefl _ hc
  have e1 : |f64Real x - q| = f64Real x - q := abs_of_nonneg (by linarith)
  have e2 : |f64Real y - q| = f64Real y - q := abs_of_nonneg (by linarith)
  rcases h.2 y hy hne with h1 | ⟨h1, -⟩ <;> rw [e1, e2] at h1 <;> linarith

/-- The rounded value does not pass a binary64 value below the exact one. -/
theorem NearestEven.le_of_ge {q : ℝ} {x y : Binary64} (h : NearestEven q x) (hy : nonnegFinite y = true)
    (hq : f64Real y ≤ q) : f64Real y ≤ f64Real x := by
  by_contra hc
  rw [not_le] at hc
  have hne : y ≠ x := by rintro rfl; exact lt_irrefl _ hc
  have e1 : |f64Real x - q| = q - f64Real x := by rw [abs_sub_comm]; exact abs_of_nonneg (by linarith)
  have e2 : |f64Real y - q| = q - f64Real y := by rw [abs_sub_comm]; exact abs_of_nonneg (by linarith)
  rcases h.2 y hy hne with h1 | ⟨h1, -⟩ <;> rw [e1, e2] at h1 <;> linarith

/-! ### The operations -/

/-- rne64 of a rational without a sign is its pattern (R12). -/
theorem rne64_natCast (num den : Nat) : rne64 (num : Int) den = BitVec.ofNat 64 (magnitudePattern num den) := by
  simp [rne64]

/-- A quotient of a count by a sum that is not below it is the nearest binary64 value (R128, R129). -/
theorem countQuotient_nearestEven {n d : Nat} (hd : d ≠ 0) (h : n ≤ d) : NearestEven ((n : ℝ) / d) (countQuotient n d) := by
  have hd' : 0 < d := Nat.pos_of_ne_zero hd
  rw [countQuotient, if_neg hd, rne64_natCast]
  exact magnitudePattern_nearestEven n d hd' (magnitudePattern_lt n d hd' (Nat.mul_le_mul h pow_le_maxMagnitude))

theorem nonnegFinite_msb {x : Binary64} (h : nonnegFinite x = true) : x.msb = false := by
  rw [nonnegFinite_iff] at h
  rw [BitVec.msb_eq_decide]; simp only [infPattern] at h; simp; omega

theorem nn_of_nonneg {x : Binary64} (h : nonnegFinite x = true) : nn x = x := by simp [nn, nonnegFinite_msb h]

/-- The difference of two values without a sign, where it is not negative: the nearest value to the exact one (R12). -/
theorem f64Sub_nearestEven {a b : Binary64} (ha : nonnegFinite a = true) (hb : nonnegFinite b = true)
    (h : f64Real b ≤ f64Real a) : NearestEven (f64Real a - f64Real b) (f64Sub a b) := by
  have hle : f64Magnitude b ≤ f64Magnitude a := by
    rw [f64Real_of_nonneg ha, f64Real_of_nonneg hb, div_le_div_iff_of_pos_right (by positivity)] at h
    exact_mod_cast h
  have hq : f64Real a - f64Real b = ((f64Magnitude a - f64Magnitude b : Nat) : ℝ) / (2 ^ 1074 : Nat) := by
    rw [f64Real_of_nonneg ha, f64Real_of_nonneg hb, Nat.cast_sub hle]; push_cast; ring
  have hv : ∀ x : Binary64, nonnegFinite x = true → f64Value x = (f64Magnitude x : Int) := by
    intro x hx; simp [f64Value, nonnegFinite_msb hx]
  have hfin : magnitudePattern (f64Magnitude a - f64Magnitude b) (2 ^ 1074) < infPattern := by
    refine magnitudePattern_lt _ _ (by positivity) ?_
    rw [Nat.mul_comm]
    exact Nat.mul_le_mul_left _ ((Nat.sub_le _ _).trans (f64Magnitude_le_max a ((nonnegFinite_iff a).mp ha)))
  have key := magnitudePattern_nearestEven (f64Magnitude a - f64Magnitude b) (2 ^ 1074) (by positivity) hfin
  rw [← hq] at key
  unfold f64Sub
  rw [hv a ha, hv b hb]
  split_ifs with h0 h1
  · simp [nonnegFinite_msb ha] at h1
  · have e : f64Real a - f64Real b = 0 := by
      rw [hq, show f64Magnitude a - f64Magnitude b = 0 by omega, Nat.cast_zero, zero_div]
    have h0 : nonnegFinite posZero = true := by decide
    have hz : f64Real posZero = 0 := by
      have : f64Magnitude posZero = 0 := by decide
      rw [f64Real_of_nonneg h0, this, Nat.cast_zero, zero_div]
    rw [← key.eq_of_exact h0 (by rw [hz, e])]
    exact key
  · rw [← Int.ofNat_sub hle, rne64_natCast]
    exact key

/-- The difference of two values without a sign, where it is negative, has a sign, which nn clamps (R124). -/
theorem nn_f64Sub_of_lt {a b : Binary64} (ha : nonnegFinite a = true) (hb : nonnegFinite b = true)
    (h : f64Real a < f64Real b) : nn (f64Sub a b) = posZero := by
  have hlt : f64Magnitude a < f64Magnitude b := by
    rw [f64Real_of_nonneg ha, f64Real_of_nonneg hb, div_lt_div_iff_of_pos_right (by positivity)] at h
    exact_mod_cast h
  have hp : magnitudePattern (((f64Magnitude a : Int) - f64Magnitude b).natAbs) (2 ^ 1074) ≤ infPattern :=
    min_le_right _ _
  have hm : (rne64 ((f64Magnitude a : Int) - f64Magnitude b) (2 ^ 1074)).msb = true := by
    rw [rne64, if_pos (by omega), BitVec.msb_eq_decide]
    simp only [infPattern] at hp
    simp only [BitVec.toNat_ofNat, decide_eq_true_eq]
    omega
  have hv : ∀ x : Binary64, nonnegFinite x = true → f64Value x = (f64Magnitude x : Int) := by
    intro x hx; simp [f64Value, nonnegFinite_msb hx]
  rw [f64Sub, hv a ha, hv b hb, if_neg (by omega), nn, hm, if_pos rfl]

/-- The product of two values without a sign, one of them at most 1: the nearest value to the exact one (R12). -/
theorem f64Mul_nearestEven {a b : Binary64} (ha : nonnegFinite a = true) (hb : nonnegFinite b = true)
    (h : f64Magnitude b ≤ 2 ^ 1074) : NearestEven (f64Real a * f64Real b) (f64Mul a b) := by
  have hq : f64Real a * f64Real b = ((f64Magnitude a * f64Magnitude b : Nat) : ℝ) / (2 ^ 2148 : Nat) := by
    rw [f64Real_of_nonneg ha, f64Real_of_nonneg hb, div_mul_div_comm, ← pow_add]; push_cast; rfl
  rw [hq, f64Mul, nonnegFinite_msb ha, nonnegFinite_msb hb, beq_self_eq_true, if_pos rfl]
  refine magnitudePattern_nearestEven _ _ (by positivity) (magnitudePattern_lt _ _ (by positivity) ?_)
  calc f64Magnitude a * f64Magnitude b * 2 ^ 1074
      ≤ maxMagnitude * 2 ^ 1074 * 2 ^ 1074 :=
        Nat.mul_le_mul_right _ (Nat.mul_le_mul (f64Magnitude_le_max a ((nonnegFinite_iff a).mp ha)) h)
    _ = 2 ^ 2148 * maxMagnitude := by rw [Nat.mul_assoc, ← pow_add, Nat.mul_comm]

end Sys2Proof.Machine
end

