-- ==== Sys2Proof/Laws/Entropy.lean ====
section
/-! SUPPORT. What the entropy function answers: the comparisons of integers are comparisons with the exact entropies of
43_statistics.md R117, the model's bounds and functions are those that the law of R123 allows, and each component obeys
the law. -/

namespace Sys2Proof.Machine

/-- Σ n·log2 n over the parts. -/
noncomputable def sumLog (parts : List Nat) : ℝ := (parts.map fun n : Nat => (n : ℝ) * Real.logb 2 (n : ℝ)).sum

theorem powers_pos (parts : List Nat) (den : Nat) : 0 < (parts.map fun n : Nat => n ^ (n * den)).prod := by
  apply List.prod_pos
  intro x hx
  obtain ⟨n, -, rfl⟩ := List.mem_map.mp hx
  rcases Nat.eq_zero_or_pos n with rfl | h
  · simp
  · exact Nat.pow_pos h

theorem logb_powers (parts : List Nat) (den : Nat) :
    Real.logb 2 (((parts.map fun n : Nat => n ^ (n * den)).prod : Nat) : ℝ) = den * sumLog parts := by
  induction parts with
  | nil => simp [sumLog]
  | cons n ps ih =>
    have h1 : ((n ^ (n * den) : Nat) : ℝ) ≠ 0 := by
      rcases Nat.eq_zero_or_pos n with rfl | h
      · simp
      · exact_mod_cast (Nat.pow_pos h).ne'
    have h2 : (((ps.map fun n : Nat => n ^ (n * den)).prod : Nat) : ℝ) ≠ 0 := by exact_mod_cast (powers_pos ps den).ne'
    rw [List.map_cons, List.prod_cons, Nat.cast_mul, Real.logb_mul h1 h2, ih, Nat.cast_pow, Real.logb_pow]
    simp only [sumLog, List.map_cons, List.sum_cons]
    push_cast
    ring

/-- The entropy of the parts through the logarithms of the integers (R117). -/
theorem partsEntropy_eq (parts : List Nat) (hT : 0 < parts.sum) :
    partsEntropy parts = Real.logb 2 parts.sum - sumLog parts / parts.sum := by
  have hT' : (0 : ℝ) < parts.sum := by exact_mod_cast hT
  have key : ∀ (T : ℝ), 0 < T → ∀ l : List Nat,
      ((l.filter fun n => 0 < n).map fun n : Nat => (n : ℝ) / T * Real.logb 2 ((n : ℝ) / T)).sum =
        sumLog l / T - (l.sum : ℝ) / T * Real.logb 2 T := by
    intro T hpos l
    induction l with
    | nil => simp [sumLog]
    | cons n ps ih =>
      rcases Nat.eq_zero_or_pos n with rfl | h
      · simpa [sumLog] using ih
      · have hn : (n : ℝ) ≠ 0 := by exact_mod_cast h.ne'
        rw [List.filter_cons_of_pos (by simpa using h), List.map_cons, List.sum_cons, ih,
          Real.logb_div hn hpos.ne']
        simp only [sumLog, List.map_cons, List.sum_cons]
        push_cast
        ring
  rw [partsEntropy, key _ hT', div_self hT'.ne']
  ring

/-- The comparison of integers says that the entropy is at least the quotient (R117, R123). -/
theorem entropyAtLeast_iff {parts : List Nat} {num den : Nat} (hT : 0 < parts.sum) (hd : 0 < den) :
    entropyAtLeast parts num den = true ↔ (num : ℝ) / den ≤ partsEntropy parts := by
  have hT' : (0 : ℝ) < parts.sum := by exact_mod_cast hT
  have hd' : (0 : ℝ) < den := by exact_mod_cast hd
  have hp : (0 : ℝ) < ((parts.map fun n : Nat => n ^ (n * den)).prod : Nat) := by exact_mod_cast powers_pos parts den
  rw [entropyAtLeast, decide_eq_true_eq, ← Nat.cast_le (α := ℝ), Nat.cast_mul, Nat.cast_pow, Nat.cast_pow,
    ← Real.logb_le_logb (b := 2) (by norm_num) (by positivity) (by positivity),
    Real.logb_mul (by positivity) hp.ne', logb_powers, Real.logb_pow, Real.logb_pow, partsEntropy_eq parts hT,
    Nat.cast_ofNat, Real.logb_self_eq_one (by norm_num), div_le_iff₀ hd']
  generalize Real.logb 2 (parts.sum : ℝ) = L
  rw [Nat.cast_mul, Nat.cast_mul]
  generalize (parts.sum : ℝ) = T at *
  have e : (L - sumLog parts / T) * den = (T * den * L - den * sumLog parts) / T := by field_simp
  rw [e, le_div_iff₀ hT']
  constructor <;> intro h <;> linarith

/-- The comparison of integers says that the entropy is at most the quotient (R117, R123). -/
theorem entropyAtMost_iff {parts : List Nat} {num den : Nat} (hT : 0 < parts.sum) (hd : 0 < den) :
    entropyAtMost parts num den = true ↔ partsEntropy parts ≤ (num : ℝ) / den := by
  have hT' : (0 : ℝ) < parts.sum := by exact_mod_cast hT
  have hd' : (0 : ℝ) < den := by exact_mod_cast hd
  have hp : (0 : ℝ) < ((parts.map fun n : Nat => n ^ (n * den)).prod : Nat) := by exact_mod_cast powers_pos parts den
  rw [entropyAtMost, decide_eq_true_eq, ← Nat.cast_le (α := ℝ), Nat.cast_mul, Nat.cast_pow, Nat.cast_pow,
    ← Real.logb_le_logb (b := 2) (by norm_num) (by positivity) (by positivity),
    Real.logb_mul (by positivity) hp.ne', logb_powers, Real.logb_pow, Real.logb_pow, partsEntropy_eq parts hT,
    Nat.cast_ofNat, Real.logb_self_eq_one (by norm_num), le_div_iff₀ hd']
  generalize Real.logb 2 (parts.sum : ℝ) = L
  rw [Nat.cast_mul, Nat.cast_mul]
  generalize (parts.sum : ℝ) = T at *
  have e : (L - sumLog parts / T) * den = (T * den * L - den * sumLog parts) / T := by field_simp
  rw [e, div_le_iff₀ hT']
  constructor <;> intro h <;> linarith

/-- The exact entropy of some parts is not negative: their logarithms are at most that of their sum (R117). -/
theorem partsEntropy_nonneg (parts : List Nat) : 0 ≤ partsEntropy parts := by
  rw [partsEntropy, List.sum_neg, List.map_map]
  apply List.sum_nonneg
  intro x hx
  obtain ⟨n, hn, rfl⟩ := List.mem_map.mp hx
  obtain ⟨hn, -⟩ := List.mem_filter.mp hn
  rw [Function.comp_apply, neg_nonneg]
  have h1 : (n : ℝ) / parts.sum ≤ 1 := by
    apply div_le_one_of_le₀ _ (by positivity)
    exact_mod_cast List.le_sum_of_mem hn
  exact mul_nonpos_of_nonneg_of_nonpos (by positivity) (Real.logb_nonpos (by norm_num) (by positivity) h1)

/-- The exact entropy of some parts is at most the logarithm of their sum. -/
theorem partsEntropy_le (parts : List Nat) (hT : 0 < parts.sum) : partsEntropy parts ≤ Real.logb 2 parts.sum := by
  rw [partsEntropy_eq parts hT]
  have : 0 ≤ sumLog parts := by
    apply List.sum_nonneg
    intro x hx
    obtain ⟨n, -, rfl⟩ := List.mem_map.mp hx
    rcases Nat.eq_zero_or_pos n with rfl | h
    · simp
    · exact mul_nonneg (by positivity) (Real.logb_nonneg (by norm_num) (by exact_mod_cast h))
  have := div_nonneg this (Nat.cast_nonneg (α := ℝ) parts.sum)
  linarith

/-- What the law accepts as near is within the bound of the exact entropy, R123 (c). -/
theorem entropyNear_iff {eps : Binary64} {parts : List Nat} {x : Binary64} (he : nonnegFinite eps = true)
    (hT : 0 < parts.sum) (hx : nonnegFinite x = true) :
    entropyNear eps parts x = true ↔ |f64Real x - partsEntropy parts| ≤ f64Real eps := by
  have h0 := partsEntropy_nonneg parts
  rw [entropyNear, Bool.and_eq_true, entropyAtLeast_iff hT (by positivity), entropyAtMost_iff hT (by positivity),
    abs_le, f64Real_of_nonneg hx, f64Real_of_nonneg he]
  have hp : (0 : ℝ) < 2 ^ 1074 := by positivity
  have e : ((2 ^ 1074 : Nat) : ℝ) = 2 ^ 1074 := Nat.cast_pow 2 1074
  rw [e]
  generalize (2 : ℝ) ^ 1074 = U at *
  have e2 : ((f64Magnitude x + f64Magnitude eps : Nat) : ℝ) / U = f64Magnitude x / U + f64Magnitude eps / U := by
    push_cast; ring
  rw [e2]
  rcases Nat.lt_or_ge (f64Magnitude x) (f64Magnitude eps) with h | h
  · have h1 : f64Magnitude x - f64Magnitude eps = 0 := by omega
    have h2 : (f64Magnitude x : ℝ) / U < f64Magnitude eps / U := by gcongr
    rw [h1, Nat.cast_zero, zero_div]
    constructor
    · rintro ⟨-, b⟩; exact ⟨by linarith, by linarith⟩
    · rintro ⟨a, -⟩; exact ⟨h0, by linarith⟩
  · rw [Nat.cast_sub h, sub_div]
    constructor
    · rintro ⟨a, b⟩; exact ⟨by linarith, by linarith⟩
    · rintro ⟨a, b⟩; exact ⟨by linarith, by linarith⟩

/-! ### The nearest value -/

/-- Values without a sign are ordered as their patterns (R12). -/
theorem f64Real_mono {x y : Binary64} (hx : nonnegFinite x = true) (hy : nonnegFinite y = true)
    (h : x.toNat ≤ y.toNat) : f64Real x ≤ f64Real y := by
  rw [f64Real_of_nonneg hx, f64Real_of_nonneg hy]
  gcongr
  rcases Nat.eq_or_lt_of_le h with h | h
  · rw [BitVec.eq_of_toNat_eq h]
  · exact (f64Magnitude_lt _ _ ((nonnegFinite_iff y).mp hy) h).le

/-- The entropy of counts that sum to less than 2^72 is below 72. -/
theorem partsEntropy_lt {parts : List Nat} (hT : 0 < parts.sum) (hlt : parts.sum < 2 ^ 72) : partsEntropy parts < 72 := by
  refine (partsEntropy_le parts hT).trans_lt ?_
  have hT' : (0 : ℝ) < parts.sum := by exact_mod_cast hT
  rw [Real.logb_lt_iff_lt_rpow (by norm_num) hT']
  have : (parts.sum : ℝ) < 2 ^ 72 := by exact_mod_cast hlt
  exact_mod_cast this

/-- No finite value without a sign is nearer to the entropy than the nearest one. -/
theorem nearestEntropy_spec {parts : List Nat} (hT : 0 < parts.sum) (hlt : parts.sum < 2 ^ 72) :
    nonnegFinite (nearestEntropy parts) = true ∧
      ∀ y, nonnegFinite y = true →
        |f64Real (nearestEntropy parts) - partsEntropy parts| ≤ |f64Real y - partsEntropy parts| := by
  have hH := partsEntropy_lt hT hlt
  have h0 := partsEntropy_nonneg parts
  have le_iff : ∀ p, p ≤ entropyCeiling → (entropyAtLeast parts (f64Magnitude (BitVec.ofNat 64 p)) (2 ^ 1074) = true ↔
      f64Real (BitVec.ofNat 64 p) ≤ partsEntropy parts) ∧ (BitVec.ofNat 64 p).toNat = p ∧
      nonnegFinite (BitVec.ofNat 64 p) = true := by
    intro p hp
    have hn : (BitVec.ofNat 64 p).toNat = p := by
      simp only [entropyCeiling] at hp; simp only [BitVec.toNat_ofNat]; omega
    have hf : nonnegFinite (BitVec.ofNat 64 p) = true := by
      rw [nonnegFinite_iff, hn]; simp only [entropyCeiling, infPattern] at *; omega
    refine ⟨?_, hn, hf⟩
    rw [entropyAtLeast_iff hT (by positivity), f64Real_of_nonneg hf, Nat.cast_pow, Nat.cast_ofNat]
  have hzero : entropyAtLeast parts (f64Magnitude (BitVec.ofNat 64 0)) (2 ^ 1074) = true := by
    have hm : f64Magnitude (BitVec.ofNat 64 0) = 0 := by decide
    rw [hm, entropyAtLeast_iff hT (by positivity), Nat.cast_zero, zero_div]
    exact h0
  have hp : floorPattern parts ≤ entropyCeiling := Nat.findGreatest_le _
  have hP : entropyAtLeast parts (f64Magnitude (BitVec.ofNat 64 (floorPattern parts))) (2 ^ 1074) = true :=
    Nat.findGreatest_spec (P := fun p => entropyAtLeast parts (f64Magnitude (BitVec.ofNat 64 p)) (2 ^ 1074) = true)
      (m := 0) (Nat.zero_le _) hzero
  have hG : ∀ j, floorPattern parts < j → j ≤ entropyCeiling →
      ¬ entropyAtLeast parts (f64Magnitude (BitVec.ofNat 64 j)) (2 ^ 1074) = true := fun j h1 h2 =>
    Nat.findGreatest_is_greatest h1 h2
  unfold nearestEntropy
  generalize floorPattern parts = p at *
  obtain ⟨a1, a2, a3⟩ := le_iff p hp
  rw [a1] at hP
  have hlast : p ≠ entropyCeiling := by
    rintro rfl
    have hm : f64Magnitude (BitVec.ofNat 64 entropyCeiling) = 2 ^ 52 * 2 ^ 1029 := by decide +kernel
    rw [f64Real_of_nonneg a3, hm, ← pow_add, Nat.cast_pow, Nat.cast_ofNat,
      show (52 + 1029 : Nat) = 1074 + 7 from rfl, pow_add, mul_div_assoc, mul_comm, div_mul_cancel₀ _ (by positivity)] at hP
    norm_num at hP
    linarith
  obtain ⟨b1, b2, b3⟩ := le_iff (p + 1) (by omega)
  have hnext := hG (p + 1) (by omega) (by omega)
  rw [b1, not_le] at hnext
  have hmid : entropyAtMost parts (f64Magnitude (BitVec.ofNat 64 p) + f64Magnitude (BitVec.ofNat 64 (p + 1))) (2 ^ 1075)
      = true ↔ 2 * partsEntropy parts ≤ f64Real (BitVec.ofNat 64 p) + f64Real (BitVec.ofNat 64 (p + 1)) := by
    rw [entropyAtMost_iff hT (by positivity), f64Real_of_nonneg a3, f64Real_of_nonneg b3, Nat.cast_add, Nat.cast_pow,
      Nat.cast_ofNat, show (1075 : Nat) = 1074 + 1 from rfl, pow_add, pow_one, ← add_div, ← div_div,
      le_div_iff₀ (by norm_num), mul_comm]
  have hside : ∀ y, nonnegFinite y = true →
      f64Real y ≤ f64Real (BitVec.ofNat 64 p) ∨ f64Real (BitVec.ofNat 64 (p + 1)) ≤ f64Real y := by
    intro y hy
    rcases Nat.lt_or_ge p y.toNat with h | h
    · exact .inr (f64Real_mono b3 hy (by omega))
    · exact .inl (f64Real_mono hy a3 (by omega))
  dsimp only
  split_ifs with hc
  · rw [hmid] at hc
    refine ⟨a3, fun y hy => ?_⟩
    rw [abs_of_nonpos (by linarith)]
    rcases hside y hy with h | h
    · rw [abs_of_nonpos (by linarith)]; linarith
    · rw [abs_of_nonneg (by linarith)]; linarith
  · rw [hmid, not_le] at hc
    refine ⟨b3, fun y hy => ?_⟩
    rw [abs_of_nonneg (by linarith)]
    rcases hside y hy with h | h
    · rw [abs_of_nonpos (by linarith)]; linarith
    · rw [abs_of_nonneg (by linarith)]; linarith

/-- A multiple of 2^-40 below 128 is a binary64 value (R12). -/
theorem exists_multiple (k : Nat) (hk47 : k < 2 ^ 47) :
    ∃ y : Binary64, nonnegFinite y = true ∧ f64Real y = (k : ℝ) / 2 ^ 40 := by
  have hfin : magnitudePattern k (2 ^ 40) < infPattern := by
    apply magnitudePattern_lt _ _ (by positivity)
    calc k * 2 ^ 1074 ≤ 2 ^ 47 * 2 ^ 1074 := Nat.mul_le_mul_right _ hk47.le
      _ = 2 ^ 40 * 2 ^ 1081 := by rw [← pow_add, ← pow_add]
      _ ≤ 2 ^ 40 * maxMagnitude := by
        apply Nat.mul_le_mul_left
        calc 2 ^ 1081 = 1 * 2 ^ 1081 := (Nat.one_mul _).symm
          _ ≤ maxMagnitude := Nat.mul_le_mul (by norm_num) (Nat.pow_le_pow_right (by norm_num) (by norm_num))
  refine ⟨_, (magnitudePattern_nearestEven k (2 ^ 40) (by positivity) hfin).1, ?_⟩
  rw [magnitudePattern_exact k (2 ^ 40) (by positivity) hfin 1028 (k * 2 ^ 6) ?_ ?_, Nat.cast_pow, Nat.cast_ofNat]
  · rw [Nat.mul_assoc, ← pow_add, ← pow_add]
  · rw [← pow_add, show 40 + (1028 + 53) = 47 + 1074 from rfl, pow_add]
    exact Nat.mul_lt_mul_of_pos_right hk47 (by positivity)

/-- The nearest value is within 2^-40 of the exact entropy. -/
theorem nearestEntropy_error {parts : List Nat} (hT : 0 < parts.sum) (hlt : parts.sum < 2 ^ 72) :
    |f64Real (nearestEntropy parts) - partsEntropy parts| ≤ 1 / 2 ^ 40 := by
  have hH := partsEntropy_lt hT hlt
  have h0 := partsEntropy_nonneg parts
  have hU : (0 : ℝ) < 2 ^ 40 := by positivity
  have h1 := Nat.floor_le (mul_nonneg h0 hU.le)
  have h2 := Nat.lt_floor_add_one (partsEntropy parts * 2 ^ 40)
  generalize ⌊partsEntropy parts * 2 ^ 40⌋₊ = k at *
  have hk : k < 2 ^ 47 := by
    have : (k : ℝ) < 2 ^ 47 := by
      calc (k : ℝ) ≤ partsEntropy parts * 2 ^ 40 := h1
        _ < 128 * 2 ^ 40 := by gcongr; linarith
        _ = 2 ^ 47 := by norm_num
    exact_mod_cast this
  obtain ⟨y, hy, hr⟩ := exists_multiple k hk
  refine ((nearestEntropy_spec hT hlt).2 y hy).trans ?_
  rw [hr, abs_sub_comm, abs_of_nonneg (by rw [sub_nonneg, div_le_iff₀ hU]; exact h1), sub_le_iff_le_add, ← add_div,
    le_div_iff₀ hU]
  linarith

/-! ### EPS_H and the law, R9, R123 -/

/-- The law can hold with a bound for some parts exactly when some value obeys it. -/
theorem lawCanHold_iff {eps : Binary64} {parts : List Nat} (he : nonnegFinite eps = true) (hlt : parts.sum < 2 ^ 72) :
    lawCanHold eps parts = true ↔
      (0 < parts.sum → ∃ y, nonnegFinite y = true ∧ |f64Real y - partsEntropy parts| ≤ f64Real eps) := by
  rcases Nat.eq_zero_or_pos parts.sum with hT | hT
  · simp [lawCanHold, hT]
  · obtain ⟨n1, n2⟩ := nearestEntropy_spec hT hlt
    rw [lawCanHold, Bool.or_eq_true, entropyNear_iff he hT n1]
    constructor
    · rintro (h | h)
      · simp at h; omega
      · exact fun _ => ⟨_, n1, h⟩
    · intro h
      obtain ⟨y, hy, hd⟩ := h hT
      exact .inr ((n2 y hy).trans hd)

/-- Every count matrix stands in some row of bits. -/
theorem matrixOfBits_surjective (n : CountMatrix) : ∃ w, matrixOfBits w = n := by
  refine ⟨BitVec.ofFnLE fun i : Fin 16384 =>
    (countAt n (BitVec.ofNat 4 (i.val / 1024)) (BitVec.ofNat 4 (i.val / 64 % 16))).getLsbD (i.val % 64), ?_⟩
  refine bank_ext _ _ fun a => bank_ext _ _ fun b => ?_
  rw [matrixOfBits, bankGet_bankOf, bankGet_bankOf]
  have ha := a.isLt
  have hb := b.isLt
  apply BitVec.eq_of_getLsbD_eq
  intro i hi
  have e : BitVec.ofNat 4 ((64 * (16 * a.toNat + b.toNat) + i) / 1024) = a := by
    apply BitVec.eq_of_toNat_eq; simp only [BitVec.toNat_ofNat]; omega
  have f : BitVec.ofNat 4 ((64 * (16 * a.toNat + b.toNat) + i) / 64 % 16) = b := by
    apply BitVec.eq_of_toNat_eq; simp only [BitVec.toNat_ofNat]; omega
  have g : (64 * (16 * a.toNat + b.toNat) + i) % 64 = i := by omega
  rw [BitVec.getLsbD_extractLsb', BitVec.getLsbD_ofFnLE]
  simp only [hi, decide_true, Bool.true_and]
  rw [dif_pos (by omega), e, f, g]
  rfl

/-- A sum of 256 counts is below 2^72 (R32). -/
theorem total_lt (n : CountMatrix) : total n < 2 ^ 72 := by
  have bound : ∀ (l : List Nibble) (f : Nibble → Nat) (m : Nat), (∀ x, f x ≤ m) → (l.map f).sum ≤ l.length * m := by
    intro l f m hf
    induction l with
    | nil => simp
    | cons x l ih => rw [List.map_cons, List.sum_cons, List.length_cons, Nat.succ_mul]; have := hf x; omega
  have h1 := bound allSymbols (rowTotal n) (16 * (2 ^ 64 - 1)) fun a =>
    bound allSymbols (fun b => (countAt n a b).toNat) (2 ^ 64 - 1) fun b => by have := (countAt n a b).isLt; omega
  have e : allSymbols.length = 16 := rfl
  rw [e] at h1
  change (allSymbols.map (rowTotal n)).sum < 2 ^ 72
  omega

/-- The bounds of the model are those with which some value obeys the law for every count matrix (log entry 2). -/
theorem admissibleEps_iff (eps : Binary64) :
    admissibleEps eps = true ↔ nonnegFinite eps = true ∧
      ∀ n : CountMatrix, 0 < total n → ∀ parts ∈ [cellParts n, rowParts n],
        ∃ y, nonnegFinite y = true ∧ |f64Real y - partsEntropy parts| ≤ f64Real eps := by
  rw [admissibleEps, Bool.and_eq_true, decide_eq_true_eq]
  refine and_congr_right fun he => ?_
  have one : ∀ n : CountMatrix, (lawCanHold eps (cellParts n) && lawCanHold eps (rowParts n)) = true ↔
      (0 < total n → ∀ parts ∈ [cellParts n, rowParts n],
        ∃ y, nonnegFinite y = true ∧ |f64Real y - partsEntropy parts| ≤ f64Real eps) := by
    intro n
    rw [Bool.and_eq_true, lawCanHold_iff he (by rw [cellParts_sum]; exact total_lt n),
      lawCanHold_iff he (by rw [rowParts_sum]; exact total_lt n), cellParts_sum, rowParts_sum]
    simp only [List.mem_cons, List.not_mem_nil, or_false, forall_eq_or_imp, forall_eq]
    exact imp_and.symm
  constructor
  · intro h n
    obtain ⟨w, rfl⟩ := matrixOfBits_surjective n
    exact (one _).mp (h w)
  · exact fun h w => (one _).mpr (h _)

/-- A bound with which some function of the count matrix obeys the law is a bound of the model, as it is: the model
excludes no EPS_H that R123 lets an implementation have. -/
theorem epsHOf_of_lawful {eps : Binary64} (he : nonnegFinite eps = true) {f : CountMatrix → Binary64 × Binary64}
    (hf : EntropyAccurate (f64Real eps) f) : epsHOf eps = eps := by
  rw [epsHOf, if_pos]
  refine (admissibleEps_iff eps).mpr ⟨he, fun n hT parts hp => ?_⟩
  obtain ⟨h1, h2, h3, h4⟩ := (hf n).2 hT
  simp only [List.mem_cons, List.not_mem_nil, or_false] at hp
  rcases hp with rfl | rfl
  · exact ⟨_, h1, h3⟩
  · exact ⟨_, h2, h4⟩

/-- Every finite bound from 2^-40 on, the default among them, is one of the model's. -/
theorem admissibleEps_of_ge {eps : Binary64} (he : nonnegFinite eps = true) (h : 1 / 2 ^ 40 ≤ f64Real eps) :
    admissibleEps eps = true := by
  refine (admissibleEps_iff eps).mpr ⟨he, fun n hT parts hp => ?_⟩
  have hs : parts.sum = total n := by
    simp only [List.mem_cons, List.not_mem_nil, or_false] at hp
    rcases hp with rfl | rfl
    · exact cellParts_sum n
    · exact rowParts_sum n
  have hp : 0 < parts.sum := by rw [hs]; exact hT
  have hl : parts.sum < 2 ^ 72 := by rw [hs]; exact total_lt n
  exact ⟨_, (nearestEntropy_spec hp hl).1, (nearestEntropy_error hp hl).trans h⟩

/-- EPS_H is a bound of the model, whatever the parameter is (R9, log entry 2). -/
theorem admissibleEps_epsH : admissibleEps epsH = true := by
  unfold epsH epsHOf
  split_ifs with h
  · exact h
  · refine admissibleEps_of_ge (by decide) ?_
    have : f64Magnitude defaultEpsH = 2 ^ 52 * 2 ^ 1000 := by decide +kernel
    rw [f64Real_of_nonneg (by decide), this, ← pow_add, Nat.cast_pow, Nat.cast_ofNat,
      div_le_div_iff₀ (by positivity) (by positivity), one_mul, ← pow_add]
    exact pow_le_pow_right₀ (by norm_num) (by norm_num)

theorem epsH_nonneg : nonnegFinite epsH = true := ((admissibleEps_iff epsH).mp admissibleEps_epsH).1

/-- What the law makes of a free value for one component obeys the law, where some value does (R123). -/
theorem lawfulEntropy_spec {eps : Binary64} {parts : List Nat} (raw : Binary64) (he : nonnegFinite eps = true)
    (hT : 0 < parts.sum) (hlt : parts.sum < 2 ^ 72) (hc : lawCanHold eps parts = true) :
    nonnegFinite (lawfulEntropy eps parts raw) = true ∧
      |f64Real (lawfulEntropy eps parts raw) - partsEntropy parts| ≤ f64Real eps := by
  unfold lawfulEntropy
  rw [if_neg hT.ne']
  split_ifs with h
  · rw [Bool.and_eq_true] at h
    exact ⟨h.1, (entropyNear_iff he hT h.1).mp h.2⟩
  · obtain ⟨n1, n2⟩ := nearestEntropy_spec hT hlt
    obtain ⟨y, hy, hd⟩ := (lawCanHold_iff he hlt).mp hc hT
    exact ⟨n1, (n2 y hy).trans hd⟩

/-- A function that obeys the law is its own ENTROPY_FN: the model excludes no function that R123 allows. -/
theorem entropyFnOf_of_lawful {eps : Binary64} (he : nonnegFinite eps = true) {f : CountMatrix → Binary64 × Binary64}
    (hf : EntropyAccurate (f64Real eps) f) : entropyFnOf eps f = f := by
  funext n
  rcases Nat.eq_zero_or_pos (total n) with h | h
  · simp [entropyFnOf, lawfulEntropy, cellParts_sum, rowParts_sum, h, (hf n).1 h]
  · obtain ⟨h1, h2, h3, h4⟩ := (hf n).2 h
    have c : 0 < (cellParts n).sum := by rw [cellParts_sum]; exact h
    have r : 0 < (rowParts n).sum := by rw [rowParts_sum]; exact h
    have a1 : entropyNear eps (cellParts n) (f n).1 = true := (entropyNear_iff he c h1).mpr h3
    have a2 : entropyNear eps (rowParts n) (f n).2 = true := (entropyNear_iff he r h2).mpr h4
    rw [entropyFnOf, lawfulEntropy, lawfulEntropy, if_neg c.ne', if_neg r.ne', h1, h2, a1, a2]
    rfl

/-! ### The five entropies of STAT_FINISH, R122, R124, R125 -/

theorem entropyFn_fst (n : CountMatrix) :
    (entropyFn n).1 = lawfulEntropy epsH (cellParts n) (Config.entropyRaw n).1 := by rw [entropyFn, entropyFnOf]

theorem entropyFn_snd (n : CountMatrix) :
    (entropyFn n).2 = lawfulEntropy epsH (rowParts n) (Config.entropyRaw n).2 := by rw [entropyFn, entropyFnOf]

@[simp] theorem finishEntropies_joint (n : CountMatrix) : (finishEntropies n).joint = (entropyFn n).1 := by rw [finishEntropies]

@[simp] theorem finishEntropies_prev (n : CountMatrix) : (finishEntropies n).prev = (entropyFn n).2 := by rw [finishEntropies]

@[simp] theorem finishEntropies_cond (n : CountMatrix) :
    (finishEntropies n).cond = condEntropy (entropyFn n).1 (entropyFn n).2 := by rw [finishEntropies]

@[simp] theorem finishEntropies_perBit (n : CountMatrix) :
    (finishEntropies n).perBit = f64Mul (condEntropy (entropyFn n).1 (entropyFn n).2) quarter := by rw [finishEntropies]

@[simp] theorem finishEntropies_rel (n : CountMatrix) :
    (finishEntropies n).rel = f64Mul (condEntropy (entropyFn n).1 (entropyFn n).2) quarter := by rw [finishEntropies]

end Sys2Proof.Machine
end

