-- ==== Sys2Proof/Laws/PerInstr.lean ====
section
/-! SUPPORT. Statements about every command, one lemma per constructor. EncodedWordIsItsRow: the word of a command matches
its row of the opcode map, by the row's mask and match (R68 to R72). -/

namespace Sys2Proof.Laws

/-- The word of a command, masked by the mask of its row, is the row's match (R72, R73). -/
def EncodedWordIsItsRow.Statement (i : Instr) : Prop :=
  ∃ f, formatOf (opcode i) = some f ∧ encode i &&& formatMask f = (opcode i).setWidth 64

theorem EncodedWordIsItsRow.nop : EncodedWordIsItsRow.Statement .nop := ⟨.f0, by decide⟩
theorem EncodedWordIsItsRow.softReset : EncodedWordIsItsRow.Statement .softReset := ⟨.f0, by decide⟩
theorem EncodedWordIsItsRow.errClear : EncodedWordIsItsRow.Statement .errClear := ⟨.f0, by decide⟩
theorem EncodedWordIsItsRow.encStart : EncodedWordIsItsRow.Statement .encStart := ⟨.f0, by decide⟩
theorem EncodedWordIsItsRow.encSym : ∀ s, EncodedWordIsItsRow.Statement (.encSym s) := fun s => ⟨.fs, by revert s; decide⟩
theorem EncodedWordIsItsRow.encByte : ∀ b, EncodedWordIsItsRow.Statement (.encByte b) := fun b => ⟨.fb, by revert b; decide⟩
theorem EncodedWordIsItsRow.decStart : EncodedWordIsItsRow.Statement .decStart := ⟨.f0, by decide⟩
theorem EncodedWordIsItsRow.decVal : EncodedWordIsItsRow.Statement .decVal := ⟨.f0, by decide⟩
theorem EncodedWordIsItsRow.statStart : EncodedWordIsItsRow.Statement .statStart := ⟨.f0, by decide⟩
theorem EncodedWordIsItsRow.statSym : ∀ s, EncodedWordIsItsRow.Statement (.statSym s) := fun s => ⟨.fs, by revert s; decide⟩
theorem EncodedWordIsItsRow.statByte : ∀ b, EncodedWordIsItsRow.Statement (.statByte b) := fun b => ⟨.fb, by revert b; decide⟩
theorem EncodedWordIsItsRow.statFinish : EncodedWordIsItsRow.Statement .statFinish := ⟨.f0, by decide⟩
theorem EncodedWordIsItsRow.split : ∀ b, EncodedWordIsItsRow.Statement (.split b) := fun b => ⟨.fb, by revert b; decide⟩
theorem EncodedWordIsItsRow.joinStart : EncodedWordIsItsRow.Statement .joinStart := ⟨.f0, by decide⟩
theorem EncodedWordIsItsRow.joinSym : ∀ s, EncodedWordIsItsRow.Statement (.joinSym s) := fun s => ⟨.fs, by revert s; decide⟩
theorem EncodedWordIsItsRow.joinEnd : EncodedWordIsItsRow.Statement .joinEnd := ⟨.f0, by decide⟩

end Sys2Proof.Laws
end

