-- ==== Sys2Proof/Tests/Slice0.lean ====
section
/-! SUPPORT. The model's own tests. Every expected value is read from spec/: the encoding tables (30_encoding.md R72, R80)
or a row of 95_test_vectors.md, named in the docstring by its id there. Then the witnesses: for each statement with
hypotheses, a state and operands that meet all of them, at the boundaries of their ranges. -/

namespace Sys2Proof.Tests

-- One theorem after the other: a thread waits for each kernel evaluation otherwise, and the memory limit counts its stack.
set_option Elab.async false

open Sys2Proof.Machine

/-! ### Small states -/

/-- The state after a command, or the one before it where there is no next state. -/
def after (i : Instr) (s : State) : State :=
  match exec i s with
  | .next t => t
  | .fault _ => s
  | .refused _ => s

/-- The state after a command word. -/
def afterWord (w : U64) (s : State) : State :=
  match executeWord w s with
  | .next t => t
  | .fault _ => s
  | .refused _ => s

/-- Counters written out as a list. -/
def countersOf (values : List Nat) : Counters := bankOf fun x => BitVec.ofNat 64 (values.getD x.toNat 0)

/-- The codec in a mode, at a position, with given counters. -/
def codecAt (mode : CodecMode) (pos : U64) (values : List Nat) : State :=
  { State.reset with codec := { cnt := countersOf values, mode := mode, pos := pos } }

/-- The counters of a START command. -/
def startValues : List Nat := [0, 1, 2, 3, 4, 5, 6, 7, 8, 9, 10, 11, 12, 13, 14, 15]

/-- The counters after the one symbol 10. -/
def afterTen : List Nat := [1, 2, 3, 4, 5, 6, 7, 8, 9, 10, 0, 12, 13, 14, 15, 16]

/-- A decoder at a position, with a value in DATA_IN. -/
def decoding (pos : U64) (values : List Nat) (v : U64) : State :=
  let s := codecAt .dec pos values
  { s with port := { s.port with dataIn := v } }

/-- A join with a count and, if x is given, a held symbol. -/
def joining (cnt : U64) (x : Option Nibble) : State :=
  { State.reset with join := { active := true, halfValid := x.isSome, half := x.getD 0#4, cnt := cnt } }

/-- A statistics unit that accumulates, with one count, and the last of its m symbols. -/
def accumulating (m : U64) (count : U64) (prev : Nibble) : State :=
  { State.reset with
    stat := { n := bankSet zeroCounts prev (bankSet (bankGet zeroCounts prev) prev count), m := m, mode := .accum,
              havePrev := m != 0#64, prev := prev, h := zeroEntropies } }

/-- A state with a latched error: that of the illegal word 5 (R1). -/
def latched : State :=
  { State.reset with err := { err := true, code := .illegalCommand, opc := 0x05#8, value := 5#64, pos := 0#64 } }

/-- A state whose host has inputs to give. -/
def giving (p : List HostInput) (s : State) : State := { s with host := { s.host with pending := p } }

/-- A write of a command word. -/
def cmdWrite (w : U64) : HostInput := .access (.write 0x0010#13 8 w)

/-! ### WellFormed refuses -/

/-- B9, R48: a 4-byte access, and every size but 8. -/
theorem test_refuses_size : (BusAccess.read 0x0000#13 4).wellFormed = false ∧
    (BusAccess.read 0x0000#13 16).wellFormed = false ∧ (BusAccess.write 0x0018#13 1 7#64).wellFormed = false ∧
    (BusAccess.read 0x0000#13 8).wellFormed = true := by decide

/-- B8, R48: a misaligned offset. -/
theorem test_refuses_misaligned : (BusAccess.read 0x0004#13 8).wellFormed = false ∧
    (BusAccess.write 0x0019#13 8 7#64).wellFormed = false ∧ (BusAccess.write 0x0018#13 8 7#64).wellFormed = true := by
  decide

/-- R77: an operand of the wrong kind or out of range is an assembly error. -/
theorem test_refuses_operand : operandFits .f0 (some 0) = false ∧ operandFits .fs none = false ∧
    operandFits .fs (some 16) = false ∧ operandFits .fs (some 15) = true ∧ operandFits .fb none = false ∧
    operandFits .fb (some 256) = false ∧ operandFits .fb (some 255) = true := by decide

/-- R77: an unknown mnemonic, and the operands as they are written. -/
theorem test_assembler : assembleText "ENC_BYTE" (some ['0', 'x', 'A', 'B']) = some 0xAB12#64 ∧
    assembleText "ENC_SYM" (some ['1', '0']) = some 0xA11#64 ∧ assembleText "DEC_VAL" none = some 0x19#64 ∧
    assembleText "ENC_SYM" (some ['1', '6']) = none ∧ assembleText "HALT" none = none := by decide +kernel

/-! ### Decoding: one word written out for every constructor (R72, R80) -/

theorem test_decode_nop : decode 0x0000000000000000#64 = .ok .nop := by decide
theorem test_decode_softReset : decode 0x0000000000000001#64 = .ok .softReset := by decide
theorem test_decode_errClear : decode 0x0000000000000002#64 = .ok .errClear := by decide
theorem test_decode_encStart : decode 0x0000000000000010#64 = .ok .encStart := by decide
theorem test_decode_encSym : decode 0x0000000000000A11#64 = .ok (.encSym 10#4) := by decide
theorem test_decode_encByte : decode 0x000000000000AB12#64 = .ok (.encByte 0xAB#8) := by decide
theorem test_decode_decStart : decode 0x0000000000000018#64 = .ok .decStart := by decide
theorem test_decode_decVal : decode 0x0000000000000019#64 = .ok .decVal := by decide
theorem test_decode_statStart : decode 0x0000000000000020#64 = .ok .statStart := by decide
theorem test_decode_statSym : decode 0x0000000000000F21#64 = .ok (.statSym 15#4) := by decide
theorem test_decode_statByte : decode 0x0000000000000122#64 = .ok (.statByte 0x01#8) := by decide
theorem test_decode_statFinish : decode 0x0000000000000023#64 = .ok .statFinish := by decide
theorem test_decode_split : decode 0x000000000000AB30#64 = .ok (.split 0xAB#8) := by decide
theorem test_decode_joinStart : decode 0x0000000000000031#64 = .ok .joinStart := by decide
theorem test_decode_joinSym : decode 0x0000000000000532#64 = .ok (.joinSym 5#4) := by decide
theorem test_decode_joinEnd : decode 0x0000000000000033#64 = .ok .joinEnd := by decide

/-- R74 (a): a reserved opcode, whatever the other bits. -/
theorem test_decode_reserved : decode 0x0000000000000005#64 = .error (.reservedOpcode 0x05#8) ∧
    decode 0x00000000000000FF#64 = .error (.reservedOpcode 0xFF#8) := by decide

/-- R74 (b): a nonzero bit where the format requires 0; K7, R5, X15, R6. -/
theorem test_decode_stray_bits : decode 0x0000000000000100#64 = .error (.nonzeroReservedBits 0x100#64) ∧
    decode 0x0000000000001011#64 = .error (.nonzeroReservedBits 0x1011#64) ∧
    decode 0x0000000000010030#64 = .error (.nonzeroReservedBits 0x10030#64) ∧
    decode 0x8000000000000000#64 = .error (.nonzeroReservedBits 0x8000000000000000#64) := by decide

/-- The host's view of the decoder: bit k of the table's word is bit k of the command word. -/
theorem test_table_word : decodeTableWord 64 0xAB30 = some (.split 0xAB#8) ∧ decodeTableWord 64 0x5 = none := by decide

/-- withFetchWord: the next step runs the word (X10). -/
theorem test_withFetchWord : step (State.reset.withFetchWord 64 0x332) = .next { State.reset with
    err := { err := true, code := .sequence, opc := 0x32#8, value := 0x332#64, pos := 0#64 }
    host := { pending := [], responses := [.ok] } } := by rfl

/-! ### The port -/

/-- B11, B12: offsets of the map (R18). -/
theorem test_map : regOffset (.n 5#4 0#4) = 0x0A80#13 ∧ regOffset (.pc 15#4 15#4) = 0x1FF8#13 ∧
    regAt 0x0A80#13 = some (.n 5#4 0#4) ∧ regAt 0x0090#13 = none ∧ regAt 0x01F8#13 = some (.rowSum 15#4) ∧
    regAt 0x0200#13 = none := by decide +kernel

/-- B3, B10, B13: reads after reset. -/
theorem test_reads : readReg (.cnt 7#4) .reset = 7#64 ∧ readReg .hMax .reset = 0x4010000000000000#64 ∧
    readReg (.pj 0#4 0#4) .reset = 0#64 := by decide +kernel

/-- B6, B7: a write of STATUS and a read of a reserved offset are BUS_ERROR. -/
theorem test_bus_errors : busAccess (.write 0x0008#13 8 1#64) .reset = .fault (.readOnlyRegister (.write 0x0008#13 8 1#64)) ∧
    busAccess (.read 0x0090#13 8) .reset = .fault (.reservedOffset (.read 0x0090#13 8)) := ⟨rfl, rfl⟩

/-- B8: a misaligned read is BUS_ERROR, and the host may go on. -/
theorem test_bus_error_response : hostRun [.access (.read 0x0004#13 8), .access (.read 0x0000#13 8)] .reset =
    .next (giving [] { State.reset with
      host := { pending := [], responses := [.busError, .data 0x4E4942424C450007#64] } }) := by rfl

/-! ### The commands, at most two tests each -/

/-- K2: NOP while an error is latched does not clear it. -/
theorem test_nop_latched : exec .nop latched = .next latched := by rfl

/-- K3: SOFT_RESET in the middle of an encode. -/
theorem test_softReset : (after .softReset (codecAt .enc 1#64 afterTen)).codec = State.reset.codec := by decide +kernel

/-- R4: ERR_CLEAR clears the latch. -/
theorem test_errClear : (after .errClear latched).err = State.reset.err := by decide

/-- E14: ENC_START in the middle of an encode. -/
theorem test_encStart : (after .encStart (codecAt .enc 1#64 afterTen)).codec = (codecAt .enc 0#64 startValues).codec := by
  decide +kernel

/-- R3: ENC_START is ignored while an error is latched. -/
theorem test_encStart_latched : exec .encStart latched = .next latched := by rfl

/-- S4: the second symbol of encode([10, 11]) is 12, and the counters after it. -/
theorem test_encSym : (after (.encSym 11#4) (codecAt .enc 1#64 afterTen)).port.dataOut0 = 12#64 ∧
    (after (.encSym 11#4) (codecAt .enc 1#64 afterTen)).codec =
      (codecAt .enc 2#64 [2, 3, 4, 5, 6, 7, 8, 9, 10, 11, 1, 0, 14, 15, 16, 17]).codec := by decide +kernel

/-- E12: ENC_SYM at the limit. -/
theorem test_encSym_limit : (after (.encSym 0#4) (codecAt .enc 0xFFFFFFFFFFFFFFF0#64 startValues)).err =
    { err := true, code := .lengthOverflow, opc := 0x11#8, value := 0x11#64, pos := 0xFFFFFFFFFFFFFFF0#64 } := by
  decide +kernel

/-- E8: ENC_BYTE 0xAB. -/
theorem test_encByte : (after (.encByte 0xAB#8) (codecAt .enc 0#64 startValues)).port =
    { dataIn := 0#64, dataOut0 := 10#64, dataOut1 := 12#64 } := by decide +kernel

/-- E13: ENC_BYTE one symbol below the limit does neither step. -/
theorem test_encByte_limit : (after (.encByte 0x00#8) (codecAt .enc 0xFFFFFFFFFFFFFFEF#64 startValues)).err =
    { err := true, code := .lengthOverflow, opc := 0x12#8, value := 0x12#64, pos := 0xFFFFFFFFFFFFFFEF#64 } := by
  decide +kernel

/-- R106: DEC_START selects the mode DEC. -/
theorem test_decStart : readReg .status (after .decStart .reset) = 0x200#64 := by decide +kernel

/-- D1: the second value of [10, 12] decodes to 11. -/
theorem test_decVal : (after .decVal (decoding 1#64 afterTen 12#64)).port.dataOut0 = 11#64 := by decide +kernel

/-- D3: 16 as the first value is corrupt. -/
theorem test_decVal_corrupt : (after .decVal (decoding 0#64 startValues 16#64)).err =
    { err := true, code := .corruptStream, opc := 0x19#8, value := 16#64, pos := 0#64 } := by decide +kernel

/-- R118: STAT_START selects ACCUM with STAT_M = 0. -/
theorem test_statStart : readReg .status (after .statStart (accumulating 4#64 3#64 3#4)) = 0x400#64 := by decide +kernel

/-- T4: the fourth symbol 3 counts the third pair (3, 3). -/
theorem test_statSym : countAt (after (.statSym 3#4) (accumulating 3#64 2#64 3#4)).stat.n 3#4 3#4 = 3#64 := by
  decide +kernel

/-- T2: the first symbol counts no pair. -/
theorem test_statSym_first : total (after (.statSym 7#4) (accumulating 0#64 0#64 0#4)).stat.n = 0 := by decide +kernel

/-- T7: STAT_BYTE 0x34 after the symbol 2 counts the pairs (2, 3) and (3, 4). -/
theorem test_statByte : countAt (after (.statByte 0x34#8) (accumulating 2#64 0#64 2#4)).stat.n 2#4 3#4 = 1#64 ∧
    countAt (after (.statByte 0x34#8) (accumulating 2#64 0#64 2#4)).stat.n 3#4 4#4 = 1#64 := by decide +kernel

/-- T13: STAT_BYTE one symbol below the limit accumulates nothing. -/
theorem test_statByte_limit : (after (.statByte 0x00#8) (accumulating 0xFFFFFFFFFFFFFFEF#64 0#64 0#4)).err =
    { err := true, code := .lengthOverflow, opc := 0x22#8, value := 0x22#64, pos := 0xFFFFFFFFFFFFFFEF#64 } := by
  decide +kernel

/-- T2: STAT_FINISH after one symbol. -/
theorem test_statFinish : (after .statFinish (accumulating 1#64 0#64 7#4)).stat.h = zeroEntropies ∧
    readReg .status (after .statFinish (accumulating 1#64 0#64 7#4)) = 0x701800#64 := by decide +kernel

/-- T9: a statistics command before STAT_START. -/
theorem test_statFinish_idle : (after .statFinish .reset).err =
    { err := true, code := .sequence, opc := 0x23#8, value := 0x23#64, pos := 0#64 } := by decide +kernel

/-- X1: SPLIT 0xAB. -/
theorem test_split : (after (.split 0xAB#8) .reset).port = { dataIn := 0#64, dataOut0 := 10#64, dataOut1 := 11#64 } := by
  decide

/-- X13: SPLIT in the middle of a join leaves it alone. -/
theorem test_split_in_join : (after (.split 0x12#8) (joining 1#64 (some 10#4))).join = (joining 1#64 (some 10#4)).join := by
  decide

/-- X12: JOIN_START discards a held half byte. -/
theorem test_joinStart : readReg .status (after .joinStart (joining 1#64 (some 10#4))) = 0x2000#64 := by decide +kernel

/-- X6: the second symbol completes the byte. -/
theorem test_joinSym : (after (.joinSym 11#4) (joining 1#64 (some 10#4))).port.dataOut0 = 0xAB#64 := by decide

/-- X11: a high symbol 0 is held like any other. -/
theorem test_joinSym_zero : (after (.joinSym 0#4) (joining 0#64 none)).join = (joining 1#64 (some 0#4)).join := by decide

/-- P5: JOIN_END after one symbol, the STATUS word of the program's end. -/
theorem test_joinEnd_odd : readReg .status (after .joinEnd (joining 1#64 (some 5#4))) = 0x33056021#64 := by decide +kernel

/-- X7: JOIN_END after two symbols. -/
theorem test_joinEnd : (after .joinEnd (joining 2#64 none)).join =
    { active := false, halfValid := false, half := 0#4, cnt := 2#64 } := by decide

/-- R1: an illegal word. -/
theorem test_illegal_word : afterWord 5#64 .reset = latched := by decide +kernel

/-- R2: while an error is latched an illegal word is ignored. -/
theorem test_illegal_word_latched : executeWord 6#64 latched = .next latched := by rfl

/-! ### Binary64 and the archive -/

/-- T3, T5, P3: the patterns of 3/5, 2/5, 1/3 and 1/7. -/
theorem test_quotients : countQuotient 3 5 = 0x3FE3333333333333#64 ∧ countQuotient 2 5 = 0x3FD999999999999A#64 ∧
    countQuotient 1 3 = 0x3FD5555555555555#64 ∧ countQuotient 1 7 = 0x3FC2492492492492#64 := by decide +kernel

/-- R125: 4 · 0.25 is 1, and the least value times 0.25 rounds to +0.0, three times it to the least value. -/
theorem test_products : f64Mul four quarter = 0x3FF0000000000000#64 ∧ f64Mul 1#64 quarter = 0#64 ∧
    f64Mul 3#64 quarter = 1#64 := by decide +kernel

/-- R124: a negative difference and a zero are clamped. -/
theorem test_clamp : condEntropy quarter four = 0#64 ∧ condEntropy four four = 0#64 ∧
    condEntropy four quarter = 0x400E000000000000#64 := by decide +kernel

/-- S8: the archive of [10, 11] under both orders. -/
theorem test_pack : pack .le [10#4, 11#4] = [0x0A, 0, 0, 0, 0, 0, 0, 0, 0x0C, 0, 0, 0, 0, 0, 0, 0] ∧
    pack .be [10#4, 11#4] = [0, 0, 0, 0, 0, 0, 0, 0x0A, 0, 0, 0, 0, 0, 0, 0, 0x0C] := by decide +kernel

/-- The result of a host's operation, without the state after it. -/
def resultOf {α : Type} : Host.Outcome (Except HostError α × State) Fault Refusal → Option (Except HostError α)
  | .next (r, _) => some r
  | .fault _ => none
  | .refused _ => none

/-- S8: the archive of [10, 11] as a host makes it with the commands, symbol by symbol and byte by byte. -/
theorem test_hostPack : resultOf (hostPack .le (encodeProgram [10#4, 11#4]) .reset) =
      some (.ok [0x0A, 0, 0, 0, 0, 0, 0, 0, 0x0C, 0, 0, 0, 0, 0, 0, 0]) ∧
    resultOf (hostPack .be (encodeBytesProgram [0xAB#8]) .reset) =
      some (.ok [0, 0, 0, 0, 0, 0, 0, 0x0A, 0, 0, 0, 0, 0, 0, 0, 0x0C]) := ⟨rfl, rfl⟩

/-- A2, S9: unpacking with the commands: a good file, a corrupt one, and one of 7 bytes. -/
theorem test_hostUnpack :
    resultOf (hostUnpack .le "f" [0x0A, 0, 0, 0, 0, 0, 0, 0, 0x0C, 0, 0, 0, 0, 0, 0, 0] .reset) =
      some (.ok [10#4, 11#4]) ∧
    resultOf (hostUnpack .le "f" [0x10, 0, 0, 0, 0, 0, 0, 0] .reset) = some (.error (.source (.corruptStream 16 0))) ∧
    resultOf (hostUnpack .le "f" [1, 2, 3, 4, 5, 6, 7] .reset) = some (.error (.source (.ioError "f"))) :=
  ⟨rfl, rfl, rfl⟩

/-- A2, A3, A4: unpacking. -/
theorem test_unpack : unpack .le "f" [0x0A, 0, 0, 0, 0, 0, 0, 0, 0x0C, 0, 0, 0, 0, 0, 0, 0] = .ok [10#4, 11#4] ∧
    unpack .be "f" [0x0A, 0, 0, 0, 0, 0, 0, 0, 0x0C, 0, 0, 0, 0, 0, 0, 0] =
      .error (.corruptStream 0x0A00000000000000 0) ∧
    unpack .le "f" [0, 0, 0, 0, 0, 0, 0, 0, 0] = .error (.ioError "f") := by decide +kernel

/-! ### Witnesses of the statements' hypotheses -/

/-- The illegal words of the statement's clauses, at the ends of each range. -/
theorem witness_IllegalWordRaisesOrIsIgnored :
    State.reset.err.err = false ∧ latched.err.err = true ∧
    (∀ w ∈ [0x03#64, 0x0F#64, 0x13#64, 0x17#64, 0x1A#64, 0x1F#64, 0x24#64, 0x2F#64, 0x34#64, 0xFF#64, 0x100#64,
      0x8000000000000033#64, 0x1011#64, 0x8000000000000032#64, 0x10012#64, 0x8000000000000030#64],
      (0x03 ≤ w.toNat % 256 ∧ w.toNat % 256 ≤ 0x0F) ∨ (0x13 ≤ w.toNat % 256 ∧ w.toNat % 256 ≤ 0x17) ∨
      (0x1A ≤ w.toNat % 256 ∧ w.toNat % 256 ≤ 0x1F) ∨ (0x24 ≤ w.toNat % 256 ∧ w.toNat % 256 ≤ 0x2F) ∨
      0x34 ≤ w.toNat % 256 ∨
      (w.toNat % 256 ∈ [0x00, 0x01, 0x02, 0x10, 0x18, 0x19, 0x20, 0x23, 0x31, 0x33] ∧ w.toNat / 2 ^ 8 ≠ 0) ∨
      (w.toNat % 256 ∈ [0x11, 0x21, 0x32] ∧ w.toNat / 2 ^ 12 ≠ 0) ∨
      (w.toNat % 256 ∈ [0x12, 0x22, 0x30] ∧ w.toNat / 2 ^ 16 ≠ 0)) := by
  refine ⟨by decide, by decide, ?_⟩
  simp

theorem witness_DecodeAnswersExactlyLegalWords : legal 0x0F11#64 = true ∧ legal 0x1011#64 = false ∧
    legal 0xFF30#64 = true ∧ legal 0x10030#64 = false := by decide

/-- The operands just out of range, and a name that is no mnemonic. -/
theorem witness_AssemblerEmitsOnlyLegalWords : assemble ⟨"SPLIT", some 255⟩ = some 0xFF30#64 ∧
    assemble ⟨"NOP", some 0⟩ = none ∧ assemble ⟨"JOIN_SYM", some 16⟩ = none ∧ assemble ⟨"SPLIT", some 256⟩ = none ∧
    "HALT" ∉ mnemonicTable.map Prod.fst := by decide +kernel

theorem witness_StepRunsDecodedCommand :
    (giving [cmdWrite 0xA11#64, .hardwareReset] .reset).host.pending = cmdWrite 0xA11#64 :: [.hardwareReset] ∧
    decode 0xA11#64 = .ok (.encSym 10#4) := by decide

/-- Admitted and not admitted accesses on both sides of each boundary. -/
theorem witness_BusErrorExactlyOnAccessesNotAdmitted :
    (giving [.access (.read 0x0088#13 8)] .reset).host.pending = .access (.read 0x0088#13 8) :: [] ∧
    (∀ off ∈ [0x0000#13, 0x0088#13, 0x0100#13, 0x01F8#13, 0x0800#13, 0x1FF8#13], Admitted (.read off 8)) ∧
    (∀ off ∈ [0x0004#13, 0x0090#13, 0x00F8#13, 0x0200#13, 0x07F8#13, 0x1FFF#13], ¬ Admitted (.read off 8)) ∧
    Admitted (.write 0x0010#13 8 0#64) ∧ Admitted (.write 0x0018#13 8 0#64) ∧ ¬ Admitted (.write 0x0008#13 8 0#64) ∧
    ¬ Admitted (.write 0x0020#13 8 0#64) ∧ ¬ Admitted (.write 0x0010#13 4 0#64) ∧ ¬ Admitted (.read 0x0000#13 4) := by
  refine ⟨by decide, ?_⟩
  simp [Admitted, assignedOffset]

theorem witness_StepIsTheHostsTransition :
    (giving [.access (.read 0x1FF8#13 8)] .reset).host.pending = .access (.read 0x1FF8#13 8) :: [] ∧
    (∀ a, HostInput.access (.read 0x1FF8#13 8) = .access a → Admitted a) := by
  refine ⟨by decide, ?_⟩
  rintro a ⟨⟩
  simp [Admitted, assignedOffset]

theorem witness_IdleStepKeepsState : State.reset.host.pending = [] := by decide

/-- The clauses of the register map: an assigned offset, and an aligned one that is not. -/
theorem witness_RegisterMapIsOneToOne : assignedOffset (0x0088#13 : Offset).toNat ∧ (0x0090#13 : Offset).toNat % 8 = 0 ∧
    ¬ assignedOffset (0x0090#13 : Offset).toNat := by
  unfold assignedOffset
  decide

theorem witness_ReadReturnsRegisterAndChangesNothing : assignedOffset (0x0010#13 : Offset).toNat ∧
    assignedOffset (0x1FF8#13 : Offset).toNat := by
  unfold assignedOffset
  decide

/-- Each clause: the two writable registers, a read-only one and a reserved offset, at the ends of their ranges. -/
theorem witness_RegisterWritesFollowTheMap : (0x0018#13 : Offset).toNat = 0x0018 ∧ (0x0010#13 : Offset).toNat = 0x0010 ∧
    (∀ off ∈ [0x0000#13, 0x0008#13, 0x0020#13, 0x0088#13, 0x1FF8#13],
      assignedOffset off.toNat ∧ off.toNat ≠ 0x0018 ∧ off.toNat ≠ 0x0010) ∧
    (∀ off ∈ [0x0090#13, 0x00F8#13, 0x0200#13, 0x07F8#13], off.toNat % 8 = 0 ∧ ¬ assignedOffset off.toNat) := by
  simp [assignedOffset]

/-- A state in the middle of every operation that meets the invariant: one symbol encoded, one accumulated, one held. -/
def busy : State :=
  { State.reset with
    codec := (codecAt .enc 1#64 afterTen).codec
    stat := (accumulating 1#64 0#64 7#4).stat
    join := (joining 1#64 (some 5#4)).join }

/-- The same one symbol below both limits, with 2^64 - 18 transitions. -/
def nearLimit : State :=
  { State.reset with
    codec := (codecAt .dec 0xFFFFFFFFFFFFFFEF#64 startValues).codec
    stat := (accumulating 0xFFFFFFFFFFFFFFEF#64 0xFFFFFFFFFFFFFFEE#64 7#4).stat }

theorem busy_inv : MachineInv busy where
  codec := { distinct := by decide +kernel, bounded := by decide +kernel, limit := by decide +kernel }
  stat := { transitions := by decide +kernel, limit := by decide +kernel, havePrev := by decide +kernel,
            prevZero := by decide +kernel, idle := by decide +kernel, unfinished := by decide +kernel,
            finished := fun h => absurd h (by decide +kernel) }
  join := { parity := by decide +kernel, halfZero := by decide +kernel, inactive := by decide +kernel,
            limit := by decide +kernel }
  latch := { code := by decide +kernel, clear := by decide +kernel }

theorem nearLimit_inv : MachineInv nearLimit where
  codec := { distinct := by decide +kernel, bounded := by decide +kernel, limit := by decide +kernel }
  stat := { transitions := by decide +kernel, limit := by decide +kernel, havePrev := by decide +kernel,
            prevZero := by decide +kernel, idle := by decide +kernel, unfinished := by decide +kernel,
            finished := fun h => absurd h (by decide +kernel) }
  join := { parity := by decide +kernel, halfZero := by decide +kernel, inactive := by decide +kernel,
            limit := by decide +kernel }
  latch := { code := by decide +kernel, clear := by decide +kernel }

theorem witness_ResetValues : ∃ t, exec .softReset busy = .next t ∧
    (giving [.hardwareReset] busy).host.pending = .hardwareReset :: [] ∧
    ∃ u, step (giving [.hardwareReset] busy) = .next u := ⟨_, rfl, rfl, _, rfl⟩

theorem witness_SumRegistersReadExactSums : MachineInv busy ∧ MachineInv nearLimit := ⟨busy_inv, nearLimit_inv⟩

theorem witness_NoCounterWraps : MachineInv nearLimit ∧ nearLimit.codec.pos.toNat < 2 ^ 64 - 16 ∧
    nearLimit.stat.m.toNat < 2 ^ 64 - 16 := ⟨nearLimit_inv, by decide +kernel, by decide +kernel⟩

theorem witness_FloatRegistersStayNonnegativeAndFinite : MachineInv nearLimit := nearLimit_inv

theorem witness_DegenerateStatisticsAreZero : MachineInv busy ∧ busy.err.err = false ∧ busy.stat.mode = .accum ∧
    busy.stat.m.toNat ≤ 1 := ⟨busy_inv, by decide, by decide, by decide⟩

/-- A step from a state of the invariant: the second symbol of a byte. -/
theorem witness_StepKeepsTheInvariant : ∃ t, MachineInv (giving [cmdWrite 0xB32#64] busy) ∧
    step (giving [cmdWrite 0xB32#64] busy) = .next t :=
  ⟨_, ⟨busy_inv.codec, busy_inv.stat, busy_inv.join, busy_inv.latch⟩, rfl⟩

theorem witness_ProbabilityRegistersAreCorrectlyRounded : total nearLimit.stat.n ≠ 0 ∧ total State.reset.stat.n = 0 ∧
    rowTotal nearLimit.stat.n 7#4 ≠ 0 ∧ rowTotal nearLimit.stat.n 8#4 = 0 := by decide +kernel

theorem witness_SoftResetEqualsHardwareReset :
    (giving [.hardwareReset] busy).host.pending = .hardwareReset :: [] := by decide

theorem witness_LatchedErrorBlocksCommands : latched.err.err = true ∧ Instr.encStart ≠ .nop ∧
    Instr.encStart ≠ .softReset ∧ Instr.encStart ≠ .errClear ∧ decode 5#64 ≠ .ok .nop ∧
    decode 5#64 ≠ .ok .softReset ∧ decode 5#64 ≠ .ok .errClear := by decide

theorem witness_FailingCommandWritesOnlyTheLatch : State.reset.err.err = false ∧
    executeWord 5#64 .reset = .next latched ∧ latched.err.err = true := ⟨rfl, rfl, rfl⟩

/-- One command word for each code of the table. -/
theorem witness_ErrorLatchRecordsTheTable :
    (∃ t, executeWord 0x19#64 (decoding 0#64 startValues 16#64) = .next t ∧ t.err.code = .corruptStream ∧
      t.err.err = true) ∧
    (∃ t, executeWord 0x33#64 (joining 1#64 (some 5#4)) = .next t ∧ t.err.code = .invalidLength ∧ t.err.err = true) ∧
    (∃ t, executeWord 5#64 .reset = .next t ∧ t.err.code = .illegalCommand ∧ t.err.err = true) ∧
    (∃ t, executeWord 0x311#64 .reset = .next t ∧ t.err.code = .sequence ∧ t.err.err = true) ∧
    (∃ t, executeWord 0x11#64 (codecAt .enc 0xFFFFFFFFFFFFFFF0#64 startValues) = .next t ∧
      t.err.code = .lengthOverflow ∧ t.err.err = true) :=
  ⟨⟨_, rfl, rfl, rfl⟩, ⟨_, rfl, rfl, rfl⟩, ⟨_, rfl, rfl, rfl⟩, ⟨_, rfl, rfl, rfl⟩, ⟨_, rfl, rfl, rfl⟩⟩

/-- Each of the eight commands that check a mode, in a state that does not accept it. -/
theorem witness_WrongModeRaisesSequence : State.reset.err.err = false ∧
    ∀ i ∈ [Instr.encSym 0#4, .encByte 0#8, .decVal, .statSym 0#4, .statByte 0#8, .statFinish, .joinSym 0#4, .joinEnd],
      ¬ ModeAccepts i .reset := by
  refine ⟨rfl, ?_⟩
  simp [ModeAccepts, State.reset]

/-- Each of the six commands that check the length, at the boundary of its range. -/
theorem witness_PassingTheLimitRaisesLengthOverflow :
    (ModeAccepts (.encSym 0#4) (codecAt .enc 0xFFFFFFFFFFFFFFF0#64 startValues) ∧
      PassesLimit (.encSym 0#4) (codecAt .enc 0xFFFFFFFFFFFFFFF0#64 startValues)) ∧
    (ModeAccepts (.encByte 0#8) (codecAt .enc 0xFFFFFFFFFFFFFFEF#64 startValues) ∧
      PassesLimit (.encByte 0#8) (codecAt .enc 0xFFFFFFFFFFFFFFEF#64 startValues)) ∧
    (ModeAccepts .decVal (codecAt .dec 0xFFFFFFFFFFFFFFF0#64 startValues) ∧
      PassesLimit .decVal (codecAt .dec 0xFFFFFFFFFFFFFFF0#64 startValues)) ∧
    (ModeAccepts (.statSym 0#4) (accumulating 0xFFFFFFFFFFFFFFF0#64 0#64 0#4) ∧
      PassesLimit (.statSym 0#4) (accumulating 0xFFFFFFFFFFFFFFF0#64 0#64 0#4)) ∧
    (ModeAccepts (.statByte 0#8) (accumulating 0xFFFFFFFFFFFFFFEF#64 0#64 0#4) ∧
      PassesLimit (.statByte 0#8) (accumulating 0xFFFFFFFFFFFFFFEF#64 0#64 0#4)) ∧
    (ModeAccepts (.joinSym 0#4) (joining 0xFFFFFFFFFFFFFFF0#64 none) ∧
      PassesLimit (.joinSym 0#4) (joining 0xFFFFFFFFFFFFFFF0#64 none)) := by
  unfold ModeAccepts PassesLimit
  decide +kernel

/-- An answered access of each kind: a read, a write of DATA_IN, an illegal word and a command. -/
theorem witness_EachPartChangesOnlyByItsOwnInputs :
    (∃ r, busAccess (.read 0x0000#13 8) busy = .next (r, busy)) ∧
    (∃ t, busAccess (.write 0x0018#13 8 7#64) busy = .next (.ok, t) ∧ t.port.dataIn = 7#64) ∧
    (∃ t, busAccess (.write 0x0010#13 8 5#64) busy = .next (.ok, t) ∧ t.err.code = .illegalCommand) ∧
    (∃ t, busAccess (.write 0x0010#13 8 0x31#64) busy = .next (.ok, t) ∧ t.join.halfValid = false) ∧
    (∃ t, busAccess (.write 0x0010#13 8 0xAB30#64) busy = .next (.ok, t) ∧ t.port.dataOut0 ≠ busy.port.dataOut0 ∧
      t.port.dataOut1 ≠ busy.port.dataOut1) :=
  ⟨⟨_, rfl⟩, ⟨_, rfl, rfl⟩, ⟨_, rfl, rfl⟩, ⟨_, rfl, rfl⟩, ⟨_, rfl, by decide, by decide⟩⟩

/-- A command of each unit with a next state. -/
theorem witness_UnitsAreIndependent :
    (∃ t, exec .encStart busy = .next t ∧ unitOf .encStart = .codec) ∧
    (∃ t, exec .statStart busy = .next t ∧ unitOf .statStart = .statistics) ∧
    (∃ t, exec .joinStart busy = .next t ∧ unitOf .joinStart = .conversion) :=
  ⟨⟨_, rfl, rfl⟩, ⟨_, rfl, rfl⟩, ⟨_, rfl, rfl⟩⟩

/-- The commands that need no mode: any state without an error (SplitWritesBothSymbols, JoinStartOpensAJoin,
CodecStartsInitialise, StatStartClearsTheTables, and NoError of the programs). -/
theorem witness_NoError : busy.err.err = false ∧ NoError busy := ⟨rfl, rfl⟩

/-- Both clauses at the last count below the limit. -/
theorem witness_JoinSymHoldsOrCompletes :
    ((joining 0xFFFFFFFFFFFFFFEF#64 (some 10#4)).err.err = false ∧
      (joining 0xFFFFFFFFFFFFFFEF#64 (some 10#4)).join.active = true ∧
      (joining 0xFFFFFFFFFFFFFFEF#64 (some 10#4)).join.cnt.toNat < 2 ^ 64 - 16 ∧
      (joining 0xFFFFFFFFFFFFFFEF#64 (some 10#4)).join.halfValid = true) ∧
    ((joining 0xFFFFFFFFFFFFFFEE#64 none).err.err = false ∧ (joining 0xFFFFFFFFFFFFFFEE#64 none).join.active = true ∧
      (joining 0xFFFFFFFFFFFFFFEE#64 none).join.cnt.toNat < 2 ^ 64 - 16 ∧
      (joining 0xFFFFFFFFFFFFFFEE#64 none).join.halfValid = false) := by decide

theorem witness_JoinEndChecksTheLength :
    ((joining 2#64 none).err.err = false ∧ (joining 2#64 none).join.active = true ∧
      (joining 2#64 none).join.halfValid = false) ∧
    ((joining 1#64 (some 5#4)).err.err = false ∧ (joining 1#64 (some 5#4)).join.active = true ∧
      (joining 1#64 (some 5#4)).join.halfValid = true) := by decide

theorem witness_NibblesRoundTrip : [5#4].length % 2 = 1 ∧ [10#4, 11#4].length % 2 = 0 ∧ [0xAB#8][0]? = some 0xAB#8 ∧
    [10#4, 11#4][2 * 0]? = some 10#4 ∧ [10#4, 11#4][2 * 0 + 1]? = some 11#4 := by decide

theorem witness_JoinRendersNibblesToBytes : NoError busy ∧ [1#4, 2#4, 3#4].length ≤ 2 ^ 64 - 16 ∧
    nibblesToBytes [10#4, 11#4] = .ok [0xAB#8] ∧ [1#4, 2#4, 3#4].length % 2 = 1 ∧
    [1#4, 2#4, 3#4].getLast? = some 3#4 := ⟨rfl, by decide, by decide, by decide, by decide⟩

theorem witness_CounterUpdateAgesAllAndZeroesOne :
    (∀ y, (bankGet (countersOf afterTen) y).toNat + 1 < 2 ^ 64) ∧
    bankGet (countersOf [0xFFFFFFFFFFFFFFFE]) 0#4 = 0xFFFFFFFFFFFFFFFE#64 ∧
    (∀ y, (bankGet (countersOf [0xFFFFFFFFFFFFFFFE]) y).toNat + 1 < 2 ^ 64) := by decide +kernel

theorem witness_EncSymEmitsAndUpdates : (codecAt .enc 0xFFFFFFFFFFFFFFEF#64 startValues).err.err = false ∧
    (codecAt .enc 0xFFFFFFFFFFFFFFEF#64 startValues).codec.mode = .enc ∧
    (codecAt .enc 0xFFFFFFFFFFFFFFEF#64 startValues).codec.pos.toNat < 2 ^ 64 - 16 := by decide +kernel

theorem witness_EncByteIsTwoEncSyms : (codecAt .enc 0xFFFFFFFFFFFFFFEE#64 startValues).err.err = false ∧
    (codecAt .enc 0xFFFFFFFFFFFFFFEE#64 startValues).codec.mode = .enc ∧
    (codecAt .enc 0xFFFFFFFFFFFFFFEE#64 startValues).codec.pos.toNat ≤ 2 ^ 64 - 18 := by decide +kernel

/-- Both clauses at the last position below the limit: a value that one counter holds, one that two hold (a state no run
reaches) and one that none holds. -/
theorem witness_DecValFindsTheSymbol :
    ((decoding 0xFFFFFFFFFFFFFFEF#64 startValues 11#64).err.err = false ∧
      (decoding 0xFFFFFFFFFFFFFFEF#64 startValues 11#64).codec.mode = .dec ∧
      (decoding 0xFFFFFFFFFFFFFFEF#64 startValues 11#64).codec.pos.toNat < 2 ^ 64 - 16) ∧
    (bankGet (countersOf startValues) 11#4 = 11#64 ∧
      ∀ y, bankGet (countersOf startValues) y = 11#64 → (11#4).toNat ≤ y.toNat) ∧
    (bankGet (countersOf [9, 7, 7]) 1#4 = 7#64 ∧
      ∀ y, bankGet (countersOf [9, 7, 7]) y = 7#64 → (1#4).toNat ≤ y.toNat) ∧
    (∀ x, bankGet (countersOf startValues) x ≠ 16#64) := by decide +kernel

theorem witness_CounterClosedForm : NoError busy ∧ [5#4, 3#4, 5#4].length ≤ 2 ^ 64 - 16 ∧ 7#4 ∉ [5#4, 3#4, 5#4] ∧
    [5#4, 3#4, 5#4][2]? = some 5#4 ∧ ∀ k, 2 < k → [5#4, 3#4, 5#4][k]? ≠ some 5#4 := by
  refine ⟨rfl, by decide, by decide, by decide, fun k hk => ?_⟩
  rw [List.getElem?_eq_none (by simp; omega)]
  simp

theorem witness_EncodeCommandsRenderEncode : NoError busy ∧ [10#4, 11#4].length ≤ 2 ^ 64 - 16 ∧
    12 ∈ sourceEncode [10#4, 11#4] := ⟨rfl, by decide, by decide⟩

/-- A stream that decodes, and one that fails at position 1 (D5). -/
theorem witness_DecodeCommandsRenderDecode : NoError busy ∧ [10#64, 12#64].length ≤ 2 ^ 64 - 16 ∧
    sourceDecode ([10#64, 12#64].map BitVec.toNat) = .ok [10#4, 11#4] ∧
    sourceDecode ([5#64, 6#64].map BitVec.toNat) = .error (.corruptStream 6 1) := ⟨rfl, by decide, by decide, by decide⟩

theorem witness_CountersStayDistinctOnEveryRun : ∃ t, hostRun [cmdWrite 0x18#64, .hardwareReset] .reset = .next t :=
  ⟨_, rfl⟩

/-- With and without a previous symbol, the first at the last count below the limit. -/
theorem witness_StatSymCountsThePair :
    ((accumulating 0xFFFFFFFFFFFFFFEF#64 0#64 3#4).err.err = false ∧
      (accumulating 0xFFFFFFFFFFFFFFEF#64 0#64 3#4).stat.mode = .accum ∧
      (accumulating 0xFFFFFFFFFFFFFFEF#64 0#64 3#4).stat.m.toNat < 2 ^ 64 - 16 ∧
      (accumulating 0xFFFFFFFFFFFFFFEF#64 0#64 3#4).stat.havePrev = true) ∧
    ((accumulating 0#64 0#64 0#4).stat.mode = .accum ∧ (accumulating 0#64 0#64 0#4).stat.havePrev = false) := by
  decide +kernel

theorem witness_StatByteIsTwoStatSyms : (accumulating 0xFFFFFFFFFFFFFFEE#64 0#64 3#4).err.err = false ∧
    (accumulating 0xFFFFFFFFFFFFFFEE#64 0#64 3#4).stat.mode = .accum ∧
    (accumulating 0xFFFFFFFFFFFFFFEE#64 0#64 3#4).stat.m.toNat ≤ 2 ^ 64 - 18 := by decide +kernel

theorem witness_StatFinishComputesTheEntropies : nearLimit.err.err = false ∧ nearLimit.stat.mode = .accum := by
  decide +kernel

/-- Both clauses of PJ at their boundary, and both of PC. -/
theorem witness_StatisticsCommandsRenderTheEngine : NoError busy ∧ [0#4, 1#4].length ≤ 2 ^ 64 - 16 ∧
    2 ≤ [0#4, 1#4].length ∧ [7#4].length < 2 ∧ (allSymbols.map fun c => pairCount [0#4, 1#4] 0#4 c).sum ≠ 0 ∧
    (allSymbols.map fun c => pairCount [0#4, 1#4] 1#4 c).sum = 0 :=
  ⟨rfl, by decide, by decide, by decide, by decide, by decide⟩

/-- Each clause, with a file that is refused for its length and one that is not. -/
theorem witness_ArchiveRoundTrip : [10#4, 11#4].length ≤ 2 ^ 64 - 16 ∧ NoError busy ∧
    2 * [0xAB#8].length ≤ 2 ^ 64 - 16 ∧ [0#8].length ≤ 8 * (2 ^ 64 - 16) ∧ [0#8].length % 8 ≠ 0 ∧
    (pack .le [10#4]).length ≤ 8 * (2 ^ 64 - 16) :=
  ⟨by decide, rfl, by decide, by decide, by decide, by decide⟩

theorem witness_UnpackReadsWordsOrRefuses : [0#8, 0#8].length % 8 ≠ 0 ∧
    ([0x0A, 0, 0, 0, 0, 0, 0, 0] : List Byte).length % 8 = 0 := by decide

/-- Two symbols whose counters agree after a prefix: only a symbol with itself. -/
theorem witness_DecodeInvertsEncode : (([5#4, 3#4].take 1).foldl sourceUpdate sourceInit) 5#4 = 0 := by decide

end Sys2Proof.Tests
end

/-! PROOFS. The probability registers PJ and PC (R34, R35): both read a quotient of exact counts. -/

section ProbabilityRegisters

namespace Sys2Proof.Machine

/-- R34: PJ reads the quotient by the exact total, in every mode. -/
theorem readReg_pj (a b : Nibble) (s : State) :
    readReg (.pj a b) s = countQuotient (countAt s.stat.n a b).toNat (total s.stat.n) := rfl

/-- R35: PC reads the quotient by the exact row sum, in every mode. -/
theorem readReg_pc (a b : Nibble) (s : State) :
    readReg (.pc a b) s = countQuotient (countAt s.stat.n a b).toNat (rowTotal s.stat.n a) := rfl

@[simp] theorem countQuotient_zero_right (n : Nat) : countQuotient n 0 = 0#64 := rfl

/-- Both cases of R128 and R129. A count is at most the sum it is divided by, so the quotient is finite. -/
theorem countQuotient_correctlyRounded {n d : Nat} (h : n ≤ d) :
    (d ≠ 0 → NearestEven ((n : ℝ) / d) (countQuotient n d)) ∧ (d = 0 → countQuotient n d = 0#64) := by
  constructor
  · intro hd
    exact countQuotient_nearestEven hd h
  · rintro rfl
    exact countQuotient_zero_right n

end Sys2Proof.Machine

namespace Sys2Proof.Proofs

open Sys2Proof.Machine

/-- Settles O17: each count is a summand of its row sum and of the total, so both registers read a quotient that is
rounded correctly. -/
theorem probabilityRegistersAreCorrectlyRounded : Obligations.ProbabilityRegistersAreCorrectlyRounded := by
  unfold Obligations.ProbabilityRegistersAreCorrectlyRounded
  intro s a b
  rw [readReg_pj, readReg_pc]
  obtain ⟨joint_rounded, joint_zero⟩ := countQuotient_correctlyRounded (countAt_le_total s.stat.n a b)
  obtain ⟨cond_rounded, cond_zero⟩ := countQuotient_correctlyRounded (countAt_le_rowTotal s.stat.n a b)
  exact ⟨joint_rounded, joint_zero, cond_rounded, cond_zero⟩

end Sys2Proof.Proofs

end ProbabilityRegisters

/-! PROOFS. What a command can do to the state, said once (R81): it is ignored, raises one error, is one of the two
commands that act while an error is latched, or is performed with its checks passed. Then what the commands of each unit
leave alone (R39, R40, R89). -/

section CommandEffects

namespace Sys2Proof.Machine

/-! ### JOIN_SYM writes the join unit and DATA_OUT0 -/

@[simp] theorem joinSymbol_codec (x : Nibble) (s : State) : (joinSymbol x s).codec = s.codec := by
  unfold joinSymbol; split <;> rfl
@[simp] theorem joinSymbol_stat (x : Nibble) (s : State) : (joinSymbol x s).stat = s.stat := by
  unfold joinSymbol; split <;> rfl
@[simp] theorem joinSymbol_err (x : Nibble) (s : State) : (joinSymbol x s).err = s.err := by
  unfold joinSymbol; split <;> rfl
@[simp] theorem joinSymbol_host (x : Nibble) (s : State) : (joinSymbol x s).host = s.host := by
  unfold joinSymbol; split <;> rfl
@[simp] theorem joinSymbol_dataIn (x : Nibble) (s : State) : (joinSymbol x s).port.dataIn = s.port.dataIn := by
  unfold joinSymbol; split <;> rfl
@[simp] theorem joinSymbol_dataOut1 (x : Nibble) (s : State) : (joinSymbol x s).port.dataOut1 = s.port.dataOut1 := by
  unfold joinSymbol; split <;> rfl

theorem joinSymbol_join_held {x : Nibble} {s : State} (held : s.join.halfValid = true) :
    (joinSymbol x s).join = { s.join with half := 0#4, halfValid := false, cnt := s.join.cnt + 1#64 } := by
  simp [joinSymbol, held]

theorem joinSymbol_join_free {x : Nibble} {s : State} (free : s.join.halfValid = false) :
    (joinSymbol x s).join = { s.join with half := x, halfValid := true, cnt := s.join.cnt + 1#64 } := by
  simp [joinSymbol, free]

/-! ### The effects -/

/-- `Performs s i t`: the command i, with the checks of R81 passed in s, leaves t. The hypotheses of each constructor are
those checks. -/
inductive Performs (s : State) : Instr → State → Prop
  | encStart : Performs s .encStart { s with codec := startCodec .enc }
  | encSym (x : Nibble) (mode : s.codec.mode = .enc) (room : s.codec.pos.toNat < Config.lenLimit.toNat) :
      Performs s (.encSym x) (encodeSymbol x s)
  | encByte (b : Byte) (mode : s.codec.mode = .enc) (room : s.codec.pos.toNat + 2 ≤ Config.lenLimit.toNat) :
      Performs s (.encByte b) (encodeByte b s)
  | decStart : Performs s .decStart { s with codec := startCodec .dec }
  | decVal (x : Nibble) (mode : s.codec.mode = .dec) (room : s.codec.pos.toNat < Config.lenLimit.toNat)
      (found : lookup s.codec.cnt s.port.dataIn = some x) : Performs s .decVal (decodeSymbol x s)
  | statStart : Performs s .statStart { s with stat := startStat }
  | statSym (x : Nibble) (mode : s.stat.mode = .accum) (room : s.stat.m.toNat < Config.lenLimit.toNat) :
      Performs s (.statSym x) { s with stat := accumulate s.stat x }
  | statByte (b : Byte) (mode : s.stat.mode = .accum) (room : s.stat.m.toNat + 2 ≤ Config.lenLimit.toNat) :
      Performs s (.statByte b) { s with stat := accumulate (accumulate s.stat (hiSymbol b)) (loSymbol b) }
  | statFinish (mode : s.stat.mode = .accum) :
      Performs s .statFinish { s with stat := { s.stat with h := finishEntropies s.stat.n, mode := .done } }
  | split (b : Byte) :
      Performs s (.split b) (setOut1 (symbolWord (loSymbol b)) (setOut0 (symbolWord (hiSymbol b)) s))
  | joinStart : Performs s .joinStart { s with join := { active := true, halfValid := false, half := 0#4, cnt := 0#64 } }
  | joinSym (x : Nibble) (active : s.join.active = true) (room : s.join.cnt.toNat < Config.lenLimit.toNat) :
      Performs s (.joinSym x) (joinSymbol x s)
  | joinEnd (active : s.join.active = true) (even : s.join.halfValid = false) :
      Performs s .joinEnd { s with join := { s.join with active := false } }

/-- `Effect s i t`: the legal command i leaves t from s, in one of the ways of R81. -/
inductive Effect (s : State) : Instr → State → Prop
  /-- NOP (R85), or a command ignored while an error is latched (R82). -/
  | unchanged (i : Instr) : Effect s i s
  | softReset : Effect s .softReset (resetBlock s)
  | errClear : Effect s .errClear (clearError s)
  /-- A check failed (R135, R136). -/
  | raised (i : Instr) {code : ErrCode} (value pos : U64) (noError : s.err.err = false) (isError : code ≠ .none) :
      Effect s i (raise code (encode i) value pos s)
  | performed {i : Instr} {t : State} (noError : s.err.err = false) (performs : Performs s i t) : Effect s i t

variable {s t : State} {i : Instr}

/-- A dispatched command has one of the effects when its data check raises a real error and its meaning is that of
`Performs`. -/
theorem dispatch_effect {c : Checks} {perform : State → State} (h : dispatch (encode i) c perform s = .next t)
    (data : ∀ e, c.dataError = some e → e.1 ≠ .none)
    (meaning : c.modeOk = true → c.lengthOk = true → c.dataError = none → Performs s i (perform s)) : Effect s i t := by
  obtain ⟨-, ends⟩ | ⟨noError, -, ends⟩ | ⟨noError, -, -, ends⟩ | ⟨e, noError, -, -, he, ends⟩ |
    ⟨noError, mode, length, noData, ends⟩ := dispatch_cases (encode i) c perform s
  all_goals obtain rfl := Host.Outcome.next.inj (ends.symm.trans h)
  · exact .unchanged i
  · exact .raised i _ _ noError (by decide)
  · exact .raised i _ _ noError (by decide)
  · exact .raised i _ _ noError (data e he)
  · exact .performed noError (meaning mode length noData)

/-- The one inversion lemma of exec: every command has one of the effects. -/
theorem exec_effect (h : exec i s = .next t) : Effect s i t := by
  cases i with
  | nop => rw [exec_nop] at h; cases h; exact .unchanged _
  | softReset => rw [exec_softReset] at h; cases h; exact .softReset
  | errClear => rw [exec_errClear] at h; cases h; exact .errClear
  | encStart => rw [exec_encStart] at h; exact dispatch_effect h (by simp) fun _ _ _ => .encStart
  | encSym x =>
    rw [exec_encSym] at h
    exact dispatch_effect h (by simp) fun mode room _ => .encSym x (eq_of_beq mode) ((roomForOne_iff _).mp room)
  | encByte b =>
    rw [exec_encByte] at h
    exact dispatch_effect h (by simp) fun mode room _ => .encByte b (eq_of_beq mode) ((roomForTwo_iff _).mp room)
  | decStart => rw [exec_decStart] at h; exact dispatch_effect h (by simp) fun _ _ _ => .decStart
  | decVal =>
    rw [exec_decVal] at h
    cases found : lookup s.codec.cnt s.port.dataIn with
    | none => exact dispatch_effect h (by simp [found]) (by simp [found])
    | some x =>
      refine dispatch_effect h (by simp [found]) fun mode room _ => ?_
      simpa only [found] using .decVal x (eq_of_beq mode) ((roomForOne_iff _).mp room) found
  | statStart => rw [exec_statStart] at h; exact dispatch_effect h (by simp) fun _ _ _ => .statStart
  | statSym x =>
    rw [exec_statSym] at h
    exact dispatch_effect h (by simp) fun mode room _ => .statSym x (eq_of_beq mode) ((roomForOne_iff _).mp room)
  | statByte b =>
    rw [exec_statByte] at h
    exact dispatch_effect h (by simp) fun mode room _ => .statByte b (eq_of_beq mode) ((roomForTwo_iff _).mp room)
  | statFinish =>
    rw [exec_statFinish] at h
    exact dispatch_effect h (by simp) fun mode _ _ => .statFinish (eq_of_beq mode)
  | split b => rw [exec_split] at h; exact dispatch_effect h (by simp) fun _ _ _ => .split b
  | joinStart => rw [exec_joinStart] at h; exact dispatch_effect h (by simp) fun _ _ _ => .joinStart
  | joinSym x =>
    rw [exec_joinSym] at h
    exact dispatch_effect h (by simp) fun active room _ => .joinSym x active ((roomForOne_iff _).mp room)
  | joinEnd =>
    rw [exec_joinEnd] at h
    refine dispatch_effect h ?_ fun active _ even => .joinEnd active (by simpa using even)
    intro e he
    obtain ⟨-, odd⟩ := Option.ite_none_right_eq_some.mp he
    cases odd
    exact ErrCode.noConfusion

/-! ### What a performed command leaves alone -/

theorem Performs.host (performs : Performs s i t) : t.host = s.host := by
  cases performs with
  | joinSym x => exact joinSymbol_host x s
  | _ => rfl

theorem Performs.dataIn (performs : Performs s i t) : t.port.dataIn = s.port.dataIn := by
  cases performs with
  | joinSym x => exact joinSymbol_dataIn x s
  | _ => rfl

theorem Performs.codec_or_unit (performs : Performs s i t) :
    t.codec = s.codec ∨ unitOf i = .codec := by
  cases performs with
  | encStart | encSym | encByte | decStart | decVal => exact .inr rfl
  | joinSym x => exact .inl (joinSymbol_codec x s)
  | _ => exact .inl rfl

theorem Performs.stat_or_unit (performs : Performs s i t) :
    t.stat = s.stat ∨ unitOf i = .statistics := by
  cases performs with
  | statStart | statSym | statByte | statFinish => exact .inr rfl
  | joinSym x => exact .inl (joinSymbol_stat x s)
  | _ => exact .inl rfl

theorem Performs.join_or_unit (performs : Performs s i t) :
    t.join = s.join ∨ unitOf i = .conversion := by
  cases performs with
  | split | joinStart | joinSym | joinEnd => exact .inr rfl
  | _ => exact .inl rfl

/-- The commands whose rules name DATA_OUT0 (R40). -/
def WritesOut0 (i : Instr) : Prop :=
  i = .decVal ∨ (∃ x, i = .encSym x ∨ i = .joinSym x) ∨ ∃ b, i = .encByte b ∨ i = .split b

/-- The commands whose rules name DATA_OUT1 (R40). -/
def WritesOut1 (i : Instr) : Prop := ∃ b, i = .encByte b ∨ i = .split b

theorem Performs.dataOut0_or_writes (performs : Performs s i t) :
    t.port.dataOut0 = s.port.dataOut0 ∨ WritesOut0 i := by
  cases performs with
  | decVal => exact .inr (.inl rfl)
  | encSym x => exact .inr (.inr (.inl ⟨x, .inl rfl⟩))
  | joinSym x => exact .inr (.inr (.inl ⟨x, .inr rfl⟩))
  | encByte b => exact .inr (.inr (.inr ⟨b, .inl rfl⟩))
  | split b => exact .inr (.inr (.inr ⟨b, .inr rfl⟩))
  | _ => exact .inl rfl

theorem Performs.dataOut1_or_writes (performs : Performs s i t) :
    t.port.dataOut1 = s.port.dataOut1 ∨ WritesOut1 i := by
  cases performs with
  | encByte b => exact .inr ⟨b, .inl rfl⟩
  | split b => exact .inr ⟨b, .inr rfl⟩
  | joinSym x => exact .inl (joinSymbol_dataOut1 x s)
  | _ => exact .inl rfl

/-! ### What any command leaves alone -/

theorem Effect.host (effect : Effect s i t) : t.host = s.host := by
  cases effect with
  | performed _ performs => exact performs.host
  | _ => rfl

/-- A part of the state that neither an error nor its return touches changes only by SOFT_RESET, or by a command that
writes this part when it is performed. -/
theorem Effect.changed_by {α : Type} {part : State → α} {Writer : Prop} (effect : Effect s i t)
    (latchFree : ∀ e, part { s with err := e } = part s) (writer : Performs s i t → part t = part s ∨ Writer)
    (changed : part t ≠ part s) : i = .softReset ∨ Writer := by
  cases effect with
  | unchanged => exact absurd rfl changed
  | softReset => exact .inl rfl
  | errClear => exact absurd (latchFree _) changed
  | raised => exact absurd (latchFree _) changed
  | performed _ performs => exact .inr ((writer performs).resolve_left changed)

/-- R82, R139: a latched error ends only by ERR_CLEAR or SOFT_RESET. -/
theorem Effect.latched_err_changed (effect : Effect s i t) (latched : s.err.err = true)
    (changed : t.err ≠ s.err) : i = .softReset ∨ i = .errClear := by
  cases effect with
  | unchanged => exact absurd rfl changed
  | softReset => exact .inl rfl
  | errClear => exact .inr rfl
  | raised _ _ _ noError => simp [latched] at noError
  | performed noError => simp [latched] at noError

end Sys2Proof.Machine

end CommandEffects

/-! PROOFS. The register map (R18): the offsets as numbers, the register at each range of offsets, and that the two are
inverse to each other. -/

section RegisterMap

namespace Sys2Proof.Machine

theorem matrixIndex_lt (a b : Nibble) : matrixIndex a b < 256 := by unfold matrixIndex; omega

theorem regOffset_cnt_toNat (x : Nibble) : (regOffset (.cnt x)).toNat = 0x0100 + 8 * x.toNat := by
  simp only [regOffset, BitVec.toNat_ofNat]; omega

theorem regOffset_rowSum_toNat (a : Nibble) : (regOffset (.rowSum a)).toNat = 0x0180 + 8 * a.toNat := by
  simp only [regOffset, BitVec.toNat_ofNat]; omega

theorem regOffset_n_toNat (a b : Nibble) : (regOffset (.n a b)).toNat = 0x0800 + 8 * matrixIndex a b := by
  have := matrixIndex_lt a b
  simp only [regOffset, BitVec.toNat_ofNat]; omega

theorem regOffset_pj_toNat (a b : Nibble) : (regOffset (.pj a b)).toNat = 0x1000 + 8 * matrixIndex a b := by
  have := matrixIndex_lt a b
  simp only [regOffset, BitVec.toNat_ofNat]; omega

theorem regOffset_pc_toNat (a b : Nibble) : (regOffset (.pc a b)).toNat = 0x1800 + 8 * matrixIndex a b := by
  have := matrixIndex_lt a b
  simp only [regOffset, BitVec.toNat_ofNat]; omega

/-! ### The register at each range of offsets -/

theorem regAt_scalar {off : Offset} (h : off.toNat < 0x0100) : regAt off = scalarRegs[off.toNat / 8]? := by
  unfold regAt
  exact if_pos (by omega)

theorem regAt_cnt {off : Offset} (lo : 0x0100 ≤ off.toNat) (hi : off.toNat < 0x0180) :
    regAt off = some (.cnt (BitVec.ofNat 4 (off.toNat / 8 - 32))) := by
  unfold regAt
  simp only
  rw [if_neg (by omega), if_pos (by omega)]

theorem regAt_rowSum {off : Offset} (lo : 0x0180 ≤ off.toNat) (hi : off.toNat < 0x0200) :
    regAt off = some (.rowSum (BitVec.ofNat 4 (off.toNat / 8 - 48))) := by
  unfold regAt
  simp only
  rw [if_neg (by omega), if_neg (by omega), if_pos (by omega)]

theorem regAt_reserved {off : Offset} (lo : 0x0200 ≤ off.toNat) (hi : off.toNat < 0x0800) : regAt off = none := by
  unfold regAt
  simp only
  rw [if_neg (by omega), if_neg (by omega), if_neg (by omega), if_pos (by omega)]

/-- The row of a matrix register at an offset. -/
def offsetRow (off : Offset) : Nibble := BitVec.ofNat 4 (off.toNat / 8 % 256 / 16)

/-- The column of a matrix register at an offset. -/
def offsetColumn (off : Offset) : Nibble := BitVec.ofNat 4 (off.toNat / 8 % 16)

theorem regAt_matrix {off : Offset} (lo : 0x0800 ≤ off.toNat) :
    regAt off = if off.toNat / 8 < 512 then some (.n (offsetRow off) (offsetColumn off))
      else if off.toNat / 8 < 768 then some (.pj (offsetRow off) (offsetColumn off))
      else some (.pc (offsetRow off) (offsetColumn off)) := by
  unfold regAt
  simp only
  rw [if_neg (by omega), if_neg (by omega), if_neg (by omega), if_neg (by omega)]
  rfl

theorem matrixIndex_offset (off : Offset) :
    matrixIndex (offsetRow off) (offsetColumn off) = off.toNat / 8 % 256 := by
  simp only [matrixIndex, offsetRow, offsetColumn, BitVec.toNat_ofNat]
  omega

/-- The row and the column of a matrix register's own offset. -/
theorem offset_of_matrixIndex {off : Offset} {base : Nat} {a b : Nibble} (hbase : base % 0x0800 = 0)
    (h : off.toNat = base + 8 * matrixIndex a b) : offsetRow off = a ∧ offsetColumn off = b := by
  unfold matrixIndex at h
  constructor <;> apply BitVec.eq_of_toNat_eq <;> simp only [offsetRow, offsetColumn, BitVec.toNat_ofNat] <;> omega

/-! ### The map and the offsets are inverse to each other -/

theorem assignedOffset_regOffset (r : Reg) : assignedOffset (regOffset r).toNat := by
  unfold assignedOffset
  cases r with
  | cnt x => rw [regOffset_cnt_toNat]; omega
  | rowSum a => rw [regOffset_rowSum_toNat]; omega
  | n a b => have := matrixIndex_lt a b; rw [regOffset_n_toNat]; omega
  | pj a b => have := matrixIndex_lt a b; rw [regOffset_pj_toNat]; omega
  | pc a b => have := matrixIndex_lt a b; rw [regOffset_pc_toNat]; omega
  | _ => decide

/-- R18: the register at a register's own offset. -/
theorem regAt_regOffset (r : Reg) : regAt (regOffset r) = some r := by
  cases r with
  | cnt x =>
    have h := regOffset_cnt_toNat x
    have index : (regOffset (.cnt x)).toNat / 8 - 32 = x.toNat := by omega
    rw [regAt_cnt (by omega) (by omega), index, BitVec.ofNat_toNat, BitVec.setWidth_eq]
  | rowSum a =>
    have h := regOffset_rowSum_toNat a
    have index : (regOffset (.rowSum a)).toNat / 8 - 48 = a.toNat := by omega
    rw [regAt_rowSum (by omega) (by omega), index, BitVec.ofNat_toNat, BitVec.setWidth_eq]
  | n a b =>
    have h := regOffset_n_toNat a b
    have lt := matrixIndex_lt a b
    obtain ⟨row, column⟩ := offset_of_matrixIndex (by decide) h
    rw [regAt_matrix (by omega), if_pos (by omega), row, column]
  | pj a b =>
    have h := regOffset_pj_toNat a b
    have lt := matrixIndex_lt a b
    obtain ⟨row, column⟩ := offset_of_matrixIndex (by decide) h
    rw [regAt_matrix (by omega), if_neg (by omega), if_pos (by omega), row, column]
  | pc a b =>
    have h := regOffset_pc_toNat a b
    have lt := matrixIndex_lt a b
    obtain ⟨row, column⟩ := offset_of_matrixIndex (by decide) h
    rw [regAt_matrix (by omega), if_neg (by omega), if_neg (by omega), row, column]
  | _ => decide

theorem scalarRegs_offset :
    ∀ k : Fin 18, (scalarRegs[k]?.map fun r => (regOffset r).toNat) = some (8 * k.val) := by decide

/-- R18: an assigned offset holds the register of that offset. -/
theorem exists_regAt {off : Offset} (h : assignedOffset off.toNat) : ∃ r, regAt off = some r ∧ regOffset r = off := by
  obtain ⟨multiple, scalar | bank | matrix⟩ := h
  · obtain ⟨r, hr, offset⟩ := Option.map_eq_some_iff.mp (scalarRegs_offset ⟨off.toNat / 8, by omega⟩)
    refine ⟨r, by rw [regAt_scalar (by omega)]; exact hr, BitVec.eq_of_toNat_eq ?_⟩
    simp only at offset
    omega
  · obtain cnt | rowSum := Nat.lt_or_ge off.toNat 0x0180
    · refine ⟨_, regAt_cnt (by omega) cnt, BitVec.eq_of_toNat_eq ?_⟩
      rw [regOffset_cnt_toNat, BitVec.toNat_ofNat]
      omega
    · refine ⟨_, regAt_rowSum rowSum (by omega), BitVec.eq_of_toNat_eq ?_⟩
      rw [regOffset_rowSum_toNat, BitVec.toNat_ofNat]
      omega
  · rw [regAt_matrix (by omega)]
    have index := matrixIndex_offset off
    split_ifs with hn hpj
    · exact ⟨_, rfl, BitVec.eq_of_toNat_eq (by rw [regOffset_n_toNat]; omega)⟩
    · exact ⟨_, rfl, BitVec.eq_of_toNat_eq (by rw [regOffset_pj_toNat]; omega)⟩
    · exact ⟨_, rfl, BitVec.eq_of_toNat_eq (by rw [regOffset_pc_toNat]; omega)⟩

/-- R42: an aligned offset that is not assigned holds no register. -/
theorem regAt_eq_none {off : Offset} (multiple : off.toNat % 8 = 0) (h : ¬ assignedOffset off.toNat) :
    regAt off = none := by
  unfold assignedOffset at h
  obtain gap | reserved := Nat.lt_or_ge off.toNat 0x0200
  · rw [regAt_scalar (by omega)]
    exact List.getElem?_eq_none (by simp only [scalarRegs, List.length_cons, List.length_nil]; omega)
  · exact regAt_reserved reserved (by omega)

/-- The register that an aligned offset holds is the one of that offset. -/
theorem regOffset_of_regAt {off : Offset} {r : Reg} (multiple : off.toNat % 8 = 0) (h : regAt off = some r) :
    regOffset r = off := by
  by_cases assigned : assignedOffset off.toNat
  · obtain ⟨r', hr', offset⟩ := exists_regAt assigned
    rw [hr'] at h
    cases h
    exact offset
  · rw [regAt_eq_none multiple assigned] at h
    cases h

end Sys2Proof.Machine

end RegisterMap

/-! PROOFS. The words that the decoder refuses (R73), and the inversion of a bus access that is answered (R46, R51). -/

section AnsweredAccesses

namespace Sys2Proof

/-- A word that matches its row is 0 in every bit above OPC that the mask of the row fixes (R68 to R70). -/
theorem highBits_eq_zero {w mask : U64} {start len : Nat} (masked : w &&& mask = (opcField w).setWidth 64)
    (above : 8 ≤ start) (fixed : ∀ i < len, mask.getLsbD (start + i) = true) : w.extractLsb' start len = 0#len := by
  ext i hi
  have bit := congrArg (·.getLsbD (start + i)) masked
  simpa [fixed i hi, opcField, show ¬ start + i < 8 by omega] using bit

theorem legal_eq_false_of_mask {w : U64} {f : Format} (row : formatOf (opcField w) = some f)
    (unmatched : w &&& formatMask f ≠ (opcField w).setWidth 64) : legal w = false := by
  simpa [legal, row] using unmatched

theorem legal_eq_false_of_decodeF0 {w : U64} {i : Instr} {e : DecodeError} (row : formatOf (opcField w) = some .f0)
    (h : decodeF0 w i = .error e) : legal w = false := by
  refine legal_eq_false_of_mask row fun masked => ?_
  rw [decodeF0, if_pos (highBits_eq_zero masked (by decide) (by decide))] at h
  cases h

theorem legal_eq_false_of_decodeFS {w : U64} {i : Nibble → Instr} {e : DecodeError}
    (row : formatOf (opcField w) = some .fs) (h : decodeFS w i = .error e) : legal w = false := by
  refine legal_eq_false_of_mask row fun masked => ?_
  rw [decodeFS, if_pos (highBits_eq_zero masked (by decide) (by decide))] at h
  cases h

theorem legal_eq_false_of_decodeFB {w : U64} {i : Byte → Instr} {e : DecodeError}
    (row : formatOf (opcField w) = some .fb) (h : decodeFB w i = .error e) : legal w = false := by
  refine legal_eq_false_of_mask row fun masked => ?_
  rw [decodeFB, if_pos (highBits_eq_zero masked (by decide) (by decide))] at h
  cases h

/-- R73: a word that the decoder refuses is illegal. -/
theorem legal_eq_false_of_decode {w : U64} {e : DecodeError} (h : decode w = .error e) : legal w = false := by
  unfold decode at h
  split at h
  case h_1 opc | h_2 opc | h_3 opc | h_4 opc | h_7 opc | h_8 opc | h_9 opc | h_12 opc | h_14 opc | h_16 opc =>
    exact legal_eq_false_of_decodeF0 (by rw [opc]; rfl) h
  case h_5 opc | h_10 opc | h_15 opc => exact legal_eq_false_of_decodeFS (by rw [opc]; rfl) h
  case h_6 opc | h_11 opc | h_13 opc => exact legal_eq_false_of_decodeFB (by rw [opc]; rfl) h
  case h_17 =>
    have reserved : formatOf (opcField w) = none := by simp_all [formatOf]
    simp [legal, reserved]

end Sys2Proof

namespace Sys2Proof.Machine

/-- R81: a command word that is answered is ignored, raises ILLEGAL_COMMAND, or has the effect of its command. -/
theorem executeWord_cases {w : U64} {s t : State} (h : executeWord w s = .next t) :
    t = s ∨ (legal w = false ∧ s.err.err = false ∧ t = raise .illegalCommand w w 0#64 s) ∨
      ∃ i, decode w = .ok i ∧ Effect s i t := by
  cases hw : decode w with
  | ok i =>
    rw [executeWord_ok s hw] at h
    exact .inr (.inr ⟨i, rfl, exec_effect h⟩)
  | error e =>
    rw [executeWord_illegal s hw] at h
    cases latched : s.err.err with
    | true => rw [if_pos latched] at h; cases h; exact .inl rfl
    | false =>
      rw [if_neg (by simp [latched])] at h
      cases h
      exact .inr (.inl ⟨legal_eq_false_of_decode hw, rfl, rfl⟩)

/-- R43, R51: a write is answered at DATA_IN and CMD alone. -/
theorem writeReg_cases {a : BusAccess} {r : Reg} {v : U64} {s t : State} {response : BusResponse}
    (h : writeReg a r v s = .next (response, t)) :
    (r = .dataIn ∧ t = setDataIn v s) ∨ (r = .cmd ∧ executeWord v s = .next t) := by
  cases r with
  | dataIn => cases h; exact .inl ⟨rfl, rfl⟩
  | cmd =>
    cases hw : executeWord v s with
    | next u => simp only [writeReg, hw, acknowledge] at h; cases h; exact .inr ⟨rfl, rfl⟩
    | fault f => simp only [writeReg, hw, acknowledge] at h; cases h
    | refused f => simp only [writeReg, hw, acknowledge] at h; cases h
  | _ => cases h

theorem wellFormed_of_answered {a : BusAccess} {s : State} {x : BusResponse × State} (h : busAccess a s = .next x) :
    a.wellFormed = true := by
  cases hw : a.wellFormed with
  | true => rfl
  | false => simp [busAccess, hw] at h

theorem write_wellFormed {off : Offset} {size : Nat} {v : U64} (h : (BusAccess.write off size v).wellFormed = true) :
    size = 8 ∧ off.toNat % 8 = 0 := by
  simpa [BusAccess.wellFormed, aligned_iff] using h

/-- R50, R51: an answered access leaves the state alone, stores DATA_IN, or executes the word written to CMD. -/
theorem busAccess_cases {a : BusAccess} {s t : State} {response : BusResponse}
    (h : busAccess a s = .next (response, t)) :
    t = s ∨ (∃ v, a = .write 0x0018#13 8 v ∧ t = setDataIn v s) ∨
      ∃ w, a = .write 0x0010#13 8 w ∧ executeWord w s = .next t := by
  have wf := wellFormed_of_answered h
  cases a with
  | read off size =>
    simp only [busAccess, wf] at h
    cases hr : regAt off with
    | none => simp only [hr] at h; cases h
    | some r => simp only [hr] at h; cases h; exact .inl rfl
  | write off size v =>
    simp only [busAccess, wf] at h
    obtain ⟨rfl, multiple⟩ := write_wellFormed wf
    cases hr : regAt off with
    | none => simp only [hr] at h; cases h
    | some r =>
      obtain rfl := regOffset_of_regAt multiple hr
      simp only [hr] at h
      obtain ⟨rfl, rfl⟩ | ⟨rfl, run⟩ := writeReg_cases h
      · exact .inr (.inl ⟨v, rfl, rfl⟩)
      · exact .inr (.inr ⟨v, rfl, run⟩)

end Sys2Proof.Machine

end AnsweredAccesses

/-! PROOFS. The invariant of the machine (R17, R21 to R25, R29, R32, R36): each unit's own at its start and under each of
its operations, then of the whole machine under each input. -/

section Invariant

namespace Sys2Proof.Machine

/-! ### The codec unit -/

theorem lenLimit_toNat : Config.lenLimit.toNat = 2 ^ 64 - 16 := by decide

/-- A count below LEN_LIMIT is incremented exactly. -/
theorem toNat_add_one_of_room {count : U64} (room : count.toNat < Config.lenLimit.toNat) :
    (count + 1#64).toNat = count.toNat + 1 := by
  rw [lenLimit_toNat] at room
  simp only [BitVec.toNat_add, BitVec.toNat_ofNat]
  omega

theorem codecInv_start (mode : CodecMode) : CodecInv (startCodec mode) where
  distinct a b h := by simpa [startCodec] using congrArg (BitVec.setWidth 4) h
  bounded x := by simp [startCodec]; omega
  limit := by simp [startCodec]

/-- No counter wraps below the limit (R101), so an update increments exactly. -/
theorem CodecInv.toNat_add_one {u : CodecUnit} (inv : CodecInv u) (room : u.pos.toNat < Config.lenLimit.toNat)
    (x : Nibble) : (bankGet u.cnt x + 1#64).toNat = (bankGet u.cnt x).toNat + 1 := by
  have := inv.bounded x
  rw [lenLimit_toNat] at room
  simp only [BitVec.toNat_add, BitVec.toNat_ofNat]
  omega

/-- R29: the aged counters stay distinct among themselves, and none of them is the zero of the chosen symbol. -/
theorem CodecInv.codecStep {u : CodecUnit} (inv : CodecInv u) (room : u.pos.toNat < Config.lenLimit.toNat) (x : Nibble) :
    CodecInv (codecStep u x) where
  distinct a b h := by
    have aged_ne_zero (y : Nibble) : bankGet u.cnt y + 1#64 ≠ 0#64 := fun h0 => by
      simpa [h0] using inv.toNat_add_one room y
    simp only [codecStep_cnt, updateCounters_get] at h
    by_cases ha : a = x <;> by_cases hb : b = x
    · rw [ha, hb]
    · rw [if_pos ha, if_neg hb] at h; exact absurd h.symm (aged_ne_zero b)
    · rw [if_neg ha, if_pos hb] at h; exact absurd h (aged_ne_zero a)
    · rw [if_neg ha, if_neg hb] at h; exact inv.distinct a b (by simpa using h)
  bounded y := by
    rw [codecStep_pos, toNat_add_one_of_room room, codecStep_cnt, updateCounters_get]
    split
    · simp
    · rw [inv.toNat_add_one room]
      have := inv.bounded y
      omega
  limit := by rw [codecStep_pos, toNat_add_one_of_room room]; exact room

theorem CodecInv.codecStep_codecStep {u : CodecUnit} (inv : CodecInv u)
    (room : u.pos.toNat + 2 ≤ Config.lenLimit.toNat) (x y : Nibble) :
    CodecInv (Machine.codecStep (Machine.codecStep u x) y) := by
  have first : u.pos.toNat < Config.lenLimit.toNat := by omega
  refine (inv.codecStep first x).codecStep ?_ y
  rw [codecStep_pos, toNat_add_one_of_room first]
  omega

/-! ### The statistics unit -/

/-- Before the first symbol, in both modes without entropies: after reset and after STAT_START. -/
theorem statInv_empty {mode : StatMode} (unfinished : mode ≠ .done) : StatInv { startStat with mode := mode } where
  transitions := total_zeroCounts
  limit := Nat.zero_le _
  havePrev := by simp [startStat]
  prevZero _ := rfl
  idle _ := rfl
  unfinished _ := rfl
  finished done := absurd done unfinished

/-- R32: the second and every later symbol adds one transition. -/
theorem StatInv.total_accumulate {u : StatUnit} (inv : StatInv u) (room : u.m.toNat < Config.lenLimit.toNat)
    (x : Nibble) : total (accumulate u x).n = u.m.toNat := by
  have transitions := inv.transitions
  rw [accumulate_n]
  cases hp : u.havePrev with
  | false =>
    have m_zero : u.m = 0#64 := by simpa [hp] using inv.havePrev
    simpa [m_zero] using transitions
  | true =>
    have m_pos : u.m.toNat ≠ 0 := by simpa [← BitVec.toNat_inj] using inv.havePrev.mp hp
    have count_le := countAt_le_total u.n u.prev x
    rw [lenLimit_toNat] at room
    rw [if_pos rfl, total_bumpCount _ _ _ (by omega)]
    omega

theorem StatInv.accumulate {u : StatUnit} (inv : StatInv u) (mode : u.mode = .accum)
    (room : u.m.toNat < Config.lenLimit.toNat) (x : Nibble) : StatInv (accumulate u x) where
  transitions := by rw [inv.total_accumulate room, accumulate_m, toNat_add_one_of_room room, Nat.add_sub_cancel]
  limit := by rw [accumulate_m, toNat_add_one_of_room room]; exact room
  havePrev := by
    have m_ne_zero : u.m + 1#64 ≠ 0#64 := fun h0 => by simpa [h0] using toNat_add_one_of_room room
    simpa using m_ne_zero
  prevZero := by simp
  idle := by simp [mode]
  unfinished _ := inv.unfinished (by simp [mode])
  finished := by simp [mode]

theorem StatInv.accumulate_accumulate {u : StatUnit} (inv : StatInv u) (mode : u.mode = .accum)
    (room : u.m.toNat + 2 ≤ Config.lenLimit.toNat) (x y : Nibble) :
    StatInv (Machine.accumulate (Machine.accumulate u x) y) := by
  have first : u.m.toNat < Config.lenLimit.toNat := by omega
  refine (inv.accumulate mode first x).accumulate mode ?_ y
  rw [accumulate_m, toNat_add_one_of_room first]
  omega

/-- R122: STAT_FINISH leaves the tables and gives the entropy registers their values of the counts. -/
theorem StatInv.finish {u : StatUnit} (inv : StatInv u) :
    StatInv { u with h := finishEntropies u.n, mode := .done } where
  transitions := inv.transitions
  limit := inv.limit
  havePrev := inv.havePrev
  prevZero := inv.prevZero
  idle := by simp
  unfinished := by simp
  finished _ := rfl

/-! ### The conversion unit -/

theorem joinInv_start (active : Bool) : JoinInv { active := active, halfValid := false, half := 0#4, cnt := 0#64 } where
  parity := by simp
  halfZero _ := rfl
  inactive _ := rfl
  limit := by simp

/-- R25: JOIN_HALF_VALID changes with the parity of the count. -/
theorem JoinInv.joinSymbol {s : State} (inv : JoinInv s.join) (active : s.join.active = true)
    (room : s.join.cnt.toNat < Config.lenLimit.toNat) (x : Nibble) : JoinInv (joinSymbol x s).join := by
  have cnt_succ := toNat_add_one_of_room room
  have parity : (s.join.cnt + 1#64).toNat % 2 = 1 ↔ ¬ s.join.halfValid = true := by rw [cnt_succ, inv.parity]; omega
  have limit : (s.join.cnt + 1#64).toNat ≤ Config.lenLimit.toNat := by rw [cnt_succ]; exact room
  cases held : s.join.halfValid with
  | true =>
    rw [joinSymbol_join_held held]
    exact { parity := by simpa [held] using parity, halfZero := fun _ => rfl, inactive := fun _ => rfl, limit }
  | false =>
    rw [joinSymbol_join_free held]
    exact { parity := by simpa [held] using parity, halfZero := by simp, inactive := by simp [active], limit }

/-- R95: JOIN_END is performed only when no half byte is held. -/
theorem JoinInv.finish {u : JoinUnit} (inv : JoinInv u) (even : u.halfValid = false) :
    JoinInv { u with active := false } where
  parity := inv.parity
  halfZero := inv.halfZero
  inactive _ := even
  limit := inv.limit

/-! ### The error latch -/

theorem latchInv_clear : LatchInv clearLatch where
  code := by decide
  clear _ := rfl

theorem latchInv_raise {code : ErrCode} (isError : code ≠ .none) (w value pos : U64) (s : State) :
    LatchInv (raise code w value pos s).err where
  code := by simpa using isError
  clear := by simp

/-! ### The machine -/

theorem MachineInv.setPending {s : State} (inv : MachineInv s) (p : List HostInput) : MachineInv (setPending p s) :=
  ⟨inv.codec, inv.stat, inv.join, inv.latch⟩

theorem MachineInv.logResponse {s : State} (inv : MachineInv s) (r : BusResponse) : MachineInv (logResponse r s) :=
  ⟨inv.codec, inv.stat, inv.join, inv.latch⟩

theorem MachineInv.setDataIn {s : State} (inv : MachineInv s) (v : U64) : MachineInv (setDataIn v s) :=
  ⟨inv.codec, inv.stat, inv.join, inv.latch⟩

theorem MachineInv.raise {s : State} (inv : MachineInv s) {code : ErrCode} (isError : code ≠ .none) (w value pos : U64) :
    MachineInv (raise code w value pos s) :=
  ⟨inv.codec, inv.stat, inv.join, latchInv_raise isError w value pos s⟩

theorem MachineInv.clearError {s : State} (inv : MachineInv s) : MachineInv (clearError s) :=
  ⟨inv.codec, inv.stat, inv.join, latchInv_clear⟩

/-- R45: the units of a reset state are those of the starts, in the idle modes. -/
theorem machineInv_resetBlock (s : State) : MachineInv (resetBlock s) where
  codec := codecInv_start .idle
  stat := statInv_empty (mode := .idle) (by decide)
  join := joinInv_start false
  latch := latchInv_clear

theorem machineInv_reset : MachineInv State.reset := machineInv_resetBlock State.reset

theorem Performs.keeps_inv {s t : State} {i : Instr} (performs : Performs s i t) (inv : MachineInv s) :
    MachineInv t := by
  obtain ⟨codec, stat, join, latch⟩ := inv
  cases performs with
  | encStart => exact ⟨codecInv_start .enc, stat, join, latch⟩
  | encSym x _ room => exact ⟨codec.codecStep room x, stat, join, latch⟩
  | encByte b _ room => exact ⟨codec.codecStep_codecStep room _ _, stat, join, latch⟩
  | decStart => exact ⟨codecInv_start .dec, stat, join, latch⟩
  | decVal x _ room => exact ⟨codec.codecStep room x, stat, join, latch⟩
  | statStart => exact ⟨codec, statInv_empty (mode := .accum) (by decide), join, latch⟩
  | statSym x mode room => exact ⟨codec, stat.accumulate mode room x, join, latch⟩
  | statByte b mode room => exact ⟨codec, stat.accumulate_accumulate mode room _ _, join, latch⟩
  | statFinish => exact ⟨codec, stat.finish, join, latch⟩
  | split b => exact ⟨codec, stat, join, latch⟩
  | joinStart => exact ⟨codec, stat, joinInv_start true, latch⟩
  | joinSym x active room => exact ⟨by simpa, by simpa, join.joinSymbol active room x, by simpa⟩
  | joinEnd _ even => exact ⟨codec, stat, join.finish even, latch⟩

theorem Effect.keeps_inv {s t : State} {i : Instr} (effect : Effect s i t) (inv : MachineInv s) : MachineInv t := by
  cases effect with
  | unchanged => exact inv
  | softReset => exact machineInv_resetBlock s
  | errClear => exact inv.clearError
  | raised _ value pos _ isError => exact inv.raise isError _ value pos
  | performed _ performs => exact performs.keeps_inv inv

theorem executeWord_keeps_inv {w : U64} {s t : State} (inv : MachineInv s) (h : executeWord w s = .next t) :
    MachineInv t := by
  obtain rfl | ⟨-, -, rfl⟩ | ⟨i, -, effect⟩ := executeWord_cases h
  · exact inv
  · exact inv.raise (by decide) w w 0#64
  · exact effect.keeps_inv inv

theorem busAccess_keeps_inv {a : BusAccess} {s t : State} {r : BusResponse} (inv : MachineInv s)
    (h : busAccess a s = .next (r, t)) : MachineInv t := by
  obtain rfl | ⟨v, -, rfl⟩ | ⟨w, -, run⟩ := busAccess_cases h
  · exact inv
  · exact inv.setDataIn v
  · exact executeWord_keeps_inv inv run

theorem step_keeps_inv {s t : State} (inv : MachineInv s) (h : step s = .next t) : MachineInv t := by
  cases hp : s.host.pending with
  | nil => rw [step_idle hp] at h; cases h; exact inv
  | cons input rest =>
    have inv' := inv.setPending rest
    cases input with
    | hardwareReset => rw [step_reset hp] at h; cases h; exact machineInv_resetBlock _
    | access a =>
      cases ha : busAccess a (setPending rest s) with
      | next x => rw [step_access hp ha] at h; cases h; exact (busAccess_keeps_inv inv' ha).logResponse x.1
      | fault f => rw [step_access_fault hp ha] at h; cases h
      | refused f => simp only [step, hostStep, hp, ha] at h; cases h

/-- The host's view of an input keeps the invariant too: a BUS_ERROR changes no state (R141). -/
theorem respond_keeps_inv {input : HostInput} {s t : State} (inv : MachineInv s) (h : respond input s = .next t) :
    MachineInv t := by
  cases input with
  | hardwareReset => cases h; exact machineInv_resetBlock s
  | access a =>
    cases ha : busAccess a s with
    | next x => simp only [respond, ha] at h; cases h; exact (busAccess_keeps_inv inv ha).logResponse x.1
    | fault f => simp only [respond, ha] at h; cases h; exact inv.logResponse .busError
    | refused f => simp only [respond, ha] at h; cases h

theorem hostRun_keeps_inv {inputs : List HostInput} {s t : State} (inv : MachineInv s)
    (h : hostRun inputs s = .next t) : MachineInv t := by
  induction inputs generalizing s with
  | nil => cases h; exact inv
  | cons input rest ih =>
    cases hr : respond input s with
    | next u => simp only [hostRun, hr] at h; exact ih (respond_keeps_inv inv hr) h
    | fault f => simp only [hostRun, hr] at h; cases h
    | refused r => simp only [hostRun, hr] at h; cases h

end Sys2Proof.Machine

end Invariant

/-! PROOFS. The registers that are views of the state: STATUS field by field (R20) and the exact sums (R32, R33). -/

section Views

namespace Sys2Proof.Machine

theorem toNat_append_eq_add {m n : Nat} (x : BitVec m) (y : BitVec n) :
    (x ++ y).toNat = x.toNat * 2 ^ n + y.toNat := by
  rw [BitVec.toNat_append, ← Nat.shiftLeft_add_eq_or_of_lt y.isLt, Nat.shiftLeft_eq]

theorem toNat_statusLayout (opc : Byte) (prev half : Nibble) (halfValid active havePrev : BitVec 1)
    (statMode codecMode : BitVec 2) (code : BitVec 4) (err : BitVec 1) :
    (0#32 ++ opc ++ prev ++ half ++ 0#1 ++ halfValid ++ active ++ havePrev ++ statMode ++ codecMode ++ code ++ 0#3 ++
      err).toNat =
    2 ^ 24 * opc.toNat + 2 ^ 20 * prev.toNat + 2 ^ 16 * half.toNat + 2 ^ 14 * halfValid.toNat + 2 ^ 13 * active.toNat +
      2 ^ 12 * havePrev.toNat + 2 ^ 10 * statMode.toNat + 2 ^ 8 * codecMode.toNat + 2 ^ 4 * code.toNat + err.toNat := by
  simp only [toNat_append_eq_add, BitVec.toNat_ofNat]
  omega

/-- R20: STATUS as a number, each field times the weight of its lowest bit. -/
theorem statusWord_toNat (s : State) : (statusWord s).toNat =
    2 ^ 24 * s.err.opc.toNat + 2 ^ 20 * s.stat.prev.toNat + 2 ^ 16 * s.join.half.toNat +
      2 ^ 14 * (BitVec.ofBool s.join.halfValid).toNat + 2 ^ 13 * (BitVec.ofBool s.join.active).toNat +
      2 ^ 12 * (BitVec.ofBool s.stat.havePrev).toNat + 2 ^ 10 * (statModeCode s.stat.mode).toNat +
      2 ^ 8 * (codecModeCode s.codec.mode).toNat + 2 ^ 4 * (errCodeValue s.err.code).toNat +
      (BitVec.ofBool s.err.err).toNat :=
  toNat_statusLayout _ _ _ _ _ _ _ _ _ _

theorem extractLsb'_eq_of_digits {n start len : Nat} {w : BitVec n} {v : BitVec len}
    (h : w.toNat / 2 ^ start % 2 ^ len = v.toNat) : w.extractLsb' start len = v := by
  apply BitVec.eq_of_toNat_eq
  rw [BitVec.extractLsb'_toNat, Nat.shiftRight_eq_div_pow, h]

/-! ### The fields of STATUS -/

theorem readReg_status (s : State) : readReg .status s = statusWord s := rfl

theorem statusWord_err (s : State) : (statusWord s).extractLsb' 0 1 = BitVec.ofBool s.err.err :=
  extractLsb'_eq_of_digits (by rw [statusWord_toNat]; omega)

theorem statusWord_bits1to3 (s : State) : (statusWord s).extractLsb' 1 3 = 0#3 :=
  extractLsb'_eq_of_digits (by rw [statusWord_toNat, BitVec.toNat_ofNat]; omega)

theorem statusWord_code (s : State) : (statusWord s).extractLsb' 4 4 = errCodeValue s.err.code :=
  extractLsb'_eq_of_digits (by rw [statusWord_toNat]; omega)

theorem statusWord_codecMode (s : State) : (statusWord s).extractLsb' 8 2 = codecModeCode s.codec.mode :=
  extractLsb'_eq_of_digits (by rw [statusWord_toNat]; omega)

theorem statusWord_statMode (s : State) : (statusWord s).extractLsb' 10 2 = statModeCode s.stat.mode :=
  extractLsb'_eq_of_digits (by rw [statusWord_toNat]; omega)

theorem statusWord_havePrev (s : State) : (statusWord s).extractLsb' 12 1 = BitVec.ofBool s.stat.havePrev :=
  extractLsb'_eq_of_digits (by rw [statusWord_toNat]; omega)

theorem statusWord_active (s : State) : (statusWord s).extractLsb' 13 1 = BitVec.ofBool s.join.active :=
  extractLsb'_eq_of_digits (by rw [statusWord_toNat]; omega)

theorem statusWord_halfValid (s : State) : (statusWord s).extractLsb' 14 1 = BitVec.ofBool s.join.halfValid :=
  extractLsb'_eq_of_digits (by rw [statusWord_toNat]; omega)

theorem statusWord_bit15 (s : State) : (statusWord s).extractLsb' 15 1 = 0#1 :=
  extractLsb'_eq_of_digits (by rw [statusWord_toNat, BitVec.toNat_ofNat]; omega)

theorem statusWord_half (s : State) : (statusWord s).extractLsb' 16 4 = s.join.half :=
  extractLsb'_eq_of_digits (by rw [statusWord_toNat]; omega)

theorem statusWord_prev (s : State) : (statusWord s).extractLsb' 20 4 = s.stat.prev :=
  extractLsb'_eq_of_digits (by rw [statusWord_toNat]; omega)

theorem statusWord_opc (s : State) : (statusWord s).extractLsb' 24 8 = s.err.opc :=
  extractLsb'_eq_of_digits (by rw [statusWord_toNat]; omega)

theorem statusWord_upperHalf (s : State) : (statusWord s).extractLsb' 32 32 = 0#32 :=
  extractLsb'_eq_of_digits (by rw [statusWord_toNat, BitVec.toNat_ofNat]; omega)

theorem ofBool_eq_ite (b : Bool) : BitVec.ofBool b = if b then 1#1 else 0#1 := by cases b <;> rfl

theorem statusWord_resetBlock (s : State) : statusWord (resetBlock s) = 0#64 := by
  have reset : statusWord State.reset = 0#64 := by decide
  exact reset

/-! ### The sums -/

/-- R32: T fits 64 bits, so STAT_T reads it exactly. -/
theorem StatInv.total_lt {u : StatUnit} (inv : StatInv u) : total u.n < 2 ^ 64 := by
  have transitions := inv.transitions
  omega

theorem readReg_statT_toNat {s : State} (inv : StatInv s.stat) : (readReg .statT s).toNat = total s.stat.n :=
  Nat.mod_eq_of_lt inv.total_lt

theorem readReg_rowSum_toNat {s : State} (inv : StatInv s.stat) (a : Nibble) :
    (readReg (.rowSum a) s).toNat = rowTotal s.stat.n a :=
  Nat.mod_eq_of_lt ((rowTotal_le_total s.stat.n a).trans_lt inv.total_lt)

end Sys2Proof.Machine

end Views

/-! PROOFS. The statements about the state and its registers (10_state.md). -/

section StateStatements

namespace Sys2Proof.Proofs

open Sys2Proof.Machine

/-- Settles O60: each input has one of the effects of `busAccess_cases` and `executeWord_cases`, and the operations of
each unit keep that unit's invariant. -/
theorem stepKeepsTheInvariant : Obligations.StepKeepsTheInvariant := by
  unfold Obligations.StepKeepsTheInvariant
  exact fun s t => step_keeps_inv

/-- Settles O11: the offsets and the map are inverse to each other, range by range. -/
theorem registerMapIsOneToOne : Obligations.RegisterMapIsOneToOne := by
  unfold Obligations.RegisterMapIsOneToOne
  refine ⟨fun r => ⟨regAt_regOffset r, assignedOffset_regOffset r⟩, fun off => exists_regAt, fun off => regAt_eq_none,
    by decide, fun a b => ⟨regOffset_cnt_toNat a, regOffset_rowSum_toNat a, ?_, ?_, ?_⟩⟩
  · exact regOffset_n_toNat a b
  · exact regOffset_pj_toNat a b
  · exact regOffset_pc_toNat a b

/-- Settles O15: each field of STATUS is cut out of the number of `statusWord_toNat`. -/
theorem statusShowsTheFields : Obligations.StatusShowsTheFields := by
  unfold Obligations.StatusShowsTheFields
  refine ⟨by decide, statusWord_resetBlock State.reset, fun s => ?_⟩
  rw [readReg_status]
  intro w
  refine ⟨(statusWord_err s).trans (ofBool_eq_ite _), statusWord_bits1to3 s, ?code, ?codecMode, ?statMode,
    (statusWord_havePrev s).trans (ofBool_eq_ite _), (statusWord_active s).trans (ofBool_eq_ite _),
    (statusWord_halfValid s).trans (ofBool_eq_ite _), statusWord_bit15 s, statusWord_half s, statusWord_prev s,
    statusWord_opc s, statusWord_upperHalf s⟩
  case code => rw [statusWord_code]; cases s.err.code <;> rfl
  case codecMode => rw [statusWord_codecMode]; cases s.codec.mode <;> rfl
  case statMode => rw [statusWord_statMode]; cases s.stat.mode <;> rfl

/-- Settles O16: in a state of the invariant the sums fit 64 bits. -/
theorem sumRegistersReadExactSums : Obligations.SumRegistersReadExactSums := by
  unfold Obligations.SumRegistersReadExactSums
  intro s a inv
  rw [readReg_statT_toNat inv.stat, readReg_rowSum_toNat inv.stat]
  exact ⟨rfl, rfl, inv.stat.transitions⟩

/-- Settles O27, from the inversion of the access and of the command it executes. -/
theorem eachPartChangesOnlyByItsOwnInputs : Obligations.EachPartChangesOnlyByItsOwnInputs := by
  unfold Obligations.EachPartChangesOnlyByItsOwnInputs
  intro a s t r h
  obtain same | dataIn | ⟨w, rfl, run⟩ := busAccess_cases h
  · exact .inl same
  · exact .inr (.inl dataIn)
  obtain same | ⟨illegal, noError, rfl⟩ | ⟨i, command, effect⟩ := executeWord_cases run
  · exact .inl same
  · exact .inr (.inr (.inl ⟨w, rfl, illegal, noError, rfl⟩))
  refine .inr (.inr (.inr ⟨w, i, rfl, command, effect.host, ?_, ?_, ?_, ?_, ?_, ?_, effect.latched_err_changed⟩))
  · exact effect.changed_by (part := State.codec) (fun _ => rfl) Performs.codec_or_unit
  · exact effect.changed_by (part := State.stat) (fun _ => rfl) Performs.stat_or_unit
  · exact effect.changed_by (part := State.join) (fun _ => rfl) Performs.join_or_unit
  · exact fun changed => (effect.changed_by (part := fun s => s.port.dataIn) (Writer := False) (fun _ => rfl)
      (fun performs => .inl performs.dataIn) changed).resolve_right id
  · exact effect.changed_by (part := fun s => s.port.dataOut0) (fun _ => rfl) Performs.dataOut0_or_writes
  · exact effect.changed_by (part := fun s => s.port.dataOut1) (fun _ => rfl) Performs.dataOut1_or_writes

/-- Settles O46: reset meets the invariant and every input keeps it. -/
theorem countersStayDistinctOnEveryRun : Obligations.CountersStayDistinctOnEveryRun := by
  unfold Obligations.CountersStayDistinctOnEveryRun
  intro inputs t run
  have inv := (hostRun_keeps_inv machineInv_reset run).codec
  exact ⟨inv.distinct, inv.bounded⟩

/-- Settles O14: both offsets are those of the map, and neither register looks at the state. -/
theorem constantRegistersReadTheirConstants : Obligations.ConstantRegistersReadTheirConstants := by
  unfold Obligations.ConstantRegistersReadTheirConstants
  exact ⟨regAt_regOffset .id, regAt_regOffset .hMax, fun s => ⟨rfl, rfl⟩⟩

/-- The three kinds of reset state of O18 are one: a state whose block is reset. -/
theorem exists_resetBlock {t : State} (h : t = State.reset ∨ (∃ s, exec .softReset s = .next t) ∨
    ∃ s rest, s.host.pending = .hardwareReset :: rest ∧ step s = .next t) : ∃ s, t = resetBlock s := by
  obtain rfl | ⟨s, run⟩ | ⟨s, rest, pending, run⟩ := h
  · exact ⟨State.reset, rfl⟩
  · rw [exec_softReset] at run; cases run; exact ⟨s, rfl⟩
  · rw [step_reset pending] at run; cases run; exact ⟨setPending rest s, rfl⟩

/-- Settles O18: the block of every reset state is that of State.reset, whose counts are all 0. -/
theorem resetValues : Obligations.ResetValues := by
  unfold Obligations.ResetValues
  intro t h
  obtain ⟨s, rfl⟩ := exists_resetBlock h
  have row_zero (a : Nibble) : rowTotal (resetBlock s).stat.n a = 0 := rowTotal_zeroCounts a
  have total_zero : total (resetBlock s).stat.n = 0 := total_zeroCounts
  refine ⟨fun x => ?_, rfl, rfl, zeroCounts_at, rfl, rfl, rfl, rfl, rfl, rfl, rfl, rfl, rfl, rfl, rfl, rfl, rfl, rfl,
    rfl, rfl, rfl, rfl, rfl, rfl, rfl, statusWord_resetBlock s, ?_, fun a b => ⟨?_, ?_, ?_⟩⟩
  · simp [State.reset]; omega
  · rw [readReg, total_zero]
  · rw [readReg, row_zero]
  · rw [readReg_pj, total_zero, countQuotient_zero_right]
  · rw [readReg_pc, row_zero, countQuotient_zero_right]

/-- Settles O59: no unit has done anything after reset. -/
theorem resetSatisfiesTheInvariant : Obligations.ResetSatisfiesTheInvariant := by
  unfold Obligations.ResetSatisfiesTheInvariant
  exact machineInv_reset

end Sys2Proof.Proofs

end StateStatements

/-! PROOFS. The register port (20_memory.md R46 to R51): every command completes, and what the port answers to each kind
of access. -/

section Port

namespace Sys2Proof.Machine

/-! ### Every command completes -/

theorem dispatch_completes (w : U64) (c : Checks) (perform : State → State) (s : State) :
    ∃ t, dispatch w c perform s = .next t := by
  obtain ⟨-, ends⟩ | ⟨-, -, ends⟩ | ⟨-, -, -, ends⟩ | ⟨e, -, -, -, -, ends⟩ | ⟨-, -, -, -, ends⟩ :=
    dispatch_cases w c perform s
  all_goals exact ⟨_, ends⟩

theorem exec_completes (i : Instr) (s : State) : ∃ t, exec i s = .next t := by
  cases i with
  | nop | softReset | errClear => exact ⟨_, rfl⟩
  | _ =>
    simp only [exec_encStart, exec_encSym, exec_encByte, exec_decStart, exec_decVal, exec_statStart, exec_statSym,
      exec_statByte, exec_statFinish, exec_split, exec_joinStart, exec_joinSym, exec_joinEnd, dispatch_completes]

theorem exec_host {i : Instr} {s t : State} (h : exec i s = .next t) : t.host = s.host := (exec_effect h).host

theorem executeWord_completes (w : U64) (s : State) : ∃ t, executeWord w s = .next t := by
  cases hw : decode w with
  | ok i => rw [executeWord_ok s hw]; exact exec_completes i s
  | error e => rw [executeWord_illegal s hw]; split <;> exact ⟨_, rfl⟩

/-! ### The accesses that get BUS_ERROR -/

theorem busAccess_malformed {a : BusAccess} (malformed : a.wellFormed = false) (s : State) :
    busAccess a s = .fault (.malformedAccess a) := by
  simp [busAccess, malformed]

theorem busAccess_read_reserved {off : Offset} (multiple : off.toNat % 8 = 0) (reserved : regAt off = none)
    (s : State) : busAccess (.read off 8) s = .fault (.reservedOffset (.read off 8)) := by
  simp [busAccess, BusAccess.wellFormed, (aligned_iff off).mpr multiple, reserved]

theorem busAccess_write_reserved {off : Offset} (multiple : off.toNat % 8 = 0) (reserved : regAt off = none) (v : U64)
    (s : State) : busAccess (.write off 8 v) s = .fault (.reservedOffset (.write off 8 v)) := by
  simp [busAccess, BusAccess.wellFormed, (aligned_iff off).mpr multiple, reserved]

theorem writeReg_readOnly {r : Reg} (not_dataIn : r ≠ .dataIn) (not_cmd : r ≠ .cmd) (a : BusAccess) (v : U64)
    (s : State) : writeReg a r v s = .fault (.readOnlyRegister a) := by
  cases r with
  | dataIn => exact absurd rfl not_dataIn
  | cmd => exact absurd rfl not_cmd
  | _ => rfl

/-- R43, R51 (c): every assigned offset but those of CMD and DATA_IN is read-only. -/
theorem busAccess_write_readOnly {off : Offset} (assigned : assignedOffset off.toNat) (not_dataIn : off.toNat ≠ 0x0018)
    (not_cmd : off.toNat ≠ 0x0010) (v : U64) (s : State) :
    busAccess (.write off 8 v) s = .fault (.readOnlyRegister (.write off 8 v)) := by
  obtain ⟨r, hr, rfl⟩ := exists_regAt assigned
  have readOnly := writeReg_readOnly (r := r) (by rintro rfl; exact not_dataIn rfl) (by rintro rfl; exact not_cmd rfl)
  simp [busAccess, BusAccess.wellFormed, (aligned_iff _).mpr assigned.1, hr, readOnly]

/-! ### Which accesses are answered -/

theorem busAccess_of_admitted {a : BusAccess} (admitted : Admitted a) (s : State) :
    ∃ r t, busAccess a s = .next (r, t) := by
  cases a with
  | read off size =>
    obtain ⟨rfl, assigned⟩ := admitted
    obtain ⟨r, hr, -⟩ := exists_regAt assigned
    exact ⟨_, _, busAccess_read s ((aligned_iff off).mpr assigned.1) hr⟩
  | write off size v =>
    obtain ⟨rfl, cmd | dataIn⟩ := admitted
    · obtain rfl : off = 0x0010#13 := BitVec.eq_of_toNat_eq cmd
      obtain ⟨t, run⟩ := executeWord_completes v s
      exact ⟨_, _, busAccess_cmd run⟩
    · obtain rfl : off = 0x0018#13 := BitVec.eq_of_toNat_eq dataIn
      exact ⟨_, _, busAccess_dataIn v s⟩

theorem wellFormed_read_iff (off : Offset) (size : Nat) :
    (BusAccess.read off size).wellFormed = true ↔ size = 8 ∧ off.toNat % 8 = 0 := by
  simp [BusAccess.wellFormed, aligned_iff]

/-- R48, R51: an access that is not admitted is malformed, at a reserved offset, or a write of a read-only register. -/
theorem busAccess_of_not_admitted {a : BusAccess} (not_admitted : ¬ Admitted a) (s : State) :
    ∃ f, busAccess a s = .fault f := by
  cases wf : a.wellFormed with
  | false => exact ⟨_, busAccess_malformed wf s⟩
  | true =>
    cases a with
    | read off size =>
      obtain ⟨rfl, multiple⟩ := (wellFormed_read_iff off size).mp wf
      have reserved := regAt_eq_none multiple fun assigned => not_admitted ⟨rfl, assigned⟩
      exact ⟨_, busAccess_read_reserved multiple reserved s⟩
    | write off size v =>
      obtain ⟨rfl, multiple⟩ := write_wellFormed wf
      by_cases assigned : assignedOffset off.toNat
      · have not_dataIn : off.toNat ≠ 0x0018 := fun dataIn => not_admitted ⟨rfl, .inr dataIn⟩
        have not_cmd : off.toNat ≠ 0x0010 := fun cmd => not_admitted ⟨rfl, .inl cmd⟩
        exact ⟨_, busAccess_write_readOnly assigned not_dataIn not_cmd v s⟩
      · exact ⟨_, busAccess_write_reserved multiple (regAt_eq_none multiple assigned) v s⟩

/-! ### The host's view of an access -/

theorem respond_answered {a : BusAccess} {r : BusResponse} {s t : State} (h : busAccess a s = .next (r, t)) :
    respond (.access a) s = .next (logResponse r t) := by
  simp [respond, h]

theorem respond_fault {a : BusAccess} {f : Fault} {s : State} (h : busAccess a s = .fault f) :
    respond (.access a) s = .next (logResponse .busError s) := by
  simp [respond, h]

end Sys2Proof.Machine

end Port

/-! PROOFS. The statements about the port (20_memory.md R46 to R51). -/

section PortStatements

namespace Sys2Proof.Proofs

open Sys2Proof.Machine

/-- Settles O7: every outcome of the dispatch is a next state, and no effect touches the host's side. -/
theorem everyCommandCompletes : Obligations.EveryCommandCompletes := by
  unfold Obligations.EveryCommandCompletes
  intro i s
  obtain ⟨t, run⟩ := exec_completes i s
  exact ⟨t, run, exec_host run⟩

/-- Settles O6: the access is the write of CMD, which executes the decoded command. -/
theorem stepRunsDecodedCommand : Obligations.StepRunsDecodedCommand := by
  unfold Obligations.StepRunsDecodedCommand
  intro s w rest i pending command
  obtain ⟨t, run⟩ := exec_completes i (setPending rest s)
  have answered := busAccess_cmd ((executeWord_ok _ command).trans run)
  exact ⟨t, run, exec_host run, step_access pending answered⟩

/-- Settles O8: the admitted accesses are answered, and each other one has a reason to fault, in every state. -/
theorem busErrorExactlyOnAccessesNotAdmitted : Obligations.BusErrorExactlyOnAccessesNotAdmitted := by
  unfold Obligations.BusErrorExactlyOnAccessesNotAdmitted
  intro s a rest pending
  constructor
  · intro admitted
    obtain ⟨r, t, answered⟩ := busAccess_of_admitted admitted (setPending rest s)
    exact ⟨_, step_access pending answered⟩
  · intro not_admitted
    obtain ⟨f, fault⟩ := busAccess_of_not_admitted not_admitted (setPending rest s)
    obtain ⟨g, seen⟩ := busAccess_of_not_admitted not_admitted s
    exact ⟨⟨f, step_access_fault pending fault⟩, respond_fault seen⟩

/-- Settles O9: the step and the host's transition differ only on a fault, which no admitted access has. -/
theorem stepIsTheHostsTransition : Obligations.StepIsTheHostsTransition := by
  unfold Obligations.StepIsTheHostsTransition
  intro s input rest pending admitted
  cases input with
  | hardwareReset => exact step_reset pending
  | access a =>
    obtain ⟨r, t, answered⟩ := busAccess_of_admitted (admitted a rfl) (setPending rest s)
    rw [step_access pending answered, respond_answered answered]

/-- Settles O12: an assigned offset holds the register of that offset, and a read of it is answered from the state. -/
theorem readReturnsRegisterAndChangesNothing : Obligations.ReadReturnsRegisterAndChangesNothing := by
  unfold Obligations.ReadReturnsRegisterAndChangesNothing
  intro s
  refine ⟨fun off assigned => ?_, rfl, rfl, rfl, rfl, rfl, rfl, fun _ => rfl, rfl, rfl, fun _ _ => rfl, rfl, rfl, rfl,
    rfl, rfl⟩
  obtain ⟨r, hr, offset⟩ := exists_regAt assigned
  refine ⟨r, offset, busAccess_read s ((aligned_iff off).mpr assigned.1) hr, ?_⟩
  rintro rfl
  obtain rfl : Reg.cmd = r := Option.some.inj ((regAt_regOffset .cmd).symm.trans hr)
  rfl

/-- Settles O13: the two writable registers, the read-only ones and the reserved offsets, in this order. -/
theorem registerWritesFollowTheMap : Obligations.RegisterWritesFollowTheMap := by
  unfold Obligations.RegisterWritesFollowTheMap
  intro s off v
  refine ⟨fun dataIn => ?_, fun cmd => ?_, fun assigned not_dataIn not_cmd => ?_, fun multiple unassigned => ?_⟩
  · obtain rfl : off = 0x0018#13 := BitVec.eq_of_toNat_eq dataIn
    exact busAccess_dataIn v s
  · obtain rfl : off = 0x0010#13 := BitVec.eq_of_toNat_eq cmd
    obtain ⟨t, run⟩ := executeWord_completes v s
    exact ⟨t, run, busAccess_cmd run⟩
  · have fault := busAccess_write_readOnly assigned not_dataIn not_cmd v s
    exact ⟨⟨_, fault⟩, respond_fault fault⟩
  · have reserved := regAt_eq_none multiple unassigned
    have write := busAccess_write_reserved multiple reserved v s
    have read := busAccess_read_reserved multiple reserved s
    exact ⟨⟨_, _, write, read⟩, respond_fault write, respond_fault read⟩

end Sys2Proof.Proofs

end PortStatements

/-! PROOFS. The archive as a list of bytes (R62 to R64): the word of eight bytes is the inverse of bytes8, and the words
of a file are those of its successive groups of eight bytes. -/

section ArchiveFormat

namespace Sys2Proof.Machine

/-! ### Eight bytes -/

/-- The word of the bytes 8i to 8i + 7 of a file, as a number (R63, R64). -/
def wordValue (order : ByteOrder) (file : List Byte) (i : Nat) : Nat :=
  ((List.range 8).map fun j => (file.getD (8 * i + j) 0).toNat * byteWeight order j).sum

/-- R63: the two orders read the same bytes in reverse of each other. -/
theorem wordOf8_be (a b c d e f g h : Byte) : wordOf8 .be a b c d e f g h = wordOf8 .le h g f e d c b a := rfl

theorem wordOf8_le_toNat (a b c d e f g h : Byte) : (wordOf8 .le a b c d e f g h).toNat =
    a.toNat + 256 ^ 1 * b.toNat + 256 ^ 2 * c.toNat + 256 ^ 3 * d.toNat + 256 ^ 4 * e.toNat + 256 ^ 5 * f.toNat +
      256 ^ 6 * g.toNat + 256 ^ 7 * h.toNat := by
  simp only [wordOf8, toNat_append_eq_add]
  omega

theorem wordValue_zero (order : ByteOrder) (a b c d e f g h : Byte) (rest : List Byte) :
    wordValue order (a :: b :: c :: d :: e :: f :: g :: h :: rest) 0 =
      a.toNat * byteWeight order 0 + (b.toNat * byteWeight order 1 + (c.toNat * byteWeight order 2 +
        (d.toNat * byteWeight order 3 + (e.toNat * byteWeight order 4 + (f.toNat * byteWeight order 5 +
          (g.toNat * byteWeight order 6 + (h.toNat * byteWeight order 7 + 0))))))) := rfl

theorem wordOf8_toNat (order : ByteOrder) (a b c d e f g h : Byte) (rest : List Byte) :
    (wordOf8 order a b c d e f g h).toNat = wordValue order (a :: b :: c :: d :: e :: f :: g :: h :: rest) 0 := by
  rw [wordValue_zero]
  cases order with
  | le => rw [wordOf8_le_toNat]; simp only [byteWeight]; omega
  | be => rw [wordOf8_be, wordOf8_le_toNat]; simp only [byteWeight]; omega

theorem wordValue_succ (order : ByteOrder) (a b c d e f g h : Byte) (rest : List Byte) (i : Nat) :
    wordValue order (a :: b :: c :: d :: e :: f :: g :: h :: rest) (i + 1) = wordValue order rest i := by
  simp only [wordValue, Nat.mul_add, Nat.add_right_comm _ (8 * 1)]
  rfl

/-- The bytes of a word, concatenated from the most significant on, are the word. -/
theorem wordOf8_bytes (v : U64) :
    wordOf8 .le (v.extractLsb' 0 8) (v.extractLsb' 8 8) (v.extractLsb' 16 8) (v.extractLsb' 24 8) (v.extractLsb' 32 8)
      (v.extractLsb' 40 8) (v.extractLsb' 48 8) (v.extractLsb' 56 8) = v := by
  apply BitVec.eq_of_toNat_eq
  simp only [wordOf8_le_toNat, BitVec.extractLsb'_toNat, Nat.shiftRight_eq_div_pow]
  omega

theorem fileWords_cons8 (order : ByteOrder) (a b c d e f g h : Byte) (rest : List Byte) :
    fileWords order (a :: b :: c :: d :: e :: f :: g :: h :: rest) =
      (fileWords order rest).map (wordOf8 order a b c d e f g h :: ·) := by
  rw [fileWords]
  cases fileWords order rest <;> rfl

/-- bytes8 and wordOf8 are inverse to each other under both orders (R63, R64). -/
theorem fileWords_bytes8_append (order : ByteOrder) (v : U64) (rest : List Byte) :
    fileWords order (bytes8 order v ++ rest) = (fileWords order rest).map (v :: ·) := by
  cases order with
  | le => exact (fileWords_cons8 .le _ _ _ _ _ _ _ _ rest).trans (by rw [wordOf8_bytes])
  | be => exact (fileWords_cons8 .be _ _ _ _ _ _ _ _ rest).trans (by rw [wordOf8_be, wordOf8_bytes])

theorem length_bytes8 (order : ByteOrder) (v : U64) : (bytes8 order v).length = 8 := by cases order <;> rfl

/-! ### A file -/

theorem fileWords_packWords (order : ByteOrder) (words : List U64) :
    fileWords order (packWords order words) = some words := by
  induction words with
  | nil => rfl
  | cons v words ih =>
    have cons : packWords order (v :: words) = bytes8 order v ++ packWords order words := rfl
    rw [cons, fileWords_bytes8_append, ih, Option.map_some]

theorem length_packWords (order : ByteOrder) (words : List U64) :
    (packWords order words).length = 8 * words.length := by
  simp [packWords, length_bytes8, List.length_flatMap, Nat.mul_comm]

/-- R64: a file whose length is not a multiple of 8 has no words. -/
theorem fileWords_malformed (order : ByteOrder) {file : List Byte} (malformed : file.length % 8 ≠ 0) :
    fileWords order file = none := by
  induction file using fileWords.induct order with
  | case1 => exact absurd rfl malformed
  | case2 a b c d e f g h rest _ _ ih | case3 a b c d e f g h rest _ ih =>
    rw [fileWords_cons8, ih (by simp only [List.length_cons] at malformed; omega), Option.map_none]
  | case4 a rest short => rw [fileWords]; exact short

theorem exists_cons8 {file : List Byte} (long : 8 ≤ file.length) :
    ∃ a b c d e f g h rest, file = a :: b :: c :: d :: e :: f :: g :: h :: rest := by
  match file, long with
  | a :: b :: c :: d :: e :: f :: g :: h :: rest, _ => exact ⟨a, b, c, d, e, f, g, h, rest, rfl⟩

/-- R64: a file of n groups of eight bytes has n words, the values of the groups. -/
theorem fileWords_of_length (order : ByteOrder) {file : List Byte} {n : Nat} (length : file.length = 8 * n) :
    ∃ words, fileWords order file = some words ∧
      words.map BitVec.toNat = (List.range n).map (wordValue order file) := by
  induction n generalizing file with
  | zero =>
    obtain rfl := List.eq_nil_of_length_eq_zero length
    exact ⟨[], rfl, rfl⟩
  | succ n ih =>
    obtain ⟨a, b, c, d, e, f, g, h, rest, rfl⟩ := exists_cons8 (file := file) (by omega)
    obtain ⟨words, read, values⟩ := ih (file := rest) (by simp only [List.length_cons] at length; omega)
    refine ⟨_, by rw [fileWords_cons8, read, Option.map_some], ?_⟩
    rw [List.map_cons, values, wordOf8_toNat order a b c d e f g h rest, List.range_succ_eq_map, List.map_cons,
      List.map_map]
    exact congrArg (_ :: ·) (List.map_congr_left fun i _ => (wordValue_succ order a b c d e f g h rest i).symm)

end Sys2Proof.Machine

end ArchiveFormat

/-! PROOFS. The decoder takes the word of every command back to the command (R72, R73). -/

section DecodeOfEncode

namespace Sys2Proof

theorem decodeF0_encode {i : Instr} (noOperand : operandValue i = 0) : decodeF0 (encode i) i = .ok i := by
  have low := (opcode i).isLt
  have upper : (encode i).extractLsb' 8 56 = 0#56 :=
    Machine.extractLsb'_eq_of_digits (by rw [encode_toNat, noOperand, BitVec.toNat_ofNat]; omega)
  rw [decodeF0, if_pos upper]

theorem decodeFS_encode {i : Instr} {x : Nibble} (operand : operandValue i = x.toNat) (command : Nibble → Instr) :
    decodeFS (encode i) command = .ok (command x) := by
  have low := (opcode i).isLt
  have upper : (encode i).extractLsb' 12 52 = 0#52 :=
    Machine.extractLsb'_eq_of_digits (by rw [encode_toNat, operand, BitVec.toNat_ofNat]; omega)
  have field : symField (encode i) = x :=
    BitVec.eq_of_toNat_eq (by rw [symField_toNat, encode_toNat, operand]; omega)
  rw [decodeFS, if_pos upper, field]

theorem decodeFB_encode {i : Instr} {b : Byte} (operand : operandValue i = b.toNat) (command : Byte → Instr) :
    decodeFB (encode i) command = .ok (command b) := by
  have low := (opcode i).isLt
  have upper : (encode i).extractLsb' 16 48 = 0#48 :=
    Machine.extractLsb'_eq_of_digits (by rw [encode_toNat, operand, BitVec.toNat_ofNat]; omega)
  have field : byteField (encode i) = b :=
    BitVec.eq_of_toNat_eq (by rw [byteField_toNat, encode_toNat, operand]; omega)
  rw [decodeFB, if_pos upper, field]

/-- R72, R73: each command's word is in the row of its OPC, with its operand. -/
theorem decode_encode (i : Instr) : decode (encode i) = .ok i := by
  rw [decode, opcField_encode]
  cases i with
  | encSym x => exact decodeFS_encode rfl .encSym
  | statSym x => exact decodeFS_encode rfl .statSym
  | joinSym x => exact decodeFS_encode rfl .joinSym
  | encByte b => exact decodeFB_encode rfl .encByte
  | statByte b => exact decodeFB_encode rfl .statByte
  | split b => exact decodeFB_encode rfl .split
  | _ => exact decodeF0_encode rfl

end Sys2Proof

end DecodeOfEncode

/-! PROOFS. The source's codec (R98, R99, R111): its counters stay distinct, so decode inverts encode, and its codes
stay below 2^64 within LEN_LIMIT. -/

section SourceCodec

namespace Sys2Proof.Machine

theorem sourceInit_injective : Function.Injective sourceInit := fun _ _ => BitVec.eq_of_toNat_eq

/-- R100: the zero of the chosen symbol is below every aged counter. -/
theorem sourceUpdate_injective {c : Nibble → Nat} (distinct : Function.Injective c) (x : Nibble) :
    Function.Injective (sourceUpdate c x) := by
  intro a b h
  unfold sourceUpdate at h
  split_ifs at h with ha hb hb
  · rw [ha, hb]
  · exact distinct (Nat.succ.inj h)

theorem sourceUpdate_le {c : Nibble → Nat} {bound : Nat} (bounded : ∀ y, c y ≤ bound) (x y : Nibble) :
    sourceUpdate c x y ≤ bound + 1 := by
  have := bounded y
  unfold sourceUpdate
  split <;> omega

theorem find_counter {c : Nibble → Nat} (distinct : Function.Injective c) (x : Nibble) :
    (allSymbols.find? fun t => c t == c x) = some x := by
  cases h : allSymbols.find? fun t => c t == c x with
  | none => exact absurd (beq_self_eq_true (c x)) (List.find?_eq_none.mp h x (mem_allSymbols x))
  | some y =>
    have same := List.find?_some h
    rw [distinct (eq_of_beq same)]

theorem decodeFrom_cons_found {c : Nibble → Nat} {v : Nat} {x : Nibble}
    (found : (allSymbols.find? fun t => c t == v) = some x) (position : Nat) (rest : List Nat) :
    decodeFrom c position (v :: rest) = (decodeFrom (sourceUpdate c x) (position + 1) rest).map (x :: ·) := by
  simp only [decodeFrom, found]
  cases decodeFrom (sourceUpdate c x) (position + 1) rest <;> rfl

theorem decodeFrom_cons_missing {c : Nibble → Nat} {v : Nat} (missing : (allSymbols.find? fun t => c t == v) = none)
    (position : Nat) (rest : List Nat) : decodeFrom c position (v :: rest) = .error (.corruptStream v position) := by
  simp only [decodeFrom, missing]

/-- R111: from any distinct counters, each code is the counter of one symbol alone. -/
theorem decodeFrom_encodeFrom {c : Nibble → Nat} (distinct : Function.Injective c) (position : Nat)
    (seq : List Nibble) : decodeFrom c position (encodeFrom c seq) = .ok seq := by
  induction seq generalizing c position with
  | nil => rfl
  | cons x rest ih =>
    rw [encodeFrom, decodeFrom_cons_found (find_counter distinct x), ih (sourceUpdate_injective distinct x)]
    rfl

theorem sourceDecode_sourceEncode (seq : List Nibble) : sourceDecode (sourceEncode seq) = .ok seq :=
  decodeFrom_encodeFrom sourceInit_injective 0 seq

theorem length_encodeFrom (c : Nibble → Nat) (seq : List Nibble) : (encodeFrom c seq).length = seq.length := by
  induction seq generalizing c with
  | nil => rfl
  | cons x rest ih => rw [encodeFrom, List.length_cons, List.length_cons, ih]

/-- R101: a step raises the bound of the counters, and so of the codes, by one. -/
theorem encodeFrom_lt {c : Nibble → Nat} {bound : Nat} (bounded : ∀ y, c y ≤ bound) (seq : List Nibble) :
    ∀ v ∈ encodeFrom c seq, v < bound + seq.length := by
  induction seq generalizing c bound with
  | nil => simp [encodeFrom]
  | cons x rest ih =>
    intro v hv
    obtain rfl | later := List.mem_cons.mp hv
    · have := bounded x
      rw [List.length_cons]
      omega
    · have := ih (sourceUpdate_le bounded x) v later
      rw [List.length_cons]
      omega

theorem sourceEncode_lt {seq : List Nibble} (limit : seq.length ≤ 2 ^ 64 - 16) :
    ∀ v ∈ sourceEncode seq, v < 2 ^ 64 := by
  intro v hv
  have := encodeFrom_lt (c := sourceInit) (bound := 15) (fun y => by unfold sourceInit; omega) seq v hv
  omega

end Sys2Proof.Machine

end SourceCodec

/-! PROOFS. The codec unit as the source's codec (R98 to R100, R107): the numbers its counters hold are the source's
counters as long as it has room below LEN_LIMIT. -/

section CodecRefinement

namespace Sys2Proof.Machine

/-- The counters of the unit as the source's counters. -/
def counterValues (u : CodecUnit) : Nibble → Nat := fun x => (bankGet u.cnt x).toNat

/-- The unit is in a mode, meets its invariant and has room for some more steps (R22, R29, R101). -/
structure CodecReady (mode : CodecMode) (steps : Nat) (u : CodecUnit) : Prop where
  mode : u.mode = mode
  inv : CodecInv u
  room : u.pos.toNat + steps ≤ Config.lenLimit.toNat

theorem codecReady_start (mode : CodecMode) {steps : Nat} (limit : steps ≤ 2 ^ 64 - 16) :
    CodecReady mode steps (startCodec mode) where
  mode := rfl
  inv := codecInv_start mode
  room := by rw [lenLimit_toNat]; simpa [startCodec] using limit

theorem counterValues_startCodec (mode : CodecMode) : counterValues (startCodec mode) = sourceInit := by
  funext x
  have symbol_small : x.toNat < 2 ^ 64 := x.isLt.trans (by decide)
  simp only [counterValues, startCodec, initialCounters_get, BitVec.toNat_setWidth]
  exact Nat.mod_eq_of_lt symbol_small

theorem ofNat_counterValues (u : CodecUnit) (x : Nibble) : BitVec.ofNat 64 (counterValues u x) = bankGet u.cnt x := by
  rw [counterValues, BitVec.ofNat_toNat, BitVec.setWidth_eq]

/-- R107: the lookup of the unit is the search of the source. -/
theorem lookup_eq_find (u : CodecUnit) (v : U64) :
    lookup u.cnt v = allSymbols.find? fun t => counterValues u t == v.toNat := by
  rw [lookup, matchSet, List.head?_filter]
  congr 1
  funext t
  rw [counterValues, Bool.eq_iff_iff, beq_iff_eq, beq_iff_eq, BitVec.toNat_inj]

section Step

variable {mode : CodecMode} {steps : Nat} {u : CodecUnit}

theorem CodecReady.room_one (ready : CodecReady mode (steps + 1) u) : u.pos.toNat < Config.lenLimit.toNat := by
  have := ready.room
  omega

theorem CodecReady.step (ready : CodecReady mode (steps + 1) u) (x : Nibble) :
    CodecReady mode steps (codecStep u x) where
  mode := ready.mode
  inv := ready.inv.codecStep ready.room_one x
  room := by
    have := ready.room
    rw [codecStep_pos, toNat_add_one_of_room ready.room_one]
    omega

/-- R100: one step of the unit is one update of the source's counters; none of them wraps. -/
theorem CodecReady.counterValues_step (ready : CodecReady mode (steps + 1) u) (x : Nibble) :
    counterValues (codecStep u x) = sourceUpdate (counterValues u) x := by
  funext y
  simp only [counterValues, sourceUpdate, codecStep_cnt, updateCounters_get]
  split
  · rfl
  · exact ready.inv.toNat_add_one ready.room_one y

end Step

end Sys2Proof.Machine

end CodecRefinement

/-! PROOFS. Runs of accesses (R161): the responses of one access after the other, then of the accesses that ENC_SYM,
ENC_BYTE and DEC_VAL expand to (R78, R79). -/

section AccessRuns

namespace Sys2Proof.Machine

/-! ### One access -/

theorem respond_cmd {i : Instr} {s t : State} (run : exec i s = .next t) :
    respond (.access (wr .cmd (encode i))) s = .next (logResponse .ok t) :=
  respond_answered (busAccess_cmd ((executeWord_ok s (decode_encode i)).trans run))

theorem respond_dataIn (v : U64) (s : State) :
    respond (.access (wr .dataIn v)) s = .next (logResponse .ok (setDataIn v s)) :=
  respond_answered (busAccess_dataIn v s)

theorem respond_read (r : Reg) (s : State) :
    respond (.access (rd r)) s = .next (logResponse (.data (readReg r s)) s) :=
  respond_answered (busAccess_read s ((aligned_iff _).mpr (assignedOffset_regOffset r).1) (regAt_regOffset r))

/-! ### One access after the other -/

/-- `Answers accesses s responses t`: from s the accesses get these responses and leave t. -/
def Answers (accesses : List BusAccess) (s : State) (responses : List BusResponse) (t : State) : Prop :=
  hostRun (accesses.map .access) s = .next t ∧ t.host.responses = s.host.responses ++ responses

section Answers

variable {accesses later : List BusAccess} {responses more : List BusResponse} {s t u : State}

theorem Answers.nil (s : State) : Answers [] s [] s := ⟨rfl, (List.append_nil _).symm⟩

theorem Answers.cons {a : BusAccess} {r : BusResponse} (first : respond (.access a) s = .next (logResponse r u))
    (host : u.host = s.host) (rest : Answers accesses (logResponse r u) responses t) :
    Answers (a :: accesses) s (r :: responses) t := by
  obtain ⟨run, logged⟩ := rest
  refine ⟨by rw [List.map_cons, hostRun, first]; exact run, ?_⟩
  rw [logged, logResponse_host, host, List.append_assoc, List.singleton_append]

theorem Answers.cmd {i : Instr} (run : exec i s = .next u) (rest : Answers accesses (logResponse .ok u) responses t) :
    Answers (wr .cmd (encode i) :: accesses) s (.ok :: responses) t :=
  .cons (respond_cmd run) (exec_host run) rest

theorem Answers.dataIn (v : U64) (rest : Answers accesses (logResponse .ok (setDataIn v s)) responses t) :
    Answers (wr .dataIn v :: accesses) s (.ok :: responses) t :=
  .cons (respond_dataIn v s) (setDataIn_host v s) rest

theorem Answers.read (r : Reg) (rest : Answers accesses (logResponse (.data (readReg r s)) s) responses t) :
    Answers (rd r :: accesses) s (.data (readReg r s) :: responses) t :=
  .cons (respond_read r s) rfl rest

theorem Answers.append (first : Answers accesses s responses u) (second : Answers later u more t) :
    Answers (accesses ++ later) s (responses ++ more) t := by
  obtain ⟨run, logged⟩ := first
  obtain ⟨run', logged'⟩ := second
  refine ⟨by rw [List.map_append, hostRun_append _ _ _ _ run, run'], ?_⟩
  rw [logged', logged, List.append_assoc]

theorem Answers.runReading (answers : Answers accesses s responses t) :
    runReading accesses s = .next (readValues responses, t) :=
  runReading_of_run answers.1 answers.2

/-- CHECK reads STATUS and leaves the block alone (R79). -/
theorem answers_check (s : State) :
    Answers (expand .check) s [.data (statusWord s)] (logResponse (.data (statusWord s)) s) :=
  .read .status (.nil _)

/-! ### The commands of the codec -/

theorem answers_encStart (noError : NoError s) : ∃ t, Answers (expand (.cmd .encStart)) s [.ok] t ∧
    t.codec = startCodec .enc ∧ t.err = s.err :=
  ⟨_, .cmd ((exec_encStart s).trans (dispatch_perform noError rfl rfl rfl)) (.nil _), rfl, rfl⟩

theorem answers_decStart (noError : NoError s) : ∃ t, Answers (expand (.cmd .decStart)) s [.ok] t ∧
    t.codec = startCodec .dec ∧ t.err = s.err :=
  ⟨_, .cmd ((exec_decStart s).trans (dispatch_perform noError rfl rfl rfl)) (.nil _), rfl, rfl⟩

variable {steps : Nat}

/-- R104: the code of the symbol is read from DATA_OUT0. -/
theorem answers_enc (noError : NoError s) (ready : CodecReady .enc (steps + 1) s.codec) (x : Nibble) :
    ∃ t, Answers (expand (.enc x)) s [.ok, .data (bankGet s.codec.cnt x)] t ∧ t.codec = codecStep s.codec x ∧
      t.err = s.err := by
  have performed : exec (.encSym x) s = .next (encodeSymbol x s) :=
    dispatch_perform noError (beq_iff_eq.mpr ready.mode) ((roomForOne_iff _).mpr ready.room_one) rfl
  exact ⟨_, .cmd performed (.read .dataOut0 (.nil _)), rfl, rfl⟩

/-- R105: the codes of the two symbols are read from DATA_OUT0 and DATA_OUT1. -/
theorem answers_encb (noError : NoError s) (ready : CodecReady .enc (steps + 1 + 1) s.codec) (b : Byte) :
    ∃ t, Answers (expand (.encb b)) s [.ok, .data (bankGet s.codec.cnt (hiSymbol b)),
        .data (bankGet (codecStep s.codec (hiSymbol b)).cnt (loSymbol b))] t ∧
      t.codec = codecStep (codecStep s.codec (hiSymbol b)) (loSymbol b) ∧ t.err = s.err := by
  have room : s.codec.pos.toNat + 2 ≤ Config.lenLimit.toNat := by have := ready.room; omega
  have performed : exec (.encByte b) s = .next (encodeByte b s) :=
    dispatch_perform noError (beq_iff_eq.mpr ready.mode) ((roomForTwo_iff _).mpr room) rfl
  exact ⟨_, .cmd performed (.read .dataOut0 (.read .dataOut1 (.nil _))), rfl, rfl⟩

theorem exec_decVal_found (noError : NoError s) (ready : CodecReady .dec (steps + 1) s.codec) {x : Nibble}
    (found : lookup s.codec.cnt s.port.dataIn = some x) : exec .decVal s = .next (decodeSymbol x s) := by
  rw [exec_decVal, dispatch_perform noError (beq_iff_eq.mpr ready.mode) ((roomForOne_iff _).mpr ready.room_one)]
  all_goals simp [found]

theorem exec_decVal_missing (noError : NoError s) (ready : CodecReady .dec (steps + 1) s.codec)
    (missing : lookup s.codec.cnt s.port.dataIn = none) :
    exec .decVal s = .next (raise .corruptStream (encode .decVal) s.port.dataIn s.codec.pos s) := by
  rw [exec_decVal, dispatch_data (e := (.corruptStream, s.port.dataIn, s.codec.pos)) noError
    (beq_iff_eq.mpr ready.mode) ((roomForOne_iff _).mpr ready.room_one)]
  simp [missing]

/-- R108: the symbol whose counter holds the value is read from DATA_OUT0. -/
theorem answers_decs_found (noError : NoError s) (ready : CodecReady .dec (steps + 1) s.codec) {v : U64} {x : Nibble}
    (found : lookup s.codec.cnt v = some x) :
    ∃ t, Answers (expand (.decs v)) s [.ok, .ok, .data (symbolWord x)] t ∧ t.codec = codecStep s.codec x ∧
      t.err = s.err := by
  have performed := exec_decVal_found (s := logResponse .ok (setDataIn v s)) noError ready found
  exact ⟨_, .dataIn v (.cmd performed (.read .dataOut0 (.nil _))), rfl, rfl⟩

/-- R108: a value that no counter holds latches CORRUPT_STREAM with it and its position. -/
theorem answers_decs_missing (noError : NoError s) (ready : CodecReady .dec (steps + 1) s.codec) {v : U64}
    (missing : lookup s.codec.cnt v = none) :
    ∃ t, Answers (expand (.decs v)) s [.ok, .ok, .data s.port.dataOut0] t ∧ t.codec = s.codec ∧
      t.err = { err := true, code := .corruptStream, opc := opcode .decVal, value := v, pos := s.codec.pos } := by
  have raised := exec_decVal_missing (s := logResponse .ok (setDataIn v s)) noError ready missing
  exact ⟨_, .dataIn v (.cmd raised (.read .dataOut0 (.nil _))), rfl, by simp⟩

end Answers

end Sys2Proof.Machine

end AccessRuns

/-! PROOFS. The host's realisations of encode and decode (R66, R109, R110): the values that an encode program reads, and
what the words of a file give one by one. -/

section HostRealisation

namespace Sys2Proof.Machine

theorem NoError.of_err_eq {s t : State} (noError : NoError s) (err : t.err = s.err) : NoError t := by
  rw [NoError, err]
  exact noError

/-! ### Encode -/

/-- R109: one ENC_SYM per symbol reads the source's codes, from any counters. -/
theorem answers_encSyms (seq : List Nibble) {s : State} (noError : NoError s)
    (ready : CodecReady .enc seq.length s.codec) :
    ∃ t, Answers ((seq.map Pseudo.enc).flatMap expand) s
        ((encodeFrom (counterValues s.codec) seq).flatMap fun v => [.ok, .data (BitVec.ofNat 64 v)]) t ∧
      t.codec = seq.foldl codecStep s.codec ∧ t.err = s.err := by
  induction seq generalizing s with
  | nil => exact ⟨s, .nil s, rfl, rfl⟩
  | cons x rest ih =>
    obtain ⟨u, first, codec, err⟩ := answers_enc noError ready x
    have next : CodecReady .enc rest.length u.codec := codec ▸ ready.step x
    obtain ⟨t, later, codec', err'⟩ := ih (noError.of_err_eq err) next
    rw [codec, ready.counterValues_step x] at later
    refine ⟨t, ?_, by rw [codec', codec, List.foldl_cons], err'.trans err⟩
    rw [encodeFrom, List.flatMap_cons, ofNat_counterValues, List.map_cons, List.flatMap_cons]
    exact first.append later

/-- R66: one ENC_BYTE per byte reads the source's codes of the bytes' symbols, from any counters. -/
theorem answers_encBytes (bytes : List Byte) {s : State} (noError : NoError s)
    (ready : CodecReady .enc (2 * bytes.length) s.codec) :
    ∃ rs t, Answers ((bytes.map Pseudo.encb).flatMap expand) s rs t ∧
      readValues rs = (encodeFrom (counterValues s.codec) (bytesToNibbles bytes)).map (BitVec.ofNat 64) ∧
      t.err = s.err := by
  induction bytes generalizing s with
  | nil => exact ⟨[], s, .nil s, rfl, rfl⟩
  | cons b rest ih =>
    have ready : CodecReady .enc (2 * rest.length + 1 + 1) s.codec := ready
    have ready' := ready.step (hiSymbol b)
    obtain ⟨u, first, codec, err⟩ := answers_encb noError ready b
    have next : CodecReady .enc (2 * rest.length) u.codec := codec ▸ ready'.step (loSymbol b)
    obtain ⟨rs, t, later, values, err'⟩ := ih (noError.of_err_eq err) next
    refine ⟨_, t, first.append later, ?_, err'.trans err⟩
    have symbols : bytesToNibbles (b :: rest) = hiSymbol b :: loSymbol b :: bytesToNibbles rest := rfl
    rw [codec, ready'.counterValues_step, ready.counterValues_step] at values
    rw [symbols, encodeFrom, encodeFrom, List.map_cons, List.map_cons, ofNat_counterValues,
      ← ready.counterValues_step, ofNat_counterValues, ready.counterValues_step, ← values]
    rfl

theorem readValues_codes (codes : List Nat) :
    readValues (codes.flatMap fun v => [.ok, .data (BitVec.ofNat 64 v)]) = codes.map (BitVec.ofNat 64) := by
  induction codes with
  | nil => rfl
  | cons v rest ih => rw [List.flatMap_cons, readValues_append, ih]; rfl

theorem statusWord_noError {s : State} (noError : NoError s) : (statusWord s).extractLsb' 0 1 = 0#1 := by
  rw [statusWord_err, noError]
  rfl

/-- R66: a host that reads STATUS without an error at the end of its program packs the values it read before. -/
theorem hostPack_of_answers (order : ByteOrder) {program : List Pseudo} {s t : State} {rs : List BusResponse}
    (answers : Answers (program.flatMap expand) s rs t) (noError : NoError t) :
    ∃ u, hostPack order program s = .next (.ok (packWords order (readValues rs)), u) ∧ NoError u := by
  have accesses : (program ++ [Pseudo.check]).flatMap expand = program.flatMap expand ++ expand .check := by simp
  have values : readValues (rs ++ [.data (statusWord t)]) = readValues rs ++ [statusWord t] := by simp
  refine ⟨logResponse (.data (statusWord t)) t, ?_, noError⟩
  rw [hostPack, accesses, (answers.append (answers_check t)).runReading, proceed_next, values]
  simp only [List.getLastD_concat, List.dropLast_concat]
  exact checkStatus_clear (statusWord_noError noError)

/-! ### Decode -/

theorem mapError_map {ε ε' α β : Type} (f : α → β) (g : ε → ε') (r : Except ε α) :
    (r.map f).mapError g = (r.mapError g).map f := by
  cases r <;> rfl

/-- R134, R140: the latch of CORRUPT_STREAM is read as the source's error. -/
theorem checkStatus_corruptStream {α : Type} {s : State} {opc : Byte} {v pos : U64}
    (latch : s.err = { err := true, code := .corruptStream, opc := opc, value := v, pos := pos })
    (goOn : Host.Outcome (Except HostError α × State) Fault Refusal) :
    ∃ t, checkStatus (statusWord s) s goOn = .next (.error (.source (.corruptStream v.toNat pos.toNat)), t) := by
  have set : (statusWord s).extractLsb' 0 1 = 1#1 := by rw [statusWord_err, latch]; rfl
  have code : (statusWord s).extractLsb' 4 4 = 1#4 := by rw [statusWord_code, latch]; rfl
  have value : readReg .errValue s = v := by rw [readReg, latch]
  have position : readReg .errPos s = pos := by rw [readReg, latch]
  have reads : Answers [rd .errValue, rd .errPos] s [.data (readReg .errValue s), .data (readReg .errPos s)] _ :=
    .read .errValue (.read .errPos (.nil _))
  rw [value, position] at reads
  have stops := checkStatus_set (goOn := goOn) set reads.runReading
  rw [latchError, if_pos code] at stops
  exact ⟨_, stops⟩

section Word

variable {steps : Nat} {s : State} {v : U64}

/-- The host goes on after a word whose symbol is found (R66). -/
theorem hostDecode_cons_found (noError : NoError s) (ready : CodecReady .dec (steps + 1) s.codec) {x : Nibble}
    (found : lookup s.codec.cnt v = some x) (rest : List U64) :
    ∃ t, hostDecode (v :: rest) s = proceed (hostDecode rest t) (fun y => .next (y.1.map (x :: ·), y.2)) ∧
      t.codec = codecStep s.codec x ∧ NoError t := by
  obtain ⟨t, answers, codec, err⟩ := answers_decs_found noError ready found
  have noError' := noError.of_err_eq err
  have symbol : (symbolWord x).setWidth 4 = x := by simp [symbolWord]
  refine ⟨logResponse (.data (statusWord t)) t, ?_, codec, noError'⟩
  rw [hostDecode, (answers.append (answers_check t)).runReading]
  refine (checkStatus_clear (statusWord_noError noError')).trans ?_
  conv_rhs => rw [← symbol]
  rfl

/-- The host stops at a word that no counter holds, with the source's error (R66, R99). -/
theorem hostDecode_cons_missing (noError : NoError s) (ready : CodecReady .dec (steps + 1) s.codec)
    (missing : lookup s.codec.cnt v = none) (rest : List U64) :
    ∃ t, hostDecode (v :: rest) s = .next (.error (.source (.corruptStream v.toNat s.codec.pos.toNat)), t) := by
  obtain ⟨t, answers, -, latch⟩ := answers_decs_missing noError ready missing
  rw [hostDecode, (answers.append (answers_check t)).runReading]
  exact checkStatus_corruptStream (s := logResponse (.data (statusWord t)) t) latch _

end Word

/-- R110: the words give what the source's decode gives from the unit's counters, its failures included. -/
theorem hostDecode_eq_decodeFrom (words : List U64) {s : State} (noError : NoError s)
    (ready : CodecReady .dec words.length s.codec) :
    ∃ t, hostDecode words s = .next ((decodeFrom (counterValues s.codec) s.codec.pos.toNat
      (words.map BitVec.toNat)).mapError .source, t) := by
  induction words generalizing s with
  | nil => exact ⟨s, rfl⟩
  | cons v rest ih =>
    rw [List.map_cons]
    cases search : lookup s.codec.cnt v with
    | none =>
      rw [decodeFrom_cons_missing (lookup_eq_find s.codec v ▸ search)]
      exact hostDecode_cons_missing noError ready search rest
    | some x =>
      obtain ⟨u, decoded, codec, noError'⟩ := hostDecode_cons_found noError ready search rest
      obtain ⟨t, later⟩ := ih noError' (codec ▸ ready.step x)
      have position : u.codec.pos.toNat = s.codec.pos.toNat + 1 := by
        rw [codec, codecStep_pos, toNat_add_one_of_room ready.room_one]
      refine ⟨t, ?_⟩
      rw [decodeFrom_cons_found (lookup_eq_find s.codec v ▸ search), mapError_map, ← ready.counterValues_step x,
        ← codec, ← position, decoded, later]
      rfl

/-- R66: a file with words is decoded after DEC_START. -/
theorem hostUnpack_of_start {order : ByteOrder} {file : List Byte} {v : U64} {words : List U64}
    (read : fileWords order file = some (v :: words)) {s t : State} {values : List U64}
    (start : runReading (expand (.cmd .decStart)) s = .next (values, t)) (path : String) :
    hostUnpack order path file s = hostDecode (v :: words) t := by
  simp only [hostUnpack, read, start, proceed_next]

end Sys2Proof.Machine

end HostRealisation

/-! PROOFS. The statements about the archive (R62 to R66). -/

section ArchiveStatements

namespace Sys2Proof.Machine

/-- R62, R111: the words of an archive are the codes, none of which passes 2^64 - 1 within LEN_LIMIT. -/
theorem unpack_pack (order : ByteOrder) (path : String) {seq : List Nibble} (limit : seq.length ≤ 2 ^ 64 - 16) :
    unpack order path (pack order seq) = .ok seq := by
  have codes : ((sourceEncode seq).map (BitVec.ofNat 64)).map BitVec.toNat = sourceEncode seq := by
    have kept (v : Nat) (hv : v ∈ sourceEncode seq) : (BitVec.toNat ∘ BitVec.ofNat 64) v = id v :=
      Nat.mod_eq_of_lt (sourceEncode_lt limit v hv)
    rw [List.map_map, List.map_congr_left kept, List.map_id]
  simp only [unpack, pack, fileWords_packWords, codes, sourceDecode_sourceEncode]

theorem length_pack (order : ByteOrder) (seq : List Nibble) : (pack order seq).length = 8 * seq.length := by
  rw [pack, length_packWords, List.length_map, sourceEncode, length_encodeFrom]

/-- R66, R109: pack by one ENC_SYM per symbol. -/
theorem hostPack_encodeProgram (order : ByteOrder) {seq : List Nibble} {s : State} (noError : NoError s)
    (limit : seq.length ≤ 2 ^ 64 - 16) :
    ∃ t, hostPack order (encodeProgram seq) s = .next (.ok (pack order seq), t) ∧ NoError t := by
  obtain ⟨u, start, codec, err⟩ := answers_encStart noError
  have noError' := noError.of_err_eq err
  obtain ⟨t, symbols, -, err'⟩ := answers_encSyms seq noError' (codec ▸ codecReady_start .enc limit)
  rw [codec, counterValues_startCodec] at symbols
  have packed := hostPack_of_answers order (program := encodeProgram seq) (start.append symbols)
    (noError'.of_err_eq err')
  rwa [readValues_append, readValues_codes] at packed

/-- R66: pack by one ENC_BYTE per byte. -/
theorem hostPack_encodeBytesProgram (order : ByteOrder) {bytes : List Byte} {s : State} (noError : NoError s)
    (limit : 2 * bytes.length ≤ 2 ^ 64 - 16) :
    ∃ t, hostPack order (encodeBytesProgram bytes) s = .next (.ok (pack order (bytesToNibbles bytes)), t) ∧
      NoError t := by
  obtain ⟨u, start, codec, err⟩ := answers_encStart noError
  have noError' := noError.of_err_eq err
  obtain ⟨rs, t, codes, values, err'⟩ := answers_encBytes bytes noError' (codec ▸ codecReady_start .enc limit)
  rw [codec, counterValues_startCodec] at values
  have packed := hostPack_of_answers order (program := encodeBytesProgram bytes) (start.append codes)
    (noError'.of_err_eq err')
  rwa [readValues_append, values] at packed

/-- R64, R66: a malformed length and a file without a word end without a command; the words of any other file are
decoded one by one. -/
theorem hostUnpack_eq_unpack (order : ByteOrder) (path : String) {file : List Byte} {s : State} (noError : NoError s)
    (limit : file.length ≤ 8 * (2 ^ 64 - 16)) :
    ∃ t, hostUnpack order path file s = .next ((unpack order path file).mapError .source, t) ∧
      (file = [] ∨ file.length % 8 ≠ 0 → t = s) := by
  by_cases malformed : file.length % 8 ≠ 0
  · have read := fileWords_malformed order malformed
    exact ⟨s, by rw [hostUnpack, unpack, read]; rfl, fun _ => rfl⟩
  obtain ⟨n, length⟩ := Nat.dvd_of_mod_eq_zero (not_not.mp malformed)
  obtain ⟨words, read, values⟩ := fileWords_of_length order length
  have count : words.length = n := by simpa using congrArg List.length values
  cases words with
  | nil => exact ⟨s, by rw [hostUnpack, unpack, read]; rfl, fun _ => rfl⟩
  | cons v rest =>
    obtain ⟨u, start, codec, err⟩ := answers_decStart noError
    have ready : CodecReady .dec (v :: rest).length u.codec := codec ▸ codecReady_start .dec (by omega)
    obtain ⟨t, decoded⟩ := hostDecode_eq_decodeFrom (v :: rest) (noError.of_err_eq err) ready
    rw [codec, counterValues_startCodec] at decoded
    refine ⟨t, ?_, ?_⟩
    · rw [hostUnpack_of_start read start.runReading, decoded, unpack, read]
      rfl
    · rintro (rfl | malformed')
      · cases read
      · exact absurd malformed' malformed

end Sys2Proof.Machine

namespace Sys2Proof.Proofs

open Sys2Proof.Machine

/-- Settles O58: the length decides between no words and the values of the groups of eight bytes. -/
theorem unpackReadsWordsOrRefuses : Obligations.UnpackReadsWordsOrRefuses := by
  unfold Obligations.UnpackReadsWordsOrRefuses
  intro order path file
  refine ⟨?_, fun malformed => ?_, fun multiple => ?_⟩
  · rintro rfl
    rfl
  · rw [unpack, fileWords_malformed order malformed]
  · obtain ⟨n, length⟩ := Nat.dvd_of_mod_eq_zero multiple
    obtain ⟨words, read, values⟩ := fileWords_of_length order length
    refine ⟨words.map BitVec.toNat, by rw [unpack, read], ?_⟩
    rw [values, List.length_map, List.length_range]
    refine ⟨length.symm, fun i hi => ?_⟩
    rw [List.getElem?_map, List.getElem?_range hi]
    rfl

/-- Settles O57: the words of an archive are the codes of the source, and each program of the host follows the source's
function step by step. -/
theorem archiveRoundTrip : Obligations.ArchiveRoundTrip := by
  unfold Obligations.ArchiveRoundTrip
  exact fun order => ⟨fun path seq limit => ⟨unpack_pack order path limit, length_pack order seq⟩,
    fun seq s noError limit => hostPack_encodeProgram order noError limit,
    fun bytes s noError limit => hostPack_encodeBytesProgram order noError limit,
    fun path file s noError limit => hostUnpack_eq_unpack order path noError limit⟩

end Sys2Proof.Proofs

end ArchiveStatements

/-! PROOFS. The decoder answers a command only for that command's word (R68 to R70, R73), and the legal words are the words
of the commands. -/

section DecoderInversion

namespace Sys2Proof

theorem opcField_eq_setWidth (w : U64) : opcField w = w.setWidth 8 :=
  BitVec.eq_of_toNat_eq (by rw [opcField_toNat, BitVec.toNat_setWidth])

theorem toNat_lt_of_highBits {w : U64} {start len : Nat} (zero : w.extractLsb' start len = 0#len)
    (whole : start + len = 64) : w.toNat < 2 ^ start := by
  have digits : w.toNat / 2 ^ start % 2 ^ len = 0 := by
    simpa [Nat.shiftRight_eq_div_pow] using congrArg BitVec.toNat zero
  have below : w.toNat / 2 ^ start < 2 ^ len :=
    Nat.div_lt_of_lt_mul (by rw [← pow_add, whole]; exact w.isLt)
  rw [Nat.mod_eq_of_lt below] at digits
  exact Nat.lt_of_div_eq_zero (by positivity) digits

/-- R72: a word is the word of the command whose OPC and operand are its low byte and the rest. -/
theorem encode_eq_of_fields {w : U64} {i : Instr} (opc : opcField w = opcode i)
    (operand : operandValue i = w.toNat / 256) : encode i = w := by
  apply BitVec.eq_of_toNat_eq
  rw [encode_toNat, ← opc, opcField_toNat, operand]
  omega

theorem encode_of_decodeF0 {w : U64} {i j : Instr} (h : decodeF0 w i = .ok j) (opc : opcField w = opcode i)
    (noOperand : operandValue i = 0) : encode j = w := by
  unfold decodeF0 at h
  split at h
  next zero =>
    cases h
    have below := toNat_lt_of_highBits zero rfl
    exact encode_eq_of_fields opc (by omega)
  next => cases h

theorem encode_of_decodeFS {w : U64} {command : Nibble → Instr} {j : Instr} (h : decodeFS w command = .ok j)
    (opc : ∀ x, opcField w = opcode (command x)) (operand : ∀ x, operandValue (command x) = x.toNat) :
    encode j = w := by
  unfold decodeFS at h
  split at h
  next zero =>
    cases h
    have below := toNat_lt_of_highBits zero rfl
    exact encode_eq_of_fields (opc _) (by rw [operand, symField_toNat]; omega)
  next => cases h

theorem encode_of_decodeFB {w : U64} {command : Byte → Instr} {j : Instr} (h : decodeFB w command = .ok j)
    (opc : ∀ b, opcField w = opcode (command b)) (operand : ∀ b, operandValue (command b) = b.toNat) :
    encode j = w := by
  unfold decodeFB at h
  split at h
  next zero =>
    cases h
    have below := toNat_lt_of_highBits zero rfl
    exact encode_eq_of_fields (opc _) (by rw [operand, byteField_toNat]; omega)
  next => cases h

/-- R73: each row of the opcode map answers its command for the command's word alone. -/
theorem encode_of_decode {w : U64} {i : Instr} (h : decode w = .ok i) : encode i = w := by
  unfold decode at h
  split at h
  case h_1 opc | h_2 opc | h_3 opc | h_4 opc | h_7 opc | h_8 opc | h_9 opc | h_12 opc | h_14 opc | h_16 opc =>
    exact encode_of_decodeF0 h opc rfl
  case h_5 opc | h_10 opc | h_15 opc => exact encode_of_decodeFS h (fun _ => opc) (fun _ => rfl)
  case h_6 opc | h_11 opc | h_13 opc => exact encode_of_decodeFB h (fun _ => opc) (fun _ => rfl)
  case h_17 => cases h

/-- R68 to R72: the word of a command matches the row of its OPC. -/
theorem encode_matches_row (i : Instr) : Laws.EncodedWordIsItsRow.Statement i := by
  cases i with
  | nop => exact Laws.EncodedWordIsItsRow.nop
  | softReset => exact Laws.EncodedWordIsItsRow.softReset
  | errClear => exact Laws.EncodedWordIsItsRow.errClear
  | encStart => exact Laws.EncodedWordIsItsRow.encStart
  | encSym x => exact Laws.EncodedWordIsItsRow.encSym x
  | encByte b => exact Laws.EncodedWordIsItsRow.encByte b
  | decStart => exact Laws.EncodedWordIsItsRow.decStart
  | decVal => exact Laws.EncodedWordIsItsRow.decVal
  | statStart => exact Laws.EncodedWordIsItsRow.statStart
  | statSym x => exact Laws.EncodedWordIsItsRow.statSym x
  | statByte b => exact Laws.EncodedWordIsItsRow.statByte b
  | statFinish => exact Laws.EncodedWordIsItsRow.statFinish
  | split b => exact Laws.EncodedWordIsItsRow.split b
  | joinStart => exact Laws.EncodedWordIsItsRow.joinStart
  | joinSym x => exact Laws.EncodedWordIsItsRow.joinSym x
  | joinEnd => exact Laws.EncodedWordIsItsRow.joinEnd

theorem legal_encode (i : Instr) : legal (encode i) = true := by
  obtain ⟨f, row, masked⟩ := encode_matches_row i
  simp [legal, row, masked]

theorem decode_of_encode_eq {w : U64} {i : Instr} (word : encode i = w) : decode w = .ok i := word ▸ decode_encode i

/-- R73: the legal words are those that the decoder answers. -/
theorem legal_iff_decode (w : U64) : legal w = true ↔ ∃ i, decode w = .ok i := by
  constructor
  · intro isLegal
    cases h : decode w with
    | ok i => exact ⟨i, rfl⟩
    | error e => exact absurd isLegal (by simp [legal_eq_false_of_decode h])
  · rintro ⟨i, h⟩
    rw [← encode_of_decode h]
    exact legal_encode i

/-- R73: the decoder refuses every word that is not the word of a command. -/
theorem decode_error_of_not_encoded {w : U64} (not_encoded : ∀ i, encode i ≠ w) : ∃ e, decode w = .error e := by
  cases h : decode w with
  | ok i => exact absurd (encode_of_decode h) (not_encoded i)
  | error e => exact ⟨e, rfl⟩

end Sys2Proof

end DecoderInversion

/-! PROOFS. The assembler (R77): a mnemonic with the operand its format takes gives the word of its command, and every word
it emits is the word of a command. -/

section Assembler

namespace Sys2Proof.Machine

/-- The mnemonic of a command (R72); `lookup_mnemonic` finds it in the assembler's table. -/
def mnemonic : Instr → String
  | .nop => "NOP"
  | .softReset => "SOFT_RESET"
  | .errClear => "ERR_CLEAR"
  | .encStart => "ENC_START"
  | .encSym _ => "ENC_SYM"
  | .encByte _ => "ENC_BYTE"
  | .decStart => "DEC_START"
  | .decVal => "DEC_VAL"
  | .statStart => "STAT_START"
  | .statSym _ => "STAT_SYM"
  | .statByte _ => "STAT_BYTE"
  | .statFinish => "STAT_FINISH"
  | .split _ => "SPLIT"
  | .joinStart => "JOIN_START"
  | .joinSym _ => "JOIN_SYM"
  | .joinEnd => "JOIN_END"

/-- The operand that is written after the mnemonic of a command (R77); `writtenOperand_fits` ties it to the formats. -/
def writtenOperand : Instr → Option Nat
  | .encSym x | .statSym x | .joinSym x => some x.toNat
  | .encByte b | .statByte b | .split b => some b.toNat
  | _ => none

theorem lookup_mnemonic (i : Instr) : mnemonicTable.lookup (mnemonic i) = some (opcode i) := by
  cases i <;> rfl

theorem writtenOperand_getD (i : Instr) : (writtenOperand i).getD 0 = operandValue i := by
  cases i <;> rfl

/-- R69, R70, R77: a command's operand is one that the format of its row takes. -/
theorem writtenOperand_fits (i : Instr) :
    ∃ f, formatOf (opcode i) = some f ∧ operandFits f (writtenOperand i) = true := by
  cases i with
  | encSym x | statSym x | joinSym x => exact ⟨.fs, rfl, decide_eq_true x.isLt⟩
  | encByte b | statByte b | split b => exact ⟨.fb, rfl, decide_eq_true b.isLt⟩
  | _ => exact ⟨.f0, rfl, rfl⟩

theorem assemble_command (i : Instr) : assemble ⟨mnemonic i, writtenOperand i⟩ = some (encode i) := by
  obtain ⟨f, row, fits⟩ := writtenOperand_fits i
  simp [assemble, lookup_mnemonic, row, fits, writtenOperand_getD, encode]

theorem assemble_unknown {name : String} (unknown : name ∉ mnemonicTable.map Prod.fst) (operand : Option Nat) :
    assemble ⟨name, operand⟩ = none := by
  have absent : mnemonicTable.lookup name = none := by
    refine List.lookup_eq_none_iff.mpr fun row member => bne_iff_ne.mpr ?_
    rintro rfl
    exact unknown (List.mem_map_of_mem member)
  simp [assemble, absent]

theorem assemble_unfit {name : String} {f : Format} {operand : Option Nat}
    (format : (mnemonicTable.lookup name).bind formatOf = some f) (unfit : operandFits f operand = false) :
    assemble ⟨name, operand⟩ = none := by
  obtain ⟨opc, entry, row⟩ := Option.bind_eq_some_iff.mp format
  simp [assemble, entry, row, unfit]

/-- R68, R72: the ten rows without an operand. -/
theorem exists_command_of_f0_row {opc : Byte} (row : formatOf opc = some .f0) :
    ∃ i, opcode i = opc ∧ operandValue i = 0 := by
  unfold formatOf at row
  split at row
  case h_1 => exact ⟨.nop, rfl, rfl⟩
  case h_2 => exact ⟨.softReset, rfl, rfl⟩
  case h_3 => exact ⟨.errClear, rfl, rfl⟩
  case h_4 => exact ⟨.encStart, rfl, rfl⟩
  case h_7 => exact ⟨.decStart, rfl, rfl⟩
  case h_8 => exact ⟨.decVal, rfl, rfl⟩
  case h_9 => exact ⟨.statStart, rfl, rfl⟩
  case h_12 => exact ⟨.statFinish, rfl, rfl⟩
  case h_14 => exact ⟨.joinStart, rfl, rfl⟩
  case h_16 => exact ⟨.joinEnd, rfl, rfl⟩
  all_goals cases row

/-- R69, R72: the three rows of a symbol, at every symbol. -/
theorem exists_command_of_fs_row {opc : Byte} (row : formatOf opc = some .fs) :
    ∃ command : Nibble → Instr, ∀ x, opcode (command x) = opc ∧ operandValue (command x) = x.toNat := by
  unfold formatOf at row
  split at row
  case h_5 => exact ⟨.encSym, fun _ => ⟨rfl, rfl⟩⟩
  case h_10 => exact ⟨.statSym, fun _ => ⟨rfl, rfl⟩⟩
  case h_15 => exact ⟨.joinSym, fun _ => ⟨rfl, rfl⟩⟩
  all_goals cases row

/-- R70, R72: the three rows of a byte, at every byte. -/
theorem exists_command_of_fb_row {opc : Byte} (row : formatOf opc = some .fb) :
    ∃ command : Byte → Instr, ∀ b, opcode (command b) = opc ∧ operandValue (command b) = b.toNat := by
  unfold formatOf at row
  split at row
  case h_6 => exact ⟨.encByte, fun _ => ⟨rfl, rfl⟩⟩
  case h_11 => exact ⟨.statByte, fun _ => ⟨rfl, rfl⟩⟩
  case h_13 => exact ⟨.split, fun _ => ⟨rfl, rfl⟩⟩
  all_goals cases row

/-- R72: a row of the opcode map with an operand of its format is a command. -/
theorem exists_command_of_row {opc : Byte} {f : Format} {operand : Option Nat} (row : formatOf opc = some f)
    (fits : operandFits f operand = true) : ∃ i, opcode i = opc ∧ operandValue i = operand.getD 0 := by
  cases f with
  | f0 =>
    obtain ⟨i, opc, noOperand⟩ := exists_command_of_f0_row row
    cases operand with
    | none => exact ⟨i, opc, noOperand⟩
    | some v => cases fits
  | fs =>
    obtain ⟨command, fields⟩ := exists_command_of_fs_row row
    cases operand with
    | none => cases fits
    | some v => exact ⟨command (.ofNatLT v (of_decide_eq_true fits)), fields _⟩
  | fb =>
    obtain ⟨command, fields⟩ := exists_command_of_fb_row row
    cases operand with
    | none => cases fits
    | some v => exact ⟨command (.ofNatLT v (of_decide_eq_true fits)), fields _⟩

/-- R77: the assembler emits words of commands alone. -/
theorem exists_command_of_assemble {c : SourceCommand} {w : U64} (h : assemble c = some w) : ∃ i, encode i = w := by
  unfold assemble at h
  split at h
  next => cases h
  next opc _ =>
    split at h
    next => cases h
    next f row =>
      split at h
      next fits =>
        cases h
        obtain ⟨i, rfl, operand⟩ := exists_command_of_row row fits
        exact ⟨i, by rw [encode, operand]⟩
      next => cases h

end Sys2Proof.Machine

end Assembler

/-! PROOFS. The statements about the encoding (30_encoding.md). -/

section EncodingStatements

namespace Sys2Proof.Proofs

open Sys2Proof.Machine

/-- Settles O1: each command's word lies in its row of the opcode map, which is how it is decoded and why it is legal. -/
theorem decodeEncodeEveryCommand : Obligations.DecodeEncodeEveryCommand := by
  unfold Obligations.DecodeEncodeEveryCommand
  exact fun i => ⟨decode_encode i, legal_encode i⟩

/-- Settles O2: the legal words are those that are answered, and an answer is the command whose word was read. -/
theorem decodeAnswersExactlyLegalWords : Obligations.DecodeAnswersExactlyLegalWords := by
  unfold Obligations.DecodeAnswersExactlyLegalWords
  intro w
  refine ⟨fun isLegal => ?_, fun illegal => ?_⟩
  · obtain ⟨i, answered⟩ := (legal_iff_decode w).mp isLegal
    exact ⟨i, answered, encode_of_decode answered⟩
  · refine decode_error_of_not_encoded ?_
    rintro i rfl
    exact absurd (legal_encode i) (by simp [illegal])

/-- Settles O4: no command has a word of one of these forms, so the decoder refuses it. -/
theorem illegalWordRaisesOrIsIgnored : Obligations.IllegalWordRaisesOrIsIgnored := by
  unfold Obligations.IllegalWordRaisesOrIsIgnored
  intro w s illegal
  have not_encoded (i : Instr) : encode i ≠ w := by
    rintro rfl
    simp only [encode_toNat, List.mem_cons, List.not_mem_nil, or_false] at illegal
    cases i with
    | encSym x | statSym x | joinSym x => simp only [opcode, operandValue, BitVec.toNat_ofNat] at illegal; omega
    | encByte b | statByte b | split b => simp only [opcode, operandValue, BitVec.toNat_ofNat] at illegal; omega
    | _ => simp [opcode, operandValue] at illegal
  obtain ⟨e, refused⟩ := decode_error_of_not_encoded not_encoded
  have executed := executeWord_illegal s refused
  refine ⟨fun noError => ?_, fun latched => ?_⟩
  · rw [if_neg (by simp [noError]), raise, opcField_eq_setWidth] at executed
    exact busAccess_cmd executed
  · rw [if_pos latched] at executed
    exact busAccess_cmd executed

/-- Settles O5: the emitted words are those of the commands; an operand that does not fit, or a name outside the table,
gives none. -/
theorem assemblerEmitsOnlyLegalWords : Obligations.AssemblerEmitsOnlyLegalWords := by
  unfold Obligations.AssemblerEmitsOnlyLegalWords
  refine ⟨fun c w emitted => ?_, ?_, ?_⟩
  · obtain ⟨i, rfl⟩ := exists_command_of_assemble emitted
    exact legal_encode i
  · exact ⟨assemble_command .nop, assemble_command .softReset, assemble_command .errClear, assemble_command .encStart,
      fun x => assemble_command (.encSym x), fun b => assemble_command (.encByte b), assemble_command .decStart,
      assemble_command .decVal, assemble_command .statStart, fun x => assemble_command (.statSym x),
      fun b => assemble_command (.statByte b), assemble_command .statFinish, fun b => assemble_command (.split b),
      assemble_command .joinStart, fun x => assemble_command (.joinSym x), assemble_command .joinEnd⟩
  · intro f0 fs fb
    have format_f0 : ∀ name ∈ f0, (mnemonicTable.lookup name).bind formatOf = some .f0 := by decide
    have format_fs : ∀ name ∈ fs, (mnemonicTable.lookup name).bind formatOf = some .fs := by decide
    have format_fb : ∀ name ∈ fb, (mnemonicTable.lookup name).bind formatOf = some .fb := by decide
    have listed : ∀ name ∈ mnemonicTable.map Prod.fst, name ∈ f0 ∨ name ∈ fs ∨ name ∈ fb := by decide
    refine ⟨fun name known v => assemble_unfit (format_f0 name known) rfl,
      fun name known => ⟨assemble_unfit (format_fs name known) rfl, fun v large =>
        assemble_unfit (format_fs name known) (decide_eq_false (Nat.not_lt.mpr large))⟩,
      fun name known => ⟨assemble_unfit (format_fb name known) rfl, fun v large =>
        assemble_unfit (format_fb name known) (decide_eq_false (Nat.not_lt.mpr large))⟩,
      fun name not_f0 not_fs not_fb => assemble_unknown fun known => ?_⟩
    obtain h | h | h := listed name known
    exacts [not_f0 h, not_fs h, not_fb h]

/-- Settles O3: each example's word is encoded, so it decodes to its command; the illegal words miss their rows. -/
theorem encodingExamples : Obligations.EncodingExamples := by
  unfold Obligations.EncodingExamples
  exact ⟨rfl, decode_of_encode_eq rfl, rfl, decode_of_encode_eq rfl, rfl, decode_of_encode_eq rfl,
    rfl, decode_of_encode_eq rfl, rfl, decode_of_encode_eq rfl, rfl, decode_of_encode_eq rfl,
    rfl, decode_of_encode_eq rfl, rfl, decode_of_encode_eq rfl, by decide, by decide, by decide, by decide⟩

end Sys2Proof.Proofs

end EncodingStatements

/-! PROOFS. The dispatch (40_control.md R81): every command of a unit is dispatched with the mode and length checks of
its rule, and what it does is seen in the view of its unit alone (R89). -/

section Dispatch

namespace Sys2Proof.Machine

variable {i : Instr} {s t : State}

/-! ### The checks of a command -/

theorem unitOf_eq_control_iff : unitOf i = .control ↔ i = .nop ∨ i = .softReset ∨ i = .errClear := by
  cases i <;> simp [unitOf]

theorem modeAccepts_of_control (control : unitOf i = .control) (s : State) : ModeAccepts i s := by
  obtain rfl | rfl | rfl := unitOf_eq_control_iff.mp control
  all_goals trivial

theorem not_passesLimit_of_noStep (noStep : (stepsAndCount i s).1 = 0) : ¬ PassesLimit i s :=
  fun passes => passes.1.ne' noStep

theorem not_passesLimit_of_control (control : unitOf i = .control) : ¬ PassesLimit i s := by
  obtain rfl | rfl | rfl := unitOf_eq_control_iff.mp control
  all_goals exact not_passesLimit_of_noStep rfl

theorem roomForOne_iff_not_passesLimit {count : U64} (steps : stepsAndCount i s = (1, count)) :
    roomForOne count = true ↔ ¬ PassesLimit i s := by
  simp only [roomForOne_iff, lenLimit_toNat, PassesLimit, steps]
  omega

theorem roomForTwo_iff_not_passesLimit {count : U64} (steps : stepsAndCount i s = (2, count)) :
    roomForTwo count = true ↔ ¬ PassesLimit i s := by
  simp only [roomForTwo_iff, lenLimit_toNat, PassesLimit, steps]
  omega

/-- The first two checks of R81 are those that the rule of the command i makes in s. -/
structure ChecksOf (i : Instr) (s : State) (c : Checks) : Prop where
  mode : c.modeOk = true ↔ ModeAccepts i s
  length : c.lengthOk = true ↔ ¬ PassesLimit i s
  count : c.unitCount = (stepsAndCount i s).2

/-- A command without a step that every mode accepts makes no check. -/
theorem checksOf_default (mode : ModeAccepts i s) (noStep : stepsAndCount i s = (0, 0#64)) : ChecksOf i s {} where
  mode := iff_of_true rfl mode
  length := iff_of_true rfl (not_passesLimit_of_noStep (by rw [noStep]))
  count := by rw [noStep]

/-- R81, steps 2 to 6: every command but the three of the control unit is dispatched with its own checks. -/
theorem exec_dispatched (not_control : unitOf i ≠ .control) (s : State) :
    ∃ c perform, exec i s = dispatch (encode i) c perform s ∧ ChecksOf i s c := by
  cases i with
  | nop | softReset | errClear => exact absurd rfl not_control
  | encStart => exact ⟨_, _, exec_encStart s, checksOf_default trivial rfl⟩
  | encSym x => exact ⟨_, _, exec_encSym x s, beq_iff_eq, roomForOne_iff_not_passesLimit rfl, rfl⟩
  | encByte b => exact ⟨_, _, exec_encByte b s, beq_iff_eq, roomForTwo_iff_not_passesLimit rfl, rfl⟩
  | decStart => exact ⟨_, _, exec_decStart s, checksOf_default trivial rfl⟩
  | decVal => exact ⟨_, _, exec_decVal s, beq_iff_eq, roomForOne_iff_not_passesLimit rfl, rfl⟩
  | statStart => exact ⟨_, _, exec_statStart s, checksOf_default trivial rfl⟩
  | statSym x => exact ⟨_, _, exec_statSym x s, beq_iff_eq, roomForOne_iff_not_passesLimit rfl, rfl⟩
  | statByte b => exact ⟨_, _, exec_statByte b s, beq_iff_eq, roomForTwo_iff_not_passesLimit rfl, rfl⟩
  | statFinish => exact ⟨_, _, exec_statFinish s, beq_iff_eq, iff_of_true rfl (not_passesLimit_of_noStep rfl), rfl⟩
  | split b => exact ⟨_, _, exec_split b s, checksOf_default trivial rfl⟩
  | joinStart => exact ⟨_, _, exec_joinStart s, checksOf_default trivial rfl⟩
  | joinSym x => exact ⟨_, _, exec_joinSym x s, Iff.rfl, roomForOne_iff_not_passesLimit rfl, rfl⟩
  | joinEnd => exact ⟨_, _, exec_joinEnd s, Iff.rfl, iff_of_true rfl (not_passesLimit_of_noStep rfl), rfl⟩

/-! ### The checks that stop a command -/

/-- R82. -/
theorem exec_latched (latched : s.err.err = true) (not_control : unitOf i ≠ .control) : exec i s = .next s := by
  obtain ⟨c, perform, run, -⟩ := exec_dispatched not_control s
  rw [run, dispatch_blocked latched]

/-- R136: the mode is checked before the length and the data. -/
theorem exec_wrongMode (noError : s.err.err = false) (wrong : ¬ ModeAccepts i s) :
    exec i s = .next (raise .sequence (encode i) (encode i) 0#64 s) := by
  have not_control : unitOf i ≠ .control := fun control => wrong (modeAccepts_of_control control s)
  obtain ⟨c, perform, run, checks⟩ := exec_dispatched not_control s
  rw [run, dispatch_mode noError (Bool.eq_false_iff.mpr fun ok => wrong (checks.mode.mp ok))]

/-- R136: the length is checked before the data. -/
theorem exec_passesLimit (noError : s.err.err = false) (mode : ModeAccepts i s) (passes : PassesLimit i s) :
    exec i s = .next (raise .lengthOverflow (encode i) (encode i) (stepsAndCount i s).2 s) := by
  have not_control : unitOf i ≠ .control := fun control => not_passesLimit_of_control control passes
  obtain ⟨c, perform, run, checks⟩ := exec_dispatched not_control s
  have tooLong : c.lengthOk = false := Bool.eq_false_iff.mpr fun ok => checks.length.mp ok passes
  rw [run, dispatch_length noError (checks.mode.mpr mode) tooLong, checks.count]

/-! ### What a command leaves alone -/

/-- A part that neither an error nor a performed command writes is kept by every command of a unit. -/
theorem Effect.kept {α : Type} {part : State → α} {Writer : Prop} (effect : Effect s i t)
    (not_control : unitOf i ≠ .control) (latchFree : ∀ e, part { s with err := e } = part s)
    (writer : Performs s i t → part t = part s ∨ Writer) (not_writer : ¬ Writer) : part t = part s := by
  by_contra changed
  obtain rfl | writes := effect.changed_by latchFree writer changed
  · exact not_control rfl
  · exact not_writer writes

section Frames

variable (h : exec i s = .next t) (not_control : unitOf i ≠ .control)
include h not_control

theorem exec_keeps_dataIn : t.port.dataIn = s.port.dataIn :=
  (exec_effect h).kept (part := fun s => s.port.dataIn) not_control (fun _ => rfl)
    (fun performs => .inl performs.dataIn) not_false

theorem exec_keeps_codec (other : unitOf i ≠ .codec) : t.codec = s.codec :=
  (exec_effect h).kept (part := State.codec) not_control (fun _ => rfl) Performs.codec_or_unit other

theorem exec_keeps_stat (other : unitOf i ≠ .statistics) : t.stat = s.stat :=
  (exec_effect h).kept (part := State.stat) not_control (fun _ => rfl) Performs.stat_or_unit other

theorem exec_keeps_join (other : unitOf i ≠ .conversion) : t.join = s.join :=
  (exec_effect h).kept (part := State.join) not_control (fun _ => rfl) Performs.join_or_unit other

end Frames

/-! ### What a command depends on -/

/-- What R89 lets a command of a unit see of the state: its own unit, the port and the latch, with every other element
at its reset value. The control commands belong to no unit and see the whole state. -/
def unitView (u : CommandUnit) (s : State) : State :=
  match u with
  | .control => s
  | .codec => { State.reset with codec := s.codec, port := s.port, err := s.err }
  | .statistics => { State.reset with stat := s.stat, port := s.port, err := s.err }
  | .conversion => { State.reset with join := s.join, port := s.port, err := s.err }

theorem unitView_err (u : CommandUnit) (s : State) : (unitView u s).err = s.err := by cases u <;> rfl

theorem unitView_raise (u : CommandUnit) (code : ErrCode) (w value pos : U64) (s : State) :
    unitView u (raise code w value pos s) = raise code w value pos (unitView u s) := by cases u <;> rfl

/-- A dispatch whose command commutes with the view commutes with it, however it ends. -/
theorem dispatch_unitView {u : CommandUnit} {w : U64} {c : Checks} {perform : State → State}
    (h : dispatch w c perform s = .next t) (commutes : unitView u (perform s) = perform (unitView u s)) :
    dispatch w c perform (unitView u s) = .next (unitView u t) := by
  have view_err : (unitView u s).err.err = s.err.err := by rw [unitView_err]
  obtain ⟨latched, ends⟩ | ⟨noError, mode, ends⟩ | ⟨noError, mode, length, ends⟩ |
    ⟨e, noError, mode, length, data, ends⟩ | ⟨noError, mode, length, data, ends⟩ := dispatch_cases w c perform s
  all_goals obtain rfl := Host.Outcome.next.inj (ends.symm.trans h)
  · exact dispatch_blocked (view_err.trans latched)
  · rw [unitView_raise, dispatch_mode (view_err.trans noError) mode]
  · rw [unitView_raise, dispatch_length (view_err.trans noError) mode length]
  · rw [unitView_raise, dispatch_data (view_err.trans noError) mode length data]
  · rw [commutes, dispatch_perform (view_err.trans noError) mode length data]

theorem unitView_joinSymbol (x : Nibble) (s : State) :
    unitView .conversion (joinSymbol x s) = joinSymbol x (unitView .conversion s) := by
  cases held : s.join.halfValid <;> simp [joinSymbol, unitView, setOut0, held]

theorem unitView_codec_eq_iff {s s' : State} :
    unitView .codec s' = unitView .codec s ↔ s'.codec = s.codec ∧ s'.port = s.port ∧ s'.err = s.err := by
  simp [unitView]

theorem unitView_statistics_eq_iff {s s' : State} :
    unitView .statistics s' = unitView .statistics s ↔ s'.stat = s.stat ∧ s'.port = s.port ∧ s'.err = s.err := by
  simp [unitView]

theorem unitView_conversion_eq_iff {s s' : State} :
    unitView .conversion s' = unitView .conversion s ↔ s'.join = s.join ∧ s'.port = s.port ∧ s'.err = s.err := by
  simp [unitView]

/-- R89: a command sees only its unit's view of the state: run there, it leaves the view of what it leaves. -/
theorem exec_unitView (h : exec i s = .next t) : exec i (unitView (unitOf i) s) = .next (unitView (unitOf i) t) := by
  cases i with
  | nop | softReset | errClear => exact h
  | encStart => exact dispatch_unitView ((exec_encStart s).symm.trans h) rfl
  | encSym x => exact dispatch_unitView ((exec_encSym x s).symm.trans h) rfl
  | encByte b => exact dispatch_unitView ((exec_encByte b s).symm.trans h) rfl
  | decStart => exact dispatch_unitView ((exec_decStart s).symm.trans h) rfl
  | decVal =>
    refine dispatch_unitView (u := .codec) ((exec_decVal s).symm.trans h) ?_
    cases found : lookup s.codec.cnt s.port.dataIn <;> simp [unitView, decodeSymbol, setOut0, found]
  | statStart => exact dispatch_unitView ((exec_statStart s).symm.trans h) rfl
  | statSym x => exact dispatch_unitView ((exec_statSym x s).symm.trans h) rfl
  | statByte b => exact dispatch_unitView ((exec_statByte b s).symm.trans h) rfl
  | statFinish => exact dispatch_unitView ((exec_statFinish s).symm.trans h) rfl
  | split b => exact dispatch_unitView ((exec_split b s).symm.trans h) rfl
  | joinStart => exact dispatch_unitView ((exec_joinStart s).symm.trans h) rfl
  | joinSym x => exact dispatch_unitView ((exec_joinSym x s).symm.trans h) (unitView_joinSymbol x s)
  | joinEnd => exact dispatch_unitView ((exec_joinEnd s).symm.trans h) rfl

/-- States of which the command's unit has one view leave states of which it has one view. -/
theorem unitView_eq_of_exec {u : CommandUnit} {s' t' : State} (unit : unitOf i = u) (h : exec i s = .next t)
    (h' : exec i s' = .next t') (agree : unitView u s' = unitView u s) : unitView u t' = unitView u t := by
  subst unit
  have run' := exec_unitView h'
  rw [agree] at run'
  exact Host.Outcome.next.inj (run'.symm.trans (exec_unitView h))

end Sys2Proof.Machine

end Dispatch

/-! PROOFS. The statements about the control commands and the dispatch (40_control.md R81 to R89, R136). -/

section ControlStatements

namespace Sys2Proof.Proofs

open Sys2Proof.Machine

/-- Settles O19: NOP is not dispatched, so the latch does not matter. -/
theorem nopChangesNothing : Obligations.NopChangesNothing := by
  unfold Obligations.NopChangesNothing
  exact exec_nop

/-- Settles O20: both are the reset of the block, the hardware's with its input taken off the host's list. -/
theorem softResetEqualsHardwareReset : Obligations.SoftResetEqualsHardwareReset := by
  unfold Obligations.SoftResetEqualsHardwareReset
  exact fun s => ⟨exec_softReset s, fun rest pending => step_reset pending⟩

/-- Settles O21: ERR_CLEAR acts whatever the latch holds. -/
theorem errClearClearsOnlyTheLatch : Obligations.ErrClearClearsOnlyTheLatch := by
  unfold Obligations.ErrClearClearsOnlyTheLatch
  exact exec_errClear

/-- Settles O22: the dispatch and the handling of an illegal word each look at the latch first. -/
theorem latchedErrorBlocksCommands : Obligations.LatchedErrorBlocksCommands := by
  unfold Obligations.LatchedErrorBlocksCommands
  intro s w latched
  have blocked (i : Instr) (not_nop : i ≠ .nop) (not_softReset : i ≠ .softReset) (not_errClear : i ≠ .errClear) :
      exec i s = .next s :=
    exec_latched latched (by simp [unitOf_eq_control_iff, not_nop, not_softReset, not_errClear])
  refine ⟨blocked, fun not_nop not_softReset not_errClear => ?_⟩
  cases command : decode w with
  | error e => rw [executeWord_illegal s command, if_pos latched]
  | ok i =>
    rw [executeWord_ok s command]
    apply blocked
    · rintro rfl; exact not_nop command
    · rintro rfl; exact not_softReset command
    · rintro rfl; exact not_errClear command

/-- Settles O25: ERR_OPC is the opcode field of the command's own word. -/
theorem wrongModeRaisesSequence : Obligations.WrongModeRaisesSequence := by
  unfold Obligations.WrongModeRaisesSequence
  intro i s noError wrong
  rw [exec_wrongMode noError wrong, raise, opcField_encode]

/-- Settles O26: the count that the length check records is the one `stepsAndCount` names. -/
theorem passingTheLimitRaisesLengthOverflow : Obligations.PassingTheLimitRaisesLengthOverflow := by
  unfold Obligations.PassingTheLimitRaisesLengthOverflow
  intro i s noError mode passes
  rw [exec_passesLimit noError mode passes, raise, opcField_encode]

/-- Settles O28: the frames are those of the effects; the dependence is that a command commutes with its unit's view. -/
theorem unitsAreIndependent : Obligations.UnitsAreIndependent := by
  unfold Obligations.UnitsAreIndependent
  intro i s t h
  refine ⟨fun unit => ?codec, fun unit => ?statistics, fun unit => ?conversion⟩
  all_goals have not_control : unitOf i ≠ .control := by simp [unit]
  case codec =>
    exact ⟨exec_keeps_stat h not_control (by simp [unit]), exec_keeps_join h not_control (by simp [unit]),
      exec_keeps_dataIn h not_control, fun s' t' codec port err h' => unitView_codec_eq_iff.mp
        (unitView_eq_of_exec unit h h' (unitView_codec_eq_iff.mpr ⟨codec, port, err⟩))⟩
  case statistics =>
    exact ⟨exec_keeps_codec h not_control (by simp [unit]), exec_keeps_join h not_control (by simp [unit]),
      exec_keeps_dataIn h not_control, fun s' t' stat port err h' => unitView_statistics_eq_iff.mp
        (unitView_eq_of_exec unit h h' (unitView_statistics_eq_iff.mpr ⟨stat, port, err⟩))⟩
  case conversion =>
    exact ⟨exec_keeps_codec h not_control (by simp [unit]), exec_keeps_stat h not_control (by simp [unit]),
      exec_keeps_dataIn h not_control, fun s' t' join port err h' => unitView_conversion_eq_iff.mp
        (unitView_eq_of_exec unit h h' (unitView_conversion_eq_iff.mpr ⟨join, port, err⟩))⟩

end Sys2Proof.Proofs

end ControlStatements

/-! PROOFS. The conversion functions of the source (R90, R91): splitting a byte and joining its symbols are inverse, so
a sequence of even length is the symbols of its bytes, and one of odd length has one symbol more. -/

section SourceConversion

namespace Sys2Proof.Machine

/-! ### The symbols of a byte -/

theorem toNat_hiSymbol (b : Byte) : (hiSymbol b).toNat = b.toNat / 16 := by
  have := b.isLt
  simp only [hiSymbol, BitVec.extractLsb'_toNat, Nat.shiftRight_eq_div_pow]
  omega

theorem toNat_loSymbol (b : Byte) : (loSymbol b).toNat = b.toNat % 16 := by
  simp [loSymbol]

theorem toNat_joinSymbols (hi lo : Nibble) : (joinSymbols hi lo).toNat = hi.toNat * 16 + lo.toNat := by
  have := hi.isLt
  have := lo.isLt
  simp only [joinSymbols, BitVec.toNat_ofNat]
  omega

@[simp] theorem joinSymbols_hiSymbol_loSymbol (b : Byte) : joinSymbols (hiSymbol b) (loSymbol b) = b := by
  apply BitVec.eq_of_toNat_eq
  rw [toNat_joinSymbols, toNat_hiSymbol, toNat_loSymbol, Nat.div_add_mod']

@[simp] theorem hiSymbol_joinSymbols (hi lo : Nibble) : hiSymbol (joinSymbols hi lo) = hi := by
  apply BitVec.eq_of_toNat_eq
  rw [toNat_hiSymbol, toNat_joinSymbols]
  have := lo.isLt
  omega

@[simp] theorem loSymbol_joinSymbols (hi lo : Nibble) : loSymbol (joinSymbols hi lo) = lo := by
  apply BitVec.eq_of_toNat_eq
  rw [toNat_loSymbol, toNat_joinSymbols]
  have := lo.isLt
  omega

theorem toNat_symbolWord (x : Nibble) : (symbolWord x).toNat = x.toNat :=
  BitVec.toNat_setWidth_of_le (by decide)

theorem toNat_byteWord (b : Byte) : (byteWord b).toNat = b.toNat :=
  BitVec.toNat_setWidth_of_le (by decide)

/-! ### The symbols of a buffer -/

@[simp] theorem bytesToNibbles_cons (b : Byte) (rest : List Byte) :
    bytesToNibbles (b :: rest) = hiSymbol b :: loSymbol b :: bytesToNibbles rest := rfl

@[simp] theorem length_bytesToNibbles (bytes : List Byte) : (bytesToNibbles bytes).length = 2 * bytes.length := by
  induction bytes with
  | nil => rfl
  | cons b rest ih => rw [bytesToNibbles_cons, List.length_cons, List.length_cons, List.length_cons, ih]; omega

theorem getElem?_bytesToNibbles {bytes : List Byte} {i : Nat} {b : Byte} (byte : bytes[i]? = some b) :
    (bytesToNibbles bytes)[2 * i]? = some (hiSymbol b) ∧ (bytesToNibbles bytes)[2 * i + 1]? = some (loSymbol b) := by
  induction bytes generalizing i with
  | nil => simp at byte
  | cons c rest ih =>
    cases i with
    | zero =>
      obtain rfl : c = b := by simpa using byte
      exact ⟨rfl, rfl⟩
    | succ i => exact ih byte

theorem pairBytes_bytesToNibbles (bytes : List Byte) : pairBytes (bytesToNibbles bytes) = bytes := by
  induction bytes with
  | nil => rfl
  | cons b rest ih => rw [bytesToNibbles_cons, pairBytes, joinSymbols_hiSymbol_loSymbol, ih]

theorem bytesToNibbles_pairBytes {seq : List Nibble} (even : seq.length % 2 = 0) :
    bytesToNibbles (pairBytes seq) = seq := by
  induction seq using pairBytes.induct with
  | case1 hi lo rest ih =>
    have even_rest : rest.length % 2 = 0 := by rw [List.length_cons, List.length_cons] at even; omega
    rw [pairBytes, bytesToNibbles_cons, hiSymbol_joinSymbols, loSymbol_joinSymbols, ih even_rest]
  | case2 => simp at even
  | case3 => rfl

theorem exists_bytes_of_even {seq : List Nibble} (even : seq.length % 2 = 0) :
    ∃ bytes, seq = bytesToNibbles bytes := ⟨pairBytes seq, (bytesToNibbles_pairBytes even).symm⟩

/-- The last symbol of an odd sequence follows the symbols of the bytes before it. -/
theorem exists_bytes_of_odd {seq : List Nibble} (odd : seq.length % 2 = 1) :
    ∃ bytes x, seq = bytesToNibbles bytes ++ [x] := by
  have nonempty : seq ≠ [] := by rintro rfl; simp at odd
  have even_init : seq.dropLast.length % 2 = 0 := by rw [List.length_dropLast]; omega
  refine ⟨pairBytes seq.dropLast, seq.getLast nonempty, ?_⟩
  rw [bytesToNibbles_pairBytes even_init, List.dropLast_append_getLast]

theorem nibblesToBytes_odd {seq : List Nibble} (odd : seq.length % 2 = 1) :
    nibblesToBytes seq = .error .invalidLength := if_pos odd

/-- R91: the exact inverse of bytesToNibbles. -/
theorem nibblesToBytes_bytesToNibbles (bytes : List Byte) : nibblesToBytes (bytesToNibbles bytes) = .ok bytes := by
  rw [nibblesToBytes, if_neg (by simp), pairBytes_bytesToNibbles]

end Sys2Proof.Machine

end SourceConversion

/-! PROOFS. The commands of the conversion unit when their checks pass (R92 to R95), and the error of JOIN_END. -/

section ConversionCommands

namespace Sys2Proof.Machine

variable {s : State}

theorem exec_split_performed (noError : NoError s) (b : Byte) :
    exec (.split b) s = .next (setOut1 (symbolWord (loSymbol b)) (setOut0 (symbolWord (hiSymbol b)) s)) := by
  rw [exec_split, dispatch_perform noError rfl rfl rfl]

theorem exec_joinStart_performed (noError : NoError s) :
    exec .joinStart s = .next { s with join := { active := true, halfValid := false, half := 0#4, cnt := 0#64 } } := by
  rw [exec_joinStart, dispatch_perform noError rfl rfl rfl]

theorem exec_joinSym_performed (noError : NoError s) (active : s.join.active = true)
    (room : s.join.cnt.toNat < Config.lenLimit.toNat) (x : Nibble) :
    exec (.joinSym x) s = .next (joinSymbol x s) := by
  rw [exec_joinSym, dispatch_perform noError active ((roomForOne_iff _).mpr room) rfl]

theorem exec_joinEnd_even (noError : NoError s) (active : s.join.active = true) (even : s.join.halfValid = false) :
    exec .joinEnd s = .next { s with join := { s.join with active := false } } := by
  rw [exec_joinEnd, dispatch_perform noError active rfl]
  simp [even]

theorem exec_joinEnd_odd (noError : NoError s) (active : s.join.active = true) (odd : s.join.halfValid = true) :
    exec .joinEnd s =
      .next (raise .invalidLength (encode .joinEnd) (symbolWord s.join.half) s.join.cnt s) := by
  rw [exec_joinEnd, dispatch_data (e := (.invalidLength, symbolWord s.join.half, s.join.cnt)) noError active rfl]
  simp [odd]

/-! ### The two forms of JOIN_SYM -/

theorem joinSymbol_free (free : s.join.halfValid = false) (x : Nibble) :
    joinSymbol x s = { s with join := { s.join with half := x, halfValid := true, cnt := s.join.cnt + 1#64 } } := by
  simp [joinSymbol, free]

theorem joinSymbol_held (held : s.join.halfValid = true) (x : Nibble) :
    joinSymbol x s = setOut0 (byteWord (joinSymbols s.join.half x))
      { s with join := { s.join with half := 0#4, halfValid := false, cnt := s.join.cnt + 1#64 } } := by
  simp [joinSymbol, held]

end Sys2Proof.Machine

end ConversionCommands

/-! PROOFS. The runs of the host that render the conversion functions (R96, R97). -/

section ConversionRuns

namespace Sys2Proof.Machine

/-! ### SPLIT -/

theorem answers_split {s : State} (noError : NoError s) (b : Byte) :
    ∃ t, Answers [wr .cmd (encode (.split b)), rd .dataOut0, rd .dataOut1] s
      [.ok, .data (symbolWord (hiSymbol b)), .data (symbolWord (loSymbol b))] t ∧ NoError t :=
  ⟨_, .cmd (exec_split_performed noError b) (.read .dataOut0 (.read .dataOut1 (.nil _))), noError⟩

/-- R96: the values read after the splits are the symbols of the buffer. -/
theorem answers_splitAccesses (bytes : List Byte) {s : State} (noError : NoError s) :
    ∃ rs t, Answers (splitAccesses bytes) s rs t ∧ readValues rs = (bytesToNibbles bytes).map symbolWord ∧
      NoError t := by
  induction bytes generalizing s with
  | nil => exact ⟨[], s, .nil s, rfl, noError⟩
  | cons b rest ih =>
    obtain ⟨u, first, noError_u⟩ := answers_split noError b
    obtain ⟨rs, t, later, values, noError_t⟩ := ih noError_u
    refine ⟨_, t, first.append later, ?_, noError_t⟩
    rw [readValues_append, values]
    rfl

/-! ### A join -/

/-- A join without an error has counted n symbols and holds this one (R25, R38). -/
structure Joining (n : Nat) (held : Option Nibble) (s : State) : Prop where
  noError : NoError s
  unit : s.join = { active := true, halfValid := held.isSome, half := held.getD 0#4, cnt := BitVec.ofNat 64 n }

section Joining

variable {n : Nat} {held : Option Nibble} {s : State}

theorem Joining.active (joining : Joining n held s) : s.join.active = true := by rw [joining.unit]

theorem Joining.halfValid (joining : Joining n held s) : s.join.halfValid = held.isSome := by rw [joining.unit]

theorem Joining.cnt (joining : Joining n held s) : s.join.cnt = BitVec.ofNat 64 n := by rw [joining.unit]

theorem Joining.half {x : Nibble} (joining : Joining n (some x) s) : s.join.half = x := by rw [joining.unit]; rfl

theorem Joining.logResponse (joining : Joining n held s) (r : BusResponse) : Joining n held (logResponse r s) :=
  ⟨joining.noError, joining.unit⟩

theorem Joining.exec_joinSym (joining : Joining n held s) (room : n < 2 ^ 64 - 16) (x : Nibble) :
    exec (.joinSym x) s = .next (joinSymbol x s) := by
  refine exec_joinSym_performed joining.noError joining.active ?_ x
  rw [joining.cnt, lenLimit_toNat, BitVec.toNat_ofNat]
  omega

/-- R94: the first symbol of a pair is held. -/
theorem Joining.first (joining : Joining n none s) (x : Nibble) : Joining (n + 1) (some x) (joinSymbol x s) where
  noError := joining.noError.of_err_eq (joinSymbol_err x s)
  unit := by rw [joinSymbol_join_free joining.halfValid, joining.unit, BitVec.ofNat_add]; rfl

/-- R94: the second symbol of a pair leaves nothing held. -/
theorem Joining.second {x : Nibble} (joining : Joining n (some x) s) (y : Nibble) :
    Joining (n + 1) none (joinSymbol y s) where
  noError := joining.noError.of_err_eq (joinSymbol_err y s)
  unit := by rw [joinSymbol_join_held joining.halfValid, joining.unit, BitVec.ofNat_add]; rfl

theorem Joining.second_dataOut0 {x : Nibble} (joining : Joining n (some x) s) (y : Nibble) :
    (joinSymbol y s).port.dataOut0 = byteWord (joinSymbols x y) := by
  rw [joinSymbol_held joining.halfValid, joining.half, setOut0_port]

theorem answers_joinStart (noError : NoError s) :
    ∃ t, Answers [wr .cmd (encode .joinStart)] s [.ok] t ∧ Joining 0 none t :=
  ⟨_, .cmd (exec_joinStart_performed noError) (.nil _), noError, rfl⟩

theorem answers_joinSym_first (joining : Joining n none s) (room : n + 1 ≤ 2 ^ 64 - 16) (x : Nibble) :
    ∃ t, Answers [wr .cmd (encode (.joinSym x))] s [.ok] t ∧ Joining (n + 1) (some x) t :=
  ⟨_, .cmd (joining.exec_joinSym room x) (.nil _), (joining.first x).logResponse .ok⟩

/-- R94: the byte of the pair is read after its second symbol. -/
theorem answers_joinSym_second {x : Nibble} (joining : Joining n (some x) s) (room : n + 1 ≤ 2 ^ 64 - 16)
    (y : Nibble) :
    ∃ t, Answers [wr .cmd (encode (.joinSym y)), rd .dataOut0] s [.ok, .data (byteWord (joinSymbols x y))] t ∧
      Joining (n + 1) none t := by
  rw [← joining.second_dataOut0 y]
  exact ⟨_, .cmd (joining.exec_joinSym room y) (.read .dataOut0 (.nil _)),
    ((joining.second y).logResponse .ok).logResponse _⟩

/-- R97: the bytes of a buffer are read back as its symbols are joined. -/
theorem answers_joinPairs (bytes : List Byte) {n : Nat} {s : State} (joining : Joining n none s)
    (room : n + 2 * bytes.length ≤ 2 ^ 64 - 16) :
    ∃ t, Answers (joinPairs (bytesToNibbles bytes)) s (bytes.flatMap fun b => [.ok, .ok, .data (byteWord b)]) t ∧
      Joining (n + 2 * bytes.length) none t := by
  induction bytes generalizing n s with
  | nil => exact ⟨s, .nil s, joining⟩
  | cons b rest ih =>
    have room : n + 1 + 1 + 2 * rest.length ≤ 2 ^ 64 - 16 := by rw [List.length_cons] at room; omega
    obtain ⟨u, first, half⟩ := answers_joinSym_first joining (by omega) (hiSymbol b)
    obtain ⟨v, second, whole⟩ := answers_joinSym_second half (by omega) (loSymbol b)
    obtain ⟨t, later, joined⟩ := ih whole room
    rw [joinSymbols_hiSymbol_loSymbol] at second
    have count : n + 2 * (b :: rest).length = n + 1 + 1 + 2 * rest.length := by rw [List.length_cons]; omega
    exact ⟨t, (first.append second).append later, count ▸ joined⟩

/-- R95: JOIN_END of an even join. -/
theorem answers_joinEnd_even (joining : Joining n none s) :
    ∃ t, Answers [wr .cmd (encode .joinEnd)] s [.ok] t ∧ NoError t ∧ t.join.active = false :=
  ⟨_, .cmd (exec_joinEnd_even joining.noError joining.active joining.halfValid) (.nil _), joining.noError, rfl⟩

/-- R95: JOIN_END of an odd join. -/
theorem answers_joinEnd_odd {x : Nibble} (joining : Joining n (some x) s) :
    ∃ t, Answers [wr .cmd (encode .joinEnd)] s [.ok] t ∧
      t.err = { err := true, code := .invalidLength, opc := 0x33#8, value := x.setWidth 64,
                pos := BitVec.ofNat 64 n } := by
  have raised := exec_joinEnd_odd joining.noError joining.active joining.halfValid
  rw [joining.half, joining.cnt] at raised
  refine ⟨_, .cmd raised (.nil _), ?_⟩
  rw [logResponse_err, raise_err, opcField_encode]
  rfl

end Joining

theorem joinPairs_append_singleton (bytes : List Byte) (x : Nibble) :
    joinPairs (bytesToNibbles bytes ++ [x]) =
      joinPairs (bytesToNibbles bytes) ++ [wr .cmd (encode (.joinSym x))] := by
  induction bytes with
  | nil => rfl
  | cons b rest ih => simp [joinPairs, ih]

/-- R97: the join of the symbols of a buffer succeeds and delivers the buffer. -/
theorem answers_joinAccesses_even {bytes : List Byte} {s : State} (noError : NoError s)
    (limit : 2 * bytes.length ≤ 2 ^ 64 - 16) :
    ∃ t, Answers (joinAccesses (bytesToNibbles bytes)) s
        ([.ok] ++ ((bytes.flatMap fun b => [.ok, .ok, .data (byteWord b)]) ++ [.ok])) t ∧
      NoError t ∧ t.join.active = false := by
  obtain ⟨u, start, opened⟩ := answers_joinStart noError
  obtain ⟨v, pairs, joined⟩ := answers_joinPairs bytes opened (by omega)
  obtain ⟨t, finish, noError_t, inactive⟩ := answers_joinEnd_even joined
  exact ⟨t, start.append (pairs.append finish), noError_t, inactive⟩

/-- R97: the join of an odd sequence ends in INVALID_LENGTH with the symbol that is left and the length. -/
theorem answers_joinAccesses_odd {bytes : List Byte} {x : Nibble} {s : State} (noError : NoError s)
    (limit : 2 * bytes.length + 1 ≤ 2 ^ 64 - 16) :
    ∃ rs t, Answers (joinAccesses (bytesToNibbles bytes ++ [x])) s rs t ∧
      t.err = { err := true, code := .invalidLength, opc := 0x33#8, value := x.setWidth 64,
                pos := BitVec.ofNat 64 (2 * bytes.length + 1) } := by
  obtain ⟨u, start, opened⟩ := answers_joinStart noError
  obtain ⟨v, pairs, joined⟩ := answers_joinPairs bytes opened (by omega)
  rw [Nat.zero_add] at joined
  obtain ⟨w, last, half⟩ := answers_joinSym_first joined limit x
  obtain ⟨t, finish, latch⟩ := answers_joinEnd_odd half
  rw [joinAccesses, joinPairs_append_singleton]
  exact ⟨_, t, start.append ((pairs.append last).append finish), latch⟩

end Sys2Proof.Machine

end ConversionRuns

/-! PROOFS. The statements about the conversion unit (41_conversion.md). -/

section ConversionStatements

namespace Sys2Proof.Proofs

open Sys2Proof.Machine

/-- Settles O29: SPLIT has no check of its own, so without an error it is performed. -/
theorem splitWritesBothSymbols : Obligations.SplitWritesBothSymbols := by
  unfold Obligations.SplitWritesBothSymbols
  intro b s noError
  refine ⟨_, exec_split_performed noError b, rfl, ?_, ?_⟩
  · exact (toNat_symbolWord _).trans (toNat_hiSymbol b)
  · exact (toNat_symbolWord _).trans (toNat_loSymbol b)

/-- Settles O30: JOIN_START has no check of its own, so without an error it is performed. -/
theorem joinStartOpensAJoin : Obligations.JoinStartOpensAJoin := by
  unfold Obligations.JoinStartOpensAJoin
  exact fun s noError => exec_joinStart_performed noError

/-- Settles O31, by the two forms of JOIN_SYM. -/
theorem joinSymHoldsOrCompletes : Obligations.JoinSymHoldsOrCompletes := by
  unfold Obligations.JoinSymHoldsOrCompletes
  intro x s noError active room
  rw [← lenLimit_toNat] at room
  refine ⟨joinSymbol x s, exec_joinSym_performed noError active room x, ?_⟩
  have counted := toNat_add_one_of_room room
  cases held : s.join.halfValid with
  | false =>
    rw [joinSymbol_free held]
    exact ⟨rfl, active, counted, fun _ => ⟨rfl, rfl, rfl⟩, nofun⟩
  | true =>
    have byte := (toNat_byteWord _).trans (toNat_joinSymbols s.join.half x)
    rw [joinSymbol_held held]
    exact ⟨rfl, active, counted, nofun, fun _ => ⟨rfl, rfl, byte⟩⟩

/-- Settles O32: the only data error of JOIN_END is a held symbol. -/
theorem joinEndChecksTheLength : Obligations.JoinEndChecksTheLength := by
  unfold Obligations.JoinEndChecksTheLength
  intro s noError active
  refine ⟨exec_joinEnd_even noError active, fun odd => ?_⟩
  rw [exec_joinEnd_odd noError active odd, raise, opcField_encode]
  rfl

/-- Settles O33: an even sequence is the symbols of its bytes, so its clause follows from that of a buffer. -/
theorem nibblesRoundTrip : Obligations.NibblesRoundTrip := by
  unfold Obligations.NibblesRoundTrip
  refine ⟨fun bytes => ?buffer, fun seq => ⟨nibblesToBytes_odd, fun even => ?even⟩⟩
  case buffer =>
    exact ⟨length_bytesToNibbles bytes, fun _ _ => getElem?_bytesToNibbles, nibblesToBytes_bytesToNibbles bytes⟩
  case even =>
    obtain ⟨bytes, rfl⟩ := exists_bytes_of_even even
    refine ⟨bytes, nibblesToBytes_bytesToNibbles bytes, (length_bytesToNibbles bytes).symm, ?_⟩
    intro i hi lo first second
    have inside : i < bytes.length := by
      obtain ⟨bound, -⟩ := List.getElem?_eq_some_iff.mp first
      rw [length_bytesToNibbles] at bound
      omega
    have byte : bytes[i]? = some bytes[i] := List.getElem?_eq_getElem inside
    obtain ⟨high, low⟩ := getElem?_bytesToNibbles byte
    obtain rfl := Option.some.inj (high.symm.trans first)
    obtain rfl := Option.some.inj (low.symm.trans second)
    rw [byte, Option.map_some, ← toNat_joinSymbols, joinSymbols_hiSymbol_loSymbol]

/-- Settles O34: the responses of the run are the reads of one SPLIT after the other. -/
theorem splitRendersBytesToNibbles : Obligations.SplitRendersBytesToNibbles := by
  unfold Obligations.SplitRendersBytesToNibbles
  intro bytes s noError
  obtain ⟨rs, t, ⟨run, logged⟩, values, noError_t⟩ := answers_splitAccesses bytes noError
  refine ⟨t, run, noError_t, ?_⟩
  rw [logged, List.drop_left]
  exact values

/-- Settles O35: an even sequence is the symbols of its bytes, and an odd one has one symbol more. -/
theorem joinRendersNibblesToBytes : Obligations.JoinRendersNibblesToBytes := by
  unfold Obligations.JoinRendersNibblesToBytes
  intro seq s noError limit
  obtain even | odd := Nat.mod_two_eq_zero_or_one seq.length
  · obtain ⟨bytes, rfl⟩ := exists_bytes_of_even even
    rw [length_bytesToNibbles] at limit
    obtain ⟨t, ⟨run, logged⟩, noError_t, inactive⟩ := answers_joinAccesses_even noError limit
    refine ⟨t, run, fun bytes' joined => ?_, fun odd => by omega⟩
    obtain rfl := Except.ok.inj ((nibblesToBytes_bytesToNibbles bytes).symm.trans joined)
    refine ⟨noError_t, inactive, ?_⟩
    rw [logged, List.append_assoc, List.append_assoc]
    rfl
  · obtain ⟨bytes, x, rfl⟩ := exists_bytes_of_odd odd
    have length : (bytesToNibbles bytes ++ [x]).length = 2 * bytes.length + 1 := by simp
    rw [length] at limit
    obtain ⟨rs, t, ⟨run, -⟩, latch⟩ := answers_joinAccesses_odd (x := x) noError limit
    refine ⟨t, run, fun bytes' joined => ?_, fun _ => ⟨x, List.getLast?_concat, length ▸ latch⟩⟩
    cases (nibblesToBytes_odd odd).symm.trans joined

end Sys2Proof.Proofs

end ConversionStatements

/-! PROOFS. The commands of the codec when their checks pass (R103 to R108), and CORRUPT_STREAM of DEC_VAL. -/

section CodecCommands

namespace Sys2Proof.Machine

/-! ### The lookup -/

theorem mem_matchSet {c : Counters} {v : U64} {x : Nibble} : x ∈ matchSet c v ↔ bankGet c x = v := by
  simp [matchSet, mem_allSymbols]

theorem matchSet_ascending (c : Counters) (v : U64) : (matchSet c v).Pairwise fun x y => x.toNat < y.toNat := by
  have ascending : allSymbols.Pairwise fun x y => x.toNat < y.toNat := by decide
  exact ascending.filter _

/-- R107: of the symbols whose counter holds the value, the lookup finds the smallest. -/
theorem lookup_le {c : Counters} {v : U64} {x y : Nibble} (found : lookup c v = some x) (holds : bankGet c y = v) :
    x.toNat ≤ y.toNat := by
  obtain ⟨larger, split⟩ := List.head?_eq_some_iff.mp found
  have ascending := matchSet_ascending c v
  have member := mem_matchSet.mpr holds
  rw [split] at ascending member
  obtain rfl | later := List.mem_cons.mp member
  · exact le_rfl
  · exact (List.rel_of_pairwise_cons ascending later).le

theorem lookup_of_least {c : Counters} {v : U64} {x : Nibble} (holds : bankGet c x = v)
    (least : ∀ y, bankGet c y = v → x.toNat ≤ y.toNat) : lookup c v = some x := by
  cases found : lookup c v with
  | none => exact absurd holds (lookup_none.mp found x)
  | some y =>
    have same := (lookup_le found holds).antisymm (least y (lookup_some found))
    rw [BitVec.eq_of_toNat_eq same]

/-! ### One update of the counters -/

/-- R100: a counter that is not at its maximum ages by exactly one. -/
theorem toNat_updateCounters_of_ne {c : Counters} {x y : Nibble} (below : (bankGet c y).toNat + 1 < 2 ^ 64)
    (other : y ≠ x) : (bankGet (updateCounters c x) y).toNat = (bankGet c y).toNat + 1 := by
  rw [updateCounters_get, if_neg other, BitVec.toNat_add, BitVec.toNat_ofNat]
  exact Nat.mod_eq_of_lt below

/-! ### The commands -/

variable {s : State}

theorem exec_encStart_performed (noError : NoError s) :
    exec .encStart s = .next { s with codec := startCodec .enc } := by
  rw [exec_encStart, dispatch_perform noError rfl rfl rfl]

theorem exec_decStart_performed (noError : NoError s) :
    exec .decStart s = .next { s with codec := startCodec .dec } := by
  rw [exec_decStart, dispatch_perform noError rfl rfl rfl]

theorem exec_encSym_performed (noError : NoError s) (mode : s.codec.mode = .enc)
    (room : s.codec.pos.toNat < Config.lenLimit.toNat) (x : Nibble) :
    exec (.encSym x) s = .next (encodeSymbol x s) := by
  rw [exec_encSym, dispatch_perform noError (beq_iff_eq.mpr mode) ((roomForOne_iff _).mpr room) rfl]

theorem exec_encByte_performed (noError : NoError s) (mode : s.codec.mode = .enc)
    (room : s.codec.pos.toNat + 2 ≤ Config.lenLimit.toNat) (b : Byte) :
    exec (.encByte b) s = .next (encodeByte b s) := by
  rw [exec_encByte, dispatch_perform noError (beq_iff_eq.mpr mode) ((roomForTwo_iff _).mpr room) rfl]

theorem exec_decVal_performed (noError : NoError s) (mode : s.codec.mode = .dec)
    (room : s.codec.pos.toNat < Config.lenLimit.toNat) {x : Nibble}
    (found : lookup s.codec.cnt s.port.dataIn = some x) : exec .decVal s = .next (decodeSymbol x s) := by
  rw [exec_decVal, dispatch_perform noError (beq_iff_eq.mpr mode) ((roomForOne_iff _).mpr room)]
  all_goals simp [found]

theorem exec_decVal_corrupt (noError : NoError s) (mode : s.codec.mode = .dec)
    (room : s.codec.pos.toNat < Config.lenLimit.toNat) (missing : lookup s.codec.cnt s.port.dataIn = none) :
    exec .decVal s = .next (raise .corruptStream (encode .decVal) s.port.dataIn s.codec.pos s) := by
  rw [exec_decVal, dispatch_data (e := (.corruptStream, s.port.dataIn, s.codec.pos)) noError
    (beq_iff_eq.mpr mode) ((roomForOne_iff _).mpr room)]
  simp [missing]

/-- R105: the steps of ENC_BYTE are those of ENC_SYM for the high symbol, then for the low one. -/
theorem encodeByte_eq (b : Byte) (s : State) :
    encodeByte b s =
      { s with
        codec := (encodeSymbol (loSymbol b) (encodeSymbol (hiSymbol b) s)).codec
        port := { s.port with
          dataOut0 := (encodeSymbol (hiSymbol b) s).port.dataOut0
          dataOut1 := (encodeSymbol (loSymbol b) (encodeSymbol (hiSymbol b) s)).port.dataOut0 } } := rfl

/-- What one codec step leaves in the unit, as R104 and R108 state it. -/
theorem codecStep_spec {u : CodecUnit} (room : u.pos.toNat < Config.lenLimit.toNat) (x : Nibble) :
    (codecStep u x).mode = u.mode ∧ (codecStep u x).pos.toNat = u.pos.toNat + 1 ∧
      bankGet (codecStep u x).cnt x = 0#64 ∧ ∀ y, y ≠ x → bankGet (codecStep u x).cnt y = bankGet u.cnt y + 1#64 := by
  refine ⟨rfl, toNat_add_one_of_room room, ?_, fun y other => ?_⟩
  · rw [codecStep_cnt, updateCounters_get, if_pos rfl]
  · rw [codecStep_cnt, updateCounters_get, if_neg other]

end Sys2Proof.Machine

end CodecCommands

/-! PROOFS. Sequences of steps of the source's codec (R98, R99, R102, R111): what the counters hold after them, and where
decode stops. -/

section SourceCodecSteps

namespace Sys2Proof.Machine

/-! ### The counters after a sequence -/

theorem foldl_sourceUpdate_injective {c : Nibble → Nat} (distinct : Function.Injective c) (seq : List Nibble) :
    Function.Injective (seq.foldl sourceUpdate c) := by
  induction seq generalizing c with
  | nil => exact distinct
  | cons x rest ih => exact ih (sourceUpdate_injective distinct x)

theorem sourceUpdate_self (c : Nibble → Nat) (x : Nibble) : sourceUpdate c x x = 0 := if_pos rfl

theorem sourceUpdate_of_ne (c : Nibble → Nat) {x y : Nibble} (other : y ≠ x) : sourceUpdate c x y = c y + 1 :=
  if_neg other

/-- R102: a symbol that does not occur ages with every step. -/
theorem foldl_sourceUpdate_of_notMem {seq : List Nibble} {x : Nibble} (absent : x ∉ seq) (c : Nibble → Nat) :
    seq.foldl sourceUpdate c x = c x + seq.length := by
  induction seq generalizing c with
  | nil => rfl
  | cons y rest ih =>
    obtain ⟨other, absent⟩ := not_or.mp (mt List.mem_cons.mpr absent)
    rw [List.foldl_cons, ih absent, sourceUpdate_of_ne c other, List.length_cons]
    omega

/-- R102: a symbol has aged since its last occurrence. -/
theorem foldl_sourceUpdate_of_last {later : List Nibble} {x : Nibble} (absent : x ∉ later) (before : List Nibble)
    (c : Nibble → Nat) : (before ++ x :: later).foldl sourceUpdate c x = later.length := by
  rw [List.foldl_append, List.foldl_cons, foldl_sourceUpdate_of_notMem absent, sourceUpdate_self, Nat.zero_add]

/-- The last occurrence of a symbol splits the sequence. -/
theorem eq_append_of_last {seq : List Nibble} {j : Nat} {x : Nibble} (occurs : seq[j]? = some x)
    (last : ∀ k, j < k → seq[k]? ≠ some x) : seq = seq.take j ++ x :: seq.drop (j + 1) ∧ x ∉ seq.drop (j + 1) := by
  obtain ⟨inside, rfl⟩ := List.getElem?_eq_some_iff.mp occurs
  refine ⟨by rw [List.getElem_cons_drop, List.take_append_drop], fun member => ?_⟩
  obtain ⟨i, again⟩ := List.mem_iff_getElem?.mp member
  rw [List.getElem?_drop] at again
  exact last (j + 1 + i) (by omega) again

/-! ### Where decode stops -/

theorem decodeFrom_cons_ok {c : Nibble → Nat} {position v : Nat} {rest : List Nat} {seq : List Nibble}
    (decoded : decodeFrom c position (v :: rest) = .ok seq) :
    ∃ x out, (allSymbols.find? fun t => c t == v) = some x ∧
      decodeFrom (sourceUpdate c x) (position + 1) rest = .ok out ∧ seq = x :: out := by
  cases search : allSymbols.find? fun t => c t == v with
  | none => rw [decodeFrom_cons_missing search] at decoded; cases decoded
  | some x =>
    rw [decodeFrom_cons_found search] at decoded
    cases tail : decodeFrom (sourceUpdate c x) (position + 1) rest with
    | error e => rw [tail] at decoded; cases decoded
    | ok out =>
      rw [tail] at decoded
      exact ⟨x, out, rfl, tail, (Except.ok.inj decoded).symm⟩

theorem length_of_decodeFrom_ok {c : Nibble → Nat} {position : Nat} {values : List Nat} {seq : List Nibble}
    (decoded : decodeFrom c position values = .ok seq) : seq.length = values.length := by
  induction values generalizing c position seq with
  | nil => obtain rfl := Except.ok.inj decoded; rfl
  | cons v rest ih =>
    obtain ⟨x, out, -, tail, rfl⟩ := decodeFrom_cons_ok decoded
    rw [List.length_cons, List.length_cons, ih tail]

/-- R99: decode fails only at a value that no counter holds; the values before it decode. -/
theorem decodeFrom_error {c : Nibble → Nat} {position : Nat} {values : List Nat} {e : SourceError}
    (failed : decodeFrom c position values = .error e) :
    ∃ before v later seq, values = before ++ v :: later ∧ decodeFrom c position before = .ok seq ∧
      (allSymbols.find? fun t => seq.foldl sourceUpdate c t == v) = none ∧
      e = .corruptStream v (position + before.length) := by
  induction values generalizing c position with
  | nil => cases failed
  | cons v rest ih =>
    cases search : allSymbols.find? fun t => c t == v with
    | none =>
      rw [decodeFrom_cons_missing search] at failed
      exact ⟨[], v, rest, [], rfl, rfl, search, (Except.error.inj failed).symm⟩
    | some x =>
      rw [decodeFrom_cons_found search] at failed
      cases tail : decodeFrom (sourceUpdate c x) (position + 1) rest with
      | ok out => rw [tail] at failed; cases failed
      | error e' =>
        rw [tail] at failed
        obtain rfl : e' = e := Except.error.inj failed
        obtain ⟨before, w, later, seq, rfl, decoded, missing, rfl⟩ := ih tail
        refine ⟨v :: before, w, later, x :: seq, rfl, ?_, missing, ?_⟩
        · rw [decodeFrom_cons_found search, decoded]
          rfl
        · rw [List.length_cons, Nat.add_assoc, Nat.add_comm 1]

end Sys2Proof.Machine

end SourceCodecSteps

/-! PROOFS. The runs of the host that render encode and decode (R109, R110), and the unit after them. -/

section CodecRuns

namespace Sys2Proof.Machine

/-! ### The unit after a sequence of steps -/

theorem foldl_codecStep_pos (seq : List Nibble) (u : CodecUnit) :
    (seq.foldl codecStep u).pos = u.pos + BitVec.ofNat 64 seq.length := by
  induction seq generalizing u with
  | nil => exact (BitVec.add_zero _).symm
  | cons x rest ih =>
    rw [List.foldl_cons, ih, codecStep_pos, List.length_cons, Nat.add_comm, BitVec.ofNat_add, BitVec.add_assoc]

section Ready

variable {mode : CodecMode} {steps : Nat} {seq : List Nibble} {u : CodecUnit}

theorem CodecReady.foldl_step (ready : CodecReady mode (seq.length + steps) u) :
    CodecReady mode steps (seq.foldl codecStep u) := by
  induction seq generalizing u with
  | nil => rwa [List.length_nil, Nat.zero_add] at ready
  | cons x rest ih =>
    rw [List.length_cons, Nat.add_right_comm] at ready
    exact ih (ready.step x)

/-- R98, R100: a sequence of steps of the unit is that of the source's updates. -/
theorem CodecReady.counterValues_foldl (ready : CodecReady mode (seq.length + steps) u) :
    counterValues (seq.foldl codecStep u) = seq.foldl sourceUpdate (counterValues u) := by
  induction seq generalizing u with
  | nil => rfl
  | cons x rest ih =>
    rw [List.length_cons, Nat.add_right_comm] at ready
    rw [List.foldl_cons, List.foldl_cons, ih (ready.step x), ready.counterValues_step]

end Ready

/-! ### Encode -/

/-- R109: the run of an encode program, its codes and the unit it leaves. -/
theorem answers_encodeProgram {seq : List Nibble} {s : State} (noError : NoError s)
    (limit : seq.length ≤ 2 ^ 64 - 16) :
    ∃ t, Answers ((encodeProgram seq).flatMap expand) s
        ([.ok] ++ (sourceEncode seq).flatMap fun v => [.ok, .data (BitVec.ofNat 64 v)]) t ∧
      t.codec = seq.foldl codecStep (startCodec .enc) ∧ NoError t := by
  obtain ⟨u, start, codec, err⟩ := answers_encStart noError
  have noError' := noError.of_err_eq err
  obtain ⟨t, symbols, codec', err'⟩ := answers_encSyms seq noError' (codec ▸ codecReady_start .enc limit)
  rw [codec, counterValues_startCodec] at symbols
  exact ⟨t, start.append symbols, codec ▸ codec', noError'.of_err_eq err'⟩

/-! ### Decode -/

/-- R110: values that the source decodes are answered with their symbols. -/
theorem answers_decoded {words : List U64} {seq : List Nibble} {position steps : Nat} {s : State}
    (noError : NoError s) (ready : CodecReady .dec (words.length + steps) s.codec)
    (decoded : decodeFrom (counterValues s.codec) position (words.map BitVec.toNat) = .ok seq) :
    ∃ t, Answers ((words.map Pseudo.decs).flatMap expand) s
        (seq.flatMap fun x => [.ok, .ok, .data (symbolWord x)]) t ∧
      t.codec = seq.foldl codecStep s.codec ∧ t.err = s.err := by
  induction words generalizing s seq position with
  | nil =>
    obtain rfl := Except.ok.inj decoded
    exact ⟨s, .nil s, rfl, rfl⟩
  | cons v rest ih =>
    rw [List.length_cons, Nat.add_right_comm] at ready
    obtain ⟨x, out, search, tail, rfl⟩ := decodeFrom_cons_ok decoded
    obtain ⟨u, first, codec, err⟩ := answers_decs_found noError ready ((lookup_eq_find s.codec v).trans search)
    rw [← ready.counterValues_step x, ← codec] at tail
    obtain ⟨t, later, codec', err'⟩ := ih (noError.of_err_eq err) (codec ▸ ready.step x) tail
    exact ⟨t, first.append later, by rw [codec', codec, List.foldl_cons], err'.trans err⟩

/-- R82: a value given while an error is latched changes DATA_IN alone. -/
theorem answers_decs_latched {s : State} (latched : s.err.err = true) (v : U64) :
    ∃ rs t, Answers (expand (.decs v)) s rs t ∧ t.codec = s.codec ∧ t.err = s.err := by
  have ignored := exec_latched (i := .decVal) (s := logResponse .ok (setDataIn v s)) latched (by simp [unitOf])
  exact ⟨_, _, .dataIn v (.cmd ignored (.read .dataOut0 (.nil _))), rfl, rfl⟩

theorem answers_ignored (words : List U64) {s : State} (latched : s.err.err = true) :
    ∃ rs t, Answers ((words.map Pseudo.decs).flatMap expand) s rs t ∧ t.codec = s.codec ∧ t.err = s.err := by
  induction words generalizing s with
  | nil => exact ⟨[], s, .nil s, rfl, rfl⟩
  | cons v rest ih =>
    obtain ⟨rs, u, first, codec, err⟩ := answers_decs_latched latched v
    obtain ⟨rs', t, later, codec', err'⟩ := ih (by rw [err]; exact latched)
    exact ⟨_, t, first.append later, codec'.trans codec, err'.trans err⟩

/-- R99, R110: after values that decode, one that no counter holds latches CORRUPT_STREAM at their number, and the
values after it are ignored. -/
theorem answers_corrupt {before later : List U64} {v : U64} {seq : List Nibble} {s : State} (noError : NoError s)
    (start : s.codec = startCodec .dec) (limit : (before ++ v :: later).length ≤ 2 ^ 64 - 16)
    (decoded : sourceDecode (before.map BitVec.toNat) = .ok seq)
    (missing : (allSymbols.find? fun t => seq.foldl sourceUpdate sourceInit t == v.toNat) = none) :
    ∃ rs t, Answers (((before ++ v :: later).map Pseudo.decs).flatMap expand) s
        ((seq.flatMap fun x => [.ok, .ok, .data (symbolWord x)]) ++ rs) t ∧
      t.codec.pos = BitVec.ofNat 64 seq.length ∧
      t.err = { err := true, code := .corruptStream, opc := 0x19#8, value := v,
                pos := BitVec.ofNat 64 seq.length } := by
  have length : before.length = seq.length := by rw [length_of_decodeFrom_ok decoded, List.length_map]
  have room : before.length + (later.length + 1) ≤ 2 ^ 64 - 16 := by rwa [List.length_append] at limit
  have ready : CodecReady .dec (before.length + (later.length + 1)) s.codec := start ▸ codecReady_start .dec room
  rw [sourceDecode, ← counterValues_startCodec .dec, ← start] at decoded
  obtain ⟨u, symbols, codec, err⟩ := answers_decoded noError ready decoded
  rw [length] at ready
  have ready_u : CodecReady .dec (later.length + 1) u.codec := codec ▸ ready.foldl_step
  have counters : counterValues u.codec = seq.foldl sourceUpdate sourceInit := by
    rw [codec, ready.counterValues_foldl, start, counterValues_startCodec]
  have position : u.codec.pos = BitVec.ofNat 64 seq.length := by
    rw [codec, foldl_codecStep_pos, start, startCodec, BitVec.zero_add]
  have unheld : lookup u.codec.cnt v = none := by rw [lookup_eq_find, counters, missing]
  obtain ⟨w, raised, kept, latch⟩ := answers_decs_missing (noError.of_err_eq err) ready_u unheld
  obtain ⟨rs, t, ignored, kept', err'⟩ := answers_ignored later (s := w) (by rw [latch])
  rw [List.map_append, List.flatMap_append]
  refine ⟨_, t, symbols.append (raised.append ignored), by rw [kept', kept, position], ?_⟩
  rw [err', latch, position]
  rfl

end Sys2Proof.Machine

end CodecRuns

/-! PROOFS. The statements about the codec (42_codec.md). -/

section CodecStatements

namespace Sys2Proof.Proofs

open Sys2Proof.Machine

/-- Settles O39: ENC_BYTE leaves what the two ENC_SYM leave; the second has room where both have. -/
theorem encByteIsTwoEncSyms : Obligations.EncByteIsTwoEncSyms := by
  unfold Obligations.EncByteIsTwoEncSyms
  intro b s noError mode room
  have room_two : s.codec.pos.toNat + 2 ≤ Config.lenLimit.toNat := by rw [lenLimit_toNat]; omega
  have room_hi : s.codec.pos.toNat < Config.lenLimit.toNat := by omega
  have counted_hi := toNat_add_one_of_room room_hi
  have room_lo : (s.codec.pos + 1#64).toNat < Config.lenLimit.toNat := by omega
  have counted_lo := toNat_add_one_of_room room_lo
  refine ⟨_, encodeSymbol (hiSymbol b) s, encodeSymbol (loSymbol b) (encodeSymbol (hiSymbol b) s),
    exec_encByte_performed noError mode room_two b, exec_encSym_performed noError mode room_hi _,
    exec_encSym_performed (s := encodeSymbol (hiSymbol b) s) noError mode room_lo _, encodeByte_eq b s, ?_⟩
  exact counted_lo.trans (congrArg (· + 1) counted_hi)

/-- Settles O40: the lookup finds the smallest symbol whose counter holds DATA_IN, or none. -/
theorem decValFindsTheSymbol : Obligations.DecValFindsTheSymbol := by
  unfold Obligations.DecValFindsTheSymbol
  intro s noError mode room
  rw [← lenLimit_toNat] at room
  refine ⟨fun x holds least => ?_, fun unheld => ?_⟩
  · obtain ⟨mode', stepped⟩ := codecStep_spec room x
    have found := lookup_of_least holds least
    exact ⟨_, exec_decVal_performed noError mode room found, rfl, mode'.trans mode, stepped⟩
  · rw [exec_decVal_corrupt noError mode room (lookup_none.mpr unheld), raise, opcField_encode]
    rfl

/-- Settles O42: the unit's counters are the source's, for which the closed form is an induction on the sequence. -/
theorem counterClosedForm : Obligations.CounterClosedForm := by
  unfold Obligations.CounterClosedForm
  intro seq s noError limit
  obtain ⟨t, ⟨run, -⟩, codec, -⟩ := answers_encodeProgram noError limit
  have counters : counterValues t.codec = seq.foldl sourceUpdate sourceInit := by
    rw [codec, (codecReady_start .enc limit).counterValues_foldl (steps := 0), counterValues_startCodec]
  refine ⟨t, run, ?position, fun x => ⟨fun absent => ?absent, fun j occurs last => ?last⟩⟩
  case position =>
    rw [codec, foldl_codecStep_pos, startCodec, BitVec.zero_add, BitVec.toNat_ofNat]
    exact Nat.mod_eq_of_lt (by omega)
  case absent =>
    exact (congrFun counters x).trans (foldl_sourceUpdate_of_notMem absent sourceInit)
  case last =>
    obtain ⟨split, absent⟩ := eq_append_of_last occurs last
    have aged := foldl_sourceUpdate_of_last absent (seq.take j) sourceInit
    rw [← split, List.length_drop] at aged
    refine (congrFun counters x).trans (aged.trans ?_)
    omega

/-- Settles O43: the values read are the source's codes, none of which passes 2^64 - 1. -/
theorem encodeCommandsRenderEncode : Obligations.EncodeCommandsRenderEncode := by
  unfold Obligations.EncodeCommandsRenderEncode
  intro seq s noError limit
  obtain ⟨t, ⟨run, logged⟩, -, noError'⟩ := answers_encodeProgram noError limit
  exact ⟨sourceEncode_lt limit, t, run, noError', by rw [logged, List.append_assoc]⟩

/-- Settles O44: the run follows the source's decode, which stops at a value that no counter holds. -/
theorem decodeCommandsRenderDecode : Obligations.DecodeCommandsRenderDecode := by
  unfold Obligations.DecodeCommandsRenderDecode
  intro words s noError limit
  obtain ⟨u, start, codec, err⟩ := answers_decStart noError
  have noError' := noError.of_err_eq err
  cases decoded : sourceDecode (words.map BitVec.toNat) with
  | ok seq =>
    have ready : CodecReady .dec words.length u.codec := codec ▸ codecReady_start .dec limit
    rw [sourceDecode, ← counterValues_startCodec .dec, ← codec] at decoded
    obtain ⟨t, symbols, -, err'⟩ := answers_decoded (steps := 0) noError' ready decoded
    obtain ⟨run, logged⟩ := start.append symbols
    refine ⟨t, run, fun seq' same => ?_, nofun⟩
    obtain rfl := Except.ok.inj same
    exact ⟨noError'.of_err_eq err', logged.trans (List.append_assoc ..).symm⟩
  | error e =>
    obtain ⟨before, value, later, seq, values, before_decoded, missing, rfl⟩ := decodeFrom_error decoded
    obtain ⟨beforeWords, rest, rfl, rfl, tail⟩ := List.map_eq_append_iff.mp values
    obtain ⟨word, laterWords, rfl, rfl, rfl⟩ := List.map_eq_cons_iff.mp tail
    obtain ⟨rs, t, stopped, position, latch⟩ := answers_corrupt noError' codec limit before_decoded missing
    obtain ⟨run, logged⟩ := start.append stopped
    have length := length_of_decodeFrom_ok before_decoded
    refine ⟨t, run, nofun, fun v i same => ?_⟩
    obtain ⟨rfl, rfl⟩ := SourceError.corruptStream.inj (Except.error.inj same)
    rw [Nat.zero_add, ← length, BitVec.ofNat_toNat, BitVec.setWidth_eq]
    refine ⟨latch, position, seq, rs, ?_, rfl, ?_⟩
    · rw [List.map_append, length, List.take_left]
      exact before_decoded
    · rw [logged, ← List.append_assoc, ← List.append_assoc]
      rfl

/-- Settles O45: each code is the counter of one symbol alone, because no update makes two counters equal. -/
theorem decodeInvertsEncode : Obligations.DecodeInvertsEncode := by
  unfold Obligations.DecodeInvertsEncode
  exact fun seq => ⟨sourceDecode_sourceEncode seq, length_encodeFrom sourceInit seq,
    fun k _ _ same => foldl_sourceUpdate_injective sourceInit_injective (seq.take k) same⟩

/-- Settles O36: neither START has a check of its own, so without an error both are performed. -/
theorem codecStartsInitialise : Obligations.CodecStartsInitialise := by
  unfold Obligations.CodecStartsInitialise
  intro s noError
  refine ⟨_, _, exec_encStart_performed noError, exec_decStart_performed noError, rfl, rfl, rfl, ?_, rfl, rfl, rfl, ?_⟩
  · exact congrFun (counterValues_startCodec .enc)
  · exact congrFun (counterValues_startCodec .dec)

/-- Settles O37: aged by one, the other counters compare as before. -/
theorem counterUpdateAgesAllAndZeroesOne : Obligations.CounterUpdateAgesAllAndZeroesOne := by
  unfold Obligations.CounterUpdateAgesAllAndZeroesOne
  intro c x below
  have aged (y : Nibble) (other : y ≠ x) := toNat_updateCounters_of_ne (below y) other
  refine ⟨by rw [updateCounters_get, if_pos rfl], aged, fun y z y_other z_other => ?_⟩
  rw [aged y y_other, aged z z_other, Nat.add_lt_add_iff_right]

/-- Settles O38: the code is read before the step of the codec. -/
theorem encSymEmitsAndUpdates : Obligations.EncSymEmitsAndUpdates := by
  unfold Obligations.EncSymEmitsAndUpdates
  intro x s noError mode room
  rw [← lenLimit_toNat] at room
  obtain ⟨mode', stepped⟩ := codecStep_spec room x
  exact ⟨_, exec_encSym_performed noError mode room x, rfl, rfl, mode'.trans mode, stepped⟩

/-- Settles O41: a counter of the codec is at most 15 + CODEC_POS, and a pair count at most STAT_M. -/
theorem noCounterWraps : Obligations.NoCounterWraps := by
  unfold Obligations.NoCounterWraps
  refine fun s inv => ⟨fun room x => ?_, fun room a b => ?_⟩
  · have bounded := inv.codec.bounded x
    omega
  · have bounded := countAt_le_total s.stat.n a b
    rw [inv.stat.transitions] at bounded
    omega

end Sys2Proof.Proofs

end CodecStatements

/-! PROOFS. The commands of the statistics unit when their checks pass (R118 to R122), and what the accumulation steps of a
sequence leave in the unit (R119): its counts are those of the adjacent pairs. -/

section StatisticsCommands

namespace Sys2Proof.Machine

/-! ### The commands -/

section Performed

variable {s : State}

theorem exec_statStart_performed (noError : NoError s) : exec .statStart s = .next { s with stat := startStat } := by
  rw [exec_statStart, dispatch_perform noError rfl rfl rfl]

theorem exec_statSym_performed (noError : NoError s) (mode : s.stat.mode = .accum)
    (room : s.stat.m.toNat < Config.lenLimit.toNat) (x : Nibble) :
    exec (.statSym x) s = .next { s with stat := accumulate s.stat x } := by
  rw [exec_statSym, dispatch_perform noError (beq_iff_eq.mpr mode) ((roomForOne_iff _).mpr room) rfl]

theorem exec_statByte_performed (noError : NoError s) (mode : s.stat.mode = .accum)
    (room : s.stat.m.toNat + 2 ≤ Config.lenLimit.toNat) (b : Byte) :
    exec (.statByte b) s =
      .next { s with stat := accumulate (accumulate s.stat (hiSymbol b)) (loSymbol b) } := by
  rw [exec_statByte, dispatch_perform noError (beq_iff_eq.mpr mode) ((roomForTwo_iff _).mpr room) rfl]

theorem exec_statFinish_performed (noError : NoError s) (mode : s.stat.mode = .accum) :
    exec .statFinish s =
      .next { s with stat := { s.stat with h := finishEntropies s.stat.n, mode := .done } } := by
  rw [exec_statFinish, dispatch_perform noError (beq_iff_eq.mpr mode) rfl rfl]

end Performed

/-! ### The counts of a sequence of steps -/

/-- R119: one step counts the pair of the previous symbol, if there is one, and this one. -/
theorem countAt_accumulate (u : StatUnit) (x a b : Nibble) :
    countAt (accumulate u x).n a b =
      if u.havePrev = true ∧ a = u.prev ∧ b = x then countAt u.n a b + 1#64 else countAt u.n a b := by
  rw [accumulate_n]
  by_cases counted : u.havePrev = true
  · rw [if_pos counted, bumpCount_at]
    by_cases pair : a = u.prev ∧ b = x
    · obtain ⟨rfl, rfl⟩ := pair
      simp [counted]
    · simp [counted, pair]
  · simp [counted]

@[simp] theorem pairCount_nil (a b : Nibble) : pairCount [] a b = 0 := rfl

@[simp] theorem pairCount_singleton (x a b : Nibble) : pairCount [x] a b = 0 := rfl

theorem pairCount_cons_cons (x y : Nibble) (rest : List Nibble) (a b : Nibble) :
    pairCount (x :: y :: rest) a b = pairCount (y :: rest) a b + if a = x ∧ b = y then 1 else 0 := by
  have pairs : adjacentPairs (x :: y :: rest) = (x, y) :: adjacentPairs (y :: rest) := rfl
  rw [pairCount, pairs, List.count_cons, ← pairCount]
  simp only [beq_iff_eq, Prod.mk.injEq, @eq_comm _ a, @eq_comm _ b]

theorem pairCount_le_length (seq : List Nibble) (a b : Nibble) : pairCount seq a b ≤ seq.length :=
  List.count_le_length.trans (by simp [adjacentPairs])

/-- R114, R119: the steps after a previous symbol add the pair counts of the sequence that begins with it. -/
theorem countAt_foldl_accumulate (seq : List Nibble) {u : StatUnit} (havePrev : u.havePrev = true) (a b : Nibble) :
    countAt (seq.foldl accumulate u).n a b = countAt u.n a b + BitVec.ofNat 64 (pairCount (u.prev :: seq) a b) := by
  induction seq generalizing u with
  | nil => simp
  | cons x rest ih =>
    rw [List.foldl_cons, ih (accumulate_havePrev u x), accumulate_prev, countAt_accumulate, pairCount_cons_cons,
      BitVec.ofNat_add]
    by_cases pair : a = u.prev ∧ b = x
    · rw [if_pos ⟨havePrev, pair⟩, if_pos pair, BitVec.add_assoc, BitVec.add_comm 1#64]
    · rw [if_neg (fun counted => pair counted.2), if_neg pair, BitVec.add_zero]

/-- R114: after STAT_START the counts are the pair counts of the sequence. -/
theorem countAt_foldl_startStat (seq : List Nibble) (a b : Nibble) :
    countAt (seq.foldl accumulate startStat).n a b = BitVec.ofNat 64 (pairCount seq a b) := by
  cases seq with
  | nil => exact zeroCounts_at a b
  | cons x rest =>
    have first : countAt (accumulate startStat x).n a b = 0#64 := zeroCounts_at a b
    rw [List.foldl_cons, countAt_foldl_accumulate rest (accumulate_havePrev startStat x), first, accumulate_prev,
      BitVec.zero_add]

theorem foldl_accumulate_m (seq : List Nibble) (u : StatUnit) :
    (seq.foldl accumulate u).m = u.m + BitVec.ofNat 64 seq.length := by
  induction seq generalizing u with
  | nil => exact (BitVec.add_zero _).symm
  | cons x rest ih =>
    rw [List.foldl_cons, ih, accumulate_m, List.length_cons, Nat.add_comm, BitVec.ofNat_add, BitVec.add_assoc]

@[simp] theorem foldl_accumulate_mode (seq : List Nibble) (u : StatUnit) :
    (seq.foldl accumulate u).mode = u.mode := by
  induction seq generalizing u with
  | nil => rfl
  | cons x rest ih => rw [List.foldl_cons, ih, accumulate_mode]

theorem StatInv.foldl_accumulate {seq : List Nibble} {u : StatUnit} (inv : StatInv u) (mode : u.mode = .accum)
    (room : u.m.toNat + seq.length ≤ Config.lenLimit.toNat) : StatInv (seq.foldl Machine.accumulate u) := by
  induction seq generalizing u with
  | nil => exact inv
  | cons x rest ih =>
    rw [List.length_cons] at room
    have below : u.m.toNat < Config.lenLimit.toNat := by omega
    refine ih (inv.accumulate mode below x) mode ?_
    rw [accumulate_m, toNat_add_one_of_room below]
    omega

end Sys2Proof.Machine

end StatisticsCommands

/-! PROOFS. The bounds of the exact entropies (R117). All of them follow from two bounds of Σ n·log2 n over some parts of
the sum S: it is at most S·log2 S, and at least S·log2 (S/k) for k parts. -/

section EntropyBounds

namespace Sys2Proof.Machine

/-! ### Σ n·log2 n -/

theorem sumLog_cons (n : Nat) (parts : List Nat) :
    sumLog (n :: parts) = (n : ℝ) * Real.logb 2 n + sumLog parts := by
  rw [sumLog, List.map_cons, List.sum_cons, sumLog]

theorem sumLog_append (parts more : List Nat) : sumLog (parts ++ more) = sumLog parts + sumLog more := by
  rw [sumLog, List.map_append, List.sum_append, sumLog, sumLog]

theorem sumLog_flatMap {α : Type} (l : List α) (parts : α → List Nat) :
    sumLog (l.flatMap parts) = (l.map fun x => sumLog (parts x)).sum := by
  induction l with
  | nil => rfl
  | cons x rest ih => rw [List.flatMap_cons, sumLog_append, ih, List.map_cons, List.sum_cons]

theorem logb_two_natCast_nonneg (n : Nat) : 0 ≤ Real.logb 2 n :=
  div_nonneg (Real.log_natCast_nonneg n) (Real.log_pos one_lt_two).le

theorem sumLog_nonneg (parts : List Nat) : 0 ≤ sumLog parts := by
  induction parts with
  | nil => exact le_rfl
  | cons n rest ih =>
    rw [sumLog_cons]
    exact add_nonneg (mul_nonneg n.cast_nonneg (logb_two_natCast_nonneg n)) ih

theorem sumLog_le_of_forall_le {parts : List Nat} {bound : Nat} (bounded : ∀ n ∈ parts, n ≤ bound) :
    sumLog parts ≤ parts.sum * Real.logb 2 bound := by
  induction parts with
  | nil => simp [sumLog]
  | cons n rest ih =>
    obtain ⟨head, tail⟩ := List.forall_mem_cons.mp bounded
    have term : (n : ℝ) * Real.logb 2 n ≤ n * Real.logb 2 bound := by
      rcases Nat.eq_zero_or_pos n with rfl | positive
      · simp
      · exact mul_le_mul_of_nonneg_left (Real.logb_le_logb_of_le one_lt_two (Nat.cast_pos.mpr positive)
          (Nat.cast_le.mpr head)) n.cast_nonneg
    rw [sumLog_cons, List.sum_cons, Nat.cast_add, add_mul]
    exact add_le_add term (ih tail)

theorem sumLog_le (parts : List Nat) : sumLog parts ≤ parts.sum * Real.logb 2 parts.sum :=
  sumLog_le_of_forall_le fun _ => List.le_sum_of_mem

/-- One summand of Gibbs' inequality, from log x ≤ x - 1. -/
theorem mul_logb_sub_le (n : Nat) {c : ℝ} (positive : 0 < c) :
    (n : ℝ) * (Real.logb 2 c - Real.logb 2 n) ≤ (c - n) / Real.log 2 := by
  have log_two : 0 < Real.log 2 := Real.log_pos one_lt_two
  rcases Nat.eq_zero_or_pos n with rfl | hn
  · simpa using div_nonneg positive.le log_two.le
  · have hn' : (0 : ℝ) < n := Nat.cast_pos.mpr hn
    have tangent := Real.log_le_sub_one_of_pos (div_pos positive hn')
    rw [← Real.logb_div positive.ne' hn'.ne', Real.logb, ← mul_div_assoc]
    refine div_le_div_of_nonneg_right ?_ log_two.le
    calc (n : ℝ) * Real.log (c / n) ≤ n * (c / n - 1) := mul_le_mul_of_nonneg_left tangent hn'.le
      _ = c - n := by field_simp

theorem sum_mul_logb_sub_sumLog_le (parts : List Nat) {c : ℝ} (positive : 0 < c) :
    parts.sum * Real.logb 2 c - sumLog parts ≤ (parts.length * c - parts.sum) / Real.log 2 := by
  induction parts with
  | nil => simp [sumLog]
  | cons n rest ih =>
    have term := mul_logb_sub_le n positive
    have split : (((n :: rest).length : ℝ) * c - ((n :: rest).sum : Nat)) / Real.log 2 =
        (c - n) / Real.log 2 + (rest.length * c - rest.sum) / Real.log 2 := by
      rw [List.length_cons, List.sum_cons]; push_cast; ring
    rw [split, sumLog_cons, List.sum_cons, Nat.cast_add]
    linarith

/-- Gibbs' inequality with the uniform distribution: the mean part S/k gives the least Σ n·log2 n. -/
theorem sum_mul_logb_le_sumLog_add (parts : List Nat) :
    parts.sum * Real.logb 2 parts.sum ≤ parts.sum * Real.logb 2 parts.length + sumLog parts := by
  rcases Nat.eq_zero_or_pos parts.sum with zero | positive
  · simpa [zero] using sumLog_nonneg parts
  · have sum_pos : (0 : ℝ) < parts.sum := Nat.cast_pos.mpr positive
    have length_pos : (0 : ℝ) < parts.length := by
      refine Nat.cast_pos.mpr (List.length_pos_iff.mpr ?_)
      rintro rfl
      exact absurd positive (lt_irrefl 0)
    have gibbs := sum_mul_logb_sub_sumLog_le parts (div_pos sum_pos length_pos)
    rw [mul_div_cancel₀ _ length_pos.ne', sub_self, zero_div, Real.logb_div sum_pos.ne' length_pos.ne'] at gibbs
    linarith

/-! ### The entropy of some parts -/

theorem partsEntropy_of_sum_eq_zero {parts : List Nat} (zero : parts.sum = 0) : partsEntropy parts = 0 := by
  simp [partsEntropy, zero]

/-- The entropy of k parts is at most log2 k. -/
theorem partsEntropy_le_logb_length (parts : List Nat) : partsEntropy parts ≤ Real.logb 2 parts.length := by
  rcases Nat.eq_zero_or_pos parts.sum with zero | positive
  · rw [partsEntropy_of_sum_eq_zero zero]
    exact logb_two_natCast_nonneg _
  · have sum_pos : (0 : ℝ) < parts.sum := Nat.cast_pos.mpr positive
    rw [partsEntropy_eq parts positive, sub_le_iff_le_add, ← sub_le_iff_le_add', le_div_iff₀ sum_pos]
    have := sum_mul_logb_le_sumLog_add parts
    linarith

/-! ### The entropies of the count matrix -/

theorem logb_two_sixteen : Real.logb 2 16 = 4 := by
  rw [show (16 : ℝ) = 2 ^ 4 by norm_num, Real.logb_pow, Real.logb_self_eq_one one_lt_two]
  norm_num

/-- The counts of one row: its parts, whose sum is rowTotal. -/
def rowCells (n : CountMatrix) (a : Nibble) : List Nat := allSymbols.map fun b => (countAt n a b).toNat

theorem rowCells_sum (n : CountMatrix) (a : Nibble) : (rowCells n a).sum = rowTotal n a := rfl

theorem rowCells_length (n : CountMatrix) (a : Nibble) : (rowCells n a).length = 16 := rfl

theorem sumLog_cellParts (n : CountMatrix) :
    sumLog (cellParts n) = (allSymbols.map fun a => sumLog (rowCells n a)).sum :=
  sumLog_flatMap allSymbols (rowCells n)

theorem sumLog_rowParts (n : CountMatrix) :
    sumLog (rowParts n) = (allSymbols.map fun a => (rowTotal n a : ℝ) * Real.logb 2 (rowTotal n a)).sum := by
  rw [sumLog, rowParts, List.map_map]
  rfl

theorem sumLog_cellParts_le (n : CountMatrix) : sumLog (cellParts n) ≤ sumLog (rowParts n) := by
  rw [sumLog_cellParts, sumLog_rowParts]
  exact List.sum_le_sum fun a _ => sumLog_le (rowCells n a)

theorem sumLog_rowParts_le (n : CountMatrix) : sumLog (rowParts n) ≤ total n * 4 + sumLog (cellParts n) := by
  have row (a : Nibble) : (rowTotal n a : ℝ) * Real.logb 2 (rowTotal n a) ≤
      (rowTotal n a : ℝ) * 4 + sumLog (rowCells n a) := by
    have gibbs := sum_mul_logb_le_sumLog_add (rowCells n a)
    rwa [rowCells_sum, rowCells_length, Nat.cast_ofNat, logb_two_sixteen] at gibbs
  rw [sumLog_cellParts, sumLog_rowParts, total, Nat.cast_list_sum, List.map_map, ← List.sum_map_mul_right,
    ← List.sum_map_add]
  exact List.sum_le_sum fun a _ => row a

theorem exactCond_eq {n : CountMatrix} (positive : 0 < total n) :
    exactCond n = (sumLog (rowParts n) - sumLog (cellParts n)) / total n := by
  rw [exactCond, exactJoint, exactPrev, partsEntropy_eq _ (by rwa [cellParts_sum]),
    partsEntropy_eq _ (by rwa [rowParts_sum]), cellParts_sum, rowParts_sum]
  ring

theorem exactPrev_nonneg (n : CountMatrix) : 0 ≤ exactPrev n := partsEntropy_nonneg _

theorem exactPrev_le_four (n : CountMatrix) : exactPrev n ≤ 4 := by
  have length : (rowParts n).length = 16 := rfl
  have bound := partsEntropy_le_logb_length (rowParts n)
  rwa [length, Nat.cast_ofNat, logb_two_sixteen] at bound

theorem exactJoint_nonneg (n : CountMatrix) : 0 ≤ exactJoint n := partsEntropy_nonneg _

/-- HC* is an average over the rows of what is between 0 and log2 16. -/
theorem exactCond_bounds (n : CountMatrix) : 0 ≤ exactCond n ∧ exactCond n ≤ 4 := by
  rcases Nat.eq_zero_or_pos (total n) with zero | positive
  · rw [exactCond, exactJoint, exactPrev, partsEntropy_of_sum_eq_zero ((cellParts_sum n).trans zero),
      partsEntropy_of_sum_eq_zero ((rowParts_sum n).trans zero)]
    norm_num
  · rw [exactCond_eq positive, div_le_iff₀ (Nat.cast_pos.mpr positive)]
    have lower := sumLog_cellParts_le n
    have upper := sumLog_rowParts_le n
    exact ⟨div_nonneg (by linarith) (Nat.cast_nonneg _), by linarith⟩

/-- HJ* = HP* + HC*. -/
theorem exactJoint_le_eight (n : CountMatrix) : exactJoint n ≤ 8 := by
  have prev := exactPrev_le_four n
  have cond := (exactCond_bounds n).2
  rw [exactCond] at cond
  linarith

end Sys2Proof.Machine

end EntropyBounds

/-! PROOFS. What STAT_FINISH writes (R122 to R125): ENTROPY_FN within EPS_H of the exact entropies, the clamped difference
and its quarter. -/

section FinishedEntropies

namespace Sys2Proof.Machine

/-! ### ENTROPY_FN -/

theorem f64Real_posZero : f64Real posZero = 0 := by
  have zero : f64Magnitude posZero = 0 := by decide
  rw [f64Real_of_nonneg (by decide), zero, Nat.cast_zero, zero_div]

/-- One component of ENTROPY_FN obeys the law, with no transition too: then it and the exact entropy are 0 (R123). -/
theorem lawfulEntropy_near {eps : Binary64} {parts : List Nat} (raw : Binary64) (nonneg : nonnegFinite eps = true)
    (bounded : parts.sum < 2 ^ 72) (holds : lawCanHold eps parts = true) :
    nonnegFinite (lawfulEntropy eps parts raw) = true ∧
      |f64Real (lawfulEntropy eps parts raw) - partsEntropy parts| ≤ f64Real eps := by
  rcases Nat.eq_zero_or_pos parts.sum with zero | positive
  · rw [lawfulEntropy, if_pos zero, partsEntropy_of_sum_eq_zero zero, f64Real_posZero, sub_zero, abs_zero]
    exact ⟨by decide, f64Real_nonneg nonneg⟩
  · exact lawfulEntropy_spec raw nonneg positive bounded holds

theorem lawCanHold_epsH (n : CountMatrix) :
    lawCanHold epsH (cellParts n) = true ∧ lawCanHold epsH (rowParts n) = true := by
  obtain ⟨nonneg, holds⟩ := (admissibleEps_iff epsH).mp admissibleEps_epsH
  constructor
  · refine (lawCanHold_iff nonneg (by rw [cellParts_sum]; exact total_lt n)).mpr fun positive => ?_
    exact holds n (by rwa [cellParts_sum] at positive) _ (by simp)
  · refine (lawCanHold_iff nonneg (by rw [rowParts_sum]; exact total_lt n)).mpr fun positive => ?_
    exact holds n (by rwa [rowParts_sum] at positive) _ (by simp)

theorem entropyFn_joint_near (n : CountMatrix) :
    nonnegFinite (entropyFn n).1 = true ∧ |f64Real (entropyFn n).1 - exactJoint n| ≤ f64Real epsH := by
  rw [entropyFn_fst]
  exact lawfulEntropy_near _ epsH_nonneg (by rw [cellParts_sum]; exact total_lt n) (lawCanHold_epsH n).1

theorem entropyFn_prev_near (n : CountMatrix) :
    nonnegFinite (entropyFn n).2 = true ∧ |f64Real (entropyFn n).2 - exactPrev n| ≤ f64Real epsH := by
  rw [entropyFn_snd]
  exact lawfulEntropy_near _ epsH_nonneg (by rw [rowParts_sum]; exact total_lt n) (lawCanHold_epsH n).2

/-- R123 (a). -/
theorem entropyFn_of_total_eq_zero {n : CountMatrix} (zero : total n = 0) : entropyFn n = (posZero, posZero) := by
  rw [entropyFn, entropyFnOf, lawfulEntropy, lawfulEntropy, if_pos ((cellParts_sum n).trans zero),
    if_pos ((rowParts_sum n).trans zero)]

/-! ### The error of one rounding -/

/-- No finite value without a sign is nearer than the rounded one. -/
theorem NearestEven.abs_sub_le {q : ℝ} {x y : Binary64} (nearest : NearestEven q x) (finite : nonnegFinite y = true) :
    |f64Real x - q| ≤ |f64Real y - q| := by
  by_cases same : y = x
  · rw [same]
  · rcases nearest.2 y finite same with nearer | ⟨tie, -⟩
    · exact nearer.le
    · exact tie.le

theorem magnitudePattern_units_lt {u e : Nat} (below : u < 2 ^ (e + 53)) (small : e ≤ 1992) :
    magnitudePattern u (2 ^ 1074) < infPattern := by
  refine magnitudePattern_lt _ _ (by positivity) ?_
  rw [Nat.mul_comm]
  refine Nat.mul_le_mul_left _ (below.le.trans ?_)
  calc 2 ^ (e + 53) ≤ 1 * 2 ^ 2045 := by rw [Nat.one_mul]; exact Nat.pow_le_pow_right (by norm_num) (by omega)
    _ ≤ maxMagnitude := Nat.mul_le_mul_right _ (by norm_num)

/-- A number of units below 2^(e+53) is rounded with an error of at most half of 2^e units (R12). -/
theorem NearestEven.error_le {u e : Nat} {x : Binary64} (nearest : NearestEven ((u : ℝ) / 2 ^ 1074) x)
    (below : u < 2 ^ (e + 53)) (small : e ≤ 1992) : |f64Real x - (u : ℝ) / 2 ^ 1074| ≤ 2 ^ e / 2 ^ 1075 := by
  have unit : 0 < 2 ^ 1074 := by positivity
  have finite := magnitudePattern_units_lt below small
  have rounded := magnitudePattern_nearestEven u (2 ^ 1074) unit finite
  have error := magnitudePattern_error u (2 ^ 1074) unit finite e (by
    rw [Nat.mul_comm]; exact Nat.mul_lt_mul_of_pos_left below unit)
  rw [Nat.cast_pow, Nat.cast_ofNat] at error
  exact (nearest.abs_sub_le rounded.1).trans error

/-! ### The clamped difference, R124 -/

section Difference

variable {hj hp : Binary64}

theorem condEntropy_nearestEven (finite_hj : nonnegFinite hj = true) (finite_hp : nonnegFinite hp = true)
    (le : f64Real hp ≤ f64Real hj) : NearestEven (f64Real hj - f64Real hp) (condEntropy hj hp) := by
  have nearest := f64Sub_nearestEven finite_hj finite_hp le
  rwa [condEntropy, nn_of_nonneg nearest.1]

theorem condEntropy_of_lt (finite_hj : nonnegFinite hj = true) (finite_hp : nonnegFinite hp = true)
    (lt : f64Real hj < f64Real hp) : condEntropy hj hp = posZero :=
  nn_f64Sub_of_lt finite_hj finite_hp lt

theorem nonnegFinite_condEntropy (finite_hj : nonnegFinite hj = true) (finite_hp : nonnegFinite hp = true) :
    nonnegFinite (condEntropy hj hp) = true := by
  rcases lt_or_ge (f64Real hj) (f64Real hp) with lt | le
  · rw [condEntropy_of_lt finite_hj finite_hp lt]
    decide
  · exact (condEntropy_nearestEven finite_hj finite_hp le).1

/-- The exact difference as a number of units. -/
theorem exists_units_sub (finite_hj : nonnegFinite hj = true) (finite_hp : nonnegFinite hp = true)
    (le : f64Real hp ≤ f64Real hj) : ∃ u : Nat, f64Real hj - f64Real hp = (u : ℝ) / 2 ^ 1074 := by
  rw [f64Real_of_nonneg finite_hj, f64Real_of_nonneg finite_hp] at le ⊢
  rw [div_le_div_iff_of_pos_right (by positivity), Nat.cast_le] at le
  exact ⟨f64Magnitude hj - f64Magnitude hp, by rw [Nat.cast_sub le, sub_div]⟩

/-- A difference below 16 is rounded with an error of at most 2^-50. -/
theorem condEntropy_error_le (finite_hj : nonnegFinite hj = true) (finite_hp : nonnegFinite hp = true)
    (le : f64Real hp ≤ f64Real hj) (lt : f64Real hj - f64Real hp < 16) :
    |f64Real (condEntropy hj hp) - (f64Real hj - f64Real hp)| ≤ 1 / 2 ^ 50 := by
  have nearest := condEntropy_nearestEven finite_hj finite_hp le
  obtain ⟨u, exact_difference⟩ := exists_units_sub finite_hj finite_hp le
  rw [exact_difference] at nearest lt ⊢
  have below : u < 2 ^ (1025 + 53) := by
    rw [div_lt_iff₀ (by positivity), show (16 : ℝ) = 2 ^ 4 by norm_num, ← pow_add] at lt
    exact_mod_cast lt
  have half_unit : (2 : ℝ) ^ 1025 / 2 ^ 1075 = 1 / 2 ^ 50 := by
    rw [div_eq_div_iff (by positivity) (by positivity), one_mul, ← pow_add]
  exact half_unit ▸ nearest.error_le below (by norm_num)

/-- The rounded difference does not pass its minuend, which is a value itself. -/
theorem condEntropy_le (finite_hj : nonnegFinite hj = true) (finite_hp : nonnegFinite hp = true)
    (le : f64Real hp ≤ f64Real hj) : f64Real (condEntropy hj hp) ≤ f64Real hj :=
  (condEntropy_nearestEven finite_hj finite_hp le).le_of_le finite_hj (sub_le_self _ (f64Real_nonneg finite_hp))

end Difference

/-! ### The quarter, R125 -/

theorem f64Magnitude_quarter : f64Magnitude quarter = 2 ^ 52 * 2 ^ 1020 := by decide +kernel

theorem f64Real_quarter : f64Real quarter = 1 / 4 := by
  rw [f64Real_of_nonneg (by decide), f64Magnitude_quarter, ← pow_add, Nat.cast_pow, Nat.cast_ofNat,
    show (4 : ℝ) = 2 ^ 2 by norm_num, div_eq_div_iff (by positivity) (by positivity), one_mul, ← pow_add]

theorem f64Mul_quarter_nearestEven {x : Binary64} (finite : nonnegFinite x = true) :
    NearestEven (f64Real x / 4) (f64Mul x quarter) := by
  have at_most_one : f64Magnitude quarter ≤ 2 ^ 1074 := by
    rw [f64Magnitude_quarter, ← pow_add]
    exact Nat.pow_le_pow_right (by norm_num) (by norm_num)
  have nearest := f64Mul_nearestEven finite (by decide) at_most_one
  rwa [f64Real_quarter, mul_one_div] at nearest

/-! ### The five entropy registers -/

theorem readReg_hJoint (s : State) : readReg .hJoint s = s.stat.h.joint := rfl

theorem readReg_hPrev (s : State) : readReg .hPrev s = s.stat.h.prev := rfl

theorem readReg_hCond (s : State) : readReg .hCond s = s.stat.h.cond := rfl

/-- R132: the entropy registers hold finite values without a sign. -/
theorem nonnegFinite_finishEntropies (n : CountMatrix) :
    nonnegFinite (finishEntropies n).joint = true ∧ nonnegFinite (finishEntropies n).prev = true ∧
      nonnegFinite (finishEntropies n).cond = true ∧ nonnegFinite (finishEntropies n).perBit = true ∧
      nonnegFinite (finishEntropies n).rel = true := by
  have joint := (entropyFn_joint_near n).1
  have prev := (entropyFn_prev_near n).1
  have cond := nonnegFinite_condEntropy joint prev
  have perBit := (f64Mul_quarter_nearestEven cond).1
  rw [finishEntropies_joint, finishEntropies_prev, finishEntropies_cond, finishEntropies_perBit, finishEntropies_rel]
  exact ⟨joint, prev, cond, perBit, perBit⟩

theorem finishEntropies_joint_error_le (n : CountMatrix) :
    |f64Real (finishEntropies n).joint - exactJoint n| ≤ f64Real epsH := by
  rw [finishEntropies_joint]
  exact (entropyFn_joint_near n).2

theorem finishEntropies_prev_error_le (n : CountMatrix) :
    |f64Real (finishEntropies n).prev - exactPrev n| ≤ f64Real epsH := by
  rw [finishEntropies_prev]
  exact (entropyFn_prev_near n).2

/-- R124: the clamp and one rounding of a difference of two values within EPS_H of the exact entropies. A difference that
is not below 16 has an EPS_H of at least 8, with which H_JOINT itself is near enough to HC*. -/
theorem finishEntropies_cond_error_le (n : CountMatrix) :
    |f64Real (finishEntropies n).cond - exactCond n| ≤ 2 * f64Real epsH + 1 / 2 ^ 50 := by
  obtain ⟨finite_hj, near_hj⟩ := entropyFn_joint_near n
  obtain ⟨finite_hp, near_hp⟩ := entropyFn_prev_near n
  obtain ⟨cond_nonneg, cond_le⟩ := exactCond_bounds n
  have prev_le := exactPrev_le_four n
  have joint_le := exactJoint_le_eight n
  have hp_nonneg := f64Real_nonneg finite_hp
  rw [finishEntropies_cond]
  rw [abs_le] at near_hj near_hp
  have definition : exactCond n = exactJoint n - exactPrev n := rfl
  rcases lt_or_ge (f64Real (entropyFn n).1) (f64Real (entropyFn n).2) with lt | le
  · rw [condEntropy_of_lt finite_hj finite_hp lt, f64Real_posZero, abs_le]
    constructor <;> linarith
  · rcases lt_or_ge (f64Real (entropyFn n).1 - f64Real (entropyFn n).2) 16 with small | large
    · have error := condEntropy_error_le finite_hj finite_hp le small
      rw [abs_le] at error ⊢
      constructor <;> linarith
    · have upper := condEntropy_le finite_hj finite_hp le
      have lower := f64Real_nonneg (nonnegFinite_condEntropy finite_hj finite_hp)
      rw [abs_le]
      constructor <;> linarith

/-- R126. -/
theorem finishEntropies_of_total_eq_zero {n : CountMatrix} (zero : total n = 0) :
    finishEntropies n = zeroEntropies := by
  have cond : condEntropy posZero posZero = posZero := by decide
  have quarter_zero : f64Mul posZero quarter = posZero := by
    refine (f64Mul_quarter_nearestEven (by decide)).eq_of_exact (by decide) ?_
    rw [f64Real_posZero, zero_div]
  rw [finishEntropies, entropyFn_of_total_eq_zero zero, cond, quarter_zero]
  rfl

/-- R36, R132: the entropy registers are +0.0 or what STAT_FINISH wrote. -/
theorem StatInv.nonnegFinite_entropies {u : StatUnit} (inv : StatInv u) :
    nonnegFinite u.h.joint = true ∧ nonnegFinite u.h.prev = true ∧ nonnegFinite u.h.cond = true ∧
      nonnegFinite u.h.perBit = true ∧ nonnegFinite u.h.rel = true := by
  by_cases done : u.mode = .done
  · rw [inv.finished done]
    exact nonnegFinite_finishEntropies u.n
  · rw [inv.unfinished done]
    decide

/-! ### The probabilities -/

/-- R128, R129, R132: a count by a sum it is part of, or +0.0 where the sum is 0. -/
theorem nonnegFinite_countQuotient {n d : Nat} (part : n ≤ d) : nonnegFinite (countQuotient n d) = true := by
  obtain ⟨rounded, zero⟩ := countQuotient_correctlyRounded part
  by_cases divisor : d = 0
  · rw [zero divisor]
    decide
  · exact (rounded divisor).1

end Sys2Proof.Machine

end FinishedEntropies

/-! PROOFS. The run of the host that renders the statistics engine (R131). -/

section StatisticsRuns

namespace Sys2Proof.Machine

variable {s : State}

theorem answers_statStart (noError : NoError s) :
    ∃ t, Answers (expand (.cmd .statStart)) s [.ok] t ∧ t.stat = startStat ∧ t.err = s.err :=
  ⟨_, .cmd (exec_statStart_performed noError) (.nil _), rfl, rfl⟩

theorem answers_statSym (noError : NoError s) (mode : s.stat.mode = .accum)
    (room : s.stat.m.toNat < Config.lenLimit.toNat) (x : Nibble) :
    ∃ t, Answers (expand (.cmd (.statSym x))) s [.ok] t ∧ t.stat = accumulate s.stat x ∧ t.err = s.err :=
  ⟨_, .cmd (exec_statSym_performed noError mode room x) (.nil _), rfl, rfl⟩

theorem answers_statFinish (noError : NoError s) (mode : s.stat.mode = .accum) :
    ∃ t, Answers (expand (.cmd .statFinish)) s [.ok] t ∧
      t.stat = { s.stat with h := finishEntropies s.stat.n, mode := .done } ∧ t.err = s.err :=
  ⟨_, .cmd (exec_statFinish_performed noError mode) (.nil _), rfl, rfl⟩

/-- R120: one STAT_SYM per symbol is one accumulation step per symbol, as long as none passes LEN_LIMIT. -/
theorem answers_statSyms (seq : List Nibble) {s : State} (noError : NoError s) (mode : s.stat.mode = .accum)
    (room : s.stat.m.toNat + seq.length ≤ Config.lenLimit.toNat) :
    ∃ t, Answers ((seq.map fun x => Pseudo.cmd (.statSym x)).flatMap expand) s (seq.map fun _ => .ok) t ∧
      t.stat = seq.foldl accumulate s.stat ∧ t.err = s.err := by
  induction seq generalizing s with
  | nil => exact ⟨s, .nil s, rfl, rfl⟩
  | cons x rest ih =>
    rw [List.length_cons] at room
    have below : s.stat.m.toNat < Config.lenLimit.toNat := by omega
    obtain ⟨u, first, stat, err⟩ := answers_statSym noError mode below x
    have room' : u.stat.m.toNat + rest.length ≤ Config.lenLimit.toNat := by
      rw [stat, accumulate_m, toNat_add_one_of_room below]
      omega
    obtain ⟨t, later, stat', err'⟩ := ih (noError.of_err_eq err) (by rw [stat]; exact mode) room'
    exact ⟨t, first.append later, by rw [stat', stat, List.foldl_cons], err'.trans err⟩

/-- R131: the run of a statistics program and the unit it leaves. -/
theorem answers_statProgram {seq : List Nibble} (noError : NoError s) (limit : seq.length ≤ 2 ^ 64 - 16) :
    ∃ t, Answers ((statProgram seq).flatMap expand) s ([.ok] ++ ((seq.map fun _ => .ok) ++ [.ok])) t ∧ NoError t ∧
      t.stat = { seq.foldl accumulate startStat with
        h := finishEntropies (seq.foldl accumulate startStat).n, mode := .done } := by
  obtain ⟨u, start, stat, err⟩ := answers_statStart noError
  have noError_u := noError.of_err_eq err
  have room : u.stat.m.toNat + seq.length ≤ Config.lenLimit.toNat := by
    rw [stat, lenLimit_toNat]
    exact (Nat.zero_add _).trans_le limit
  obtain ⟨v, symbols, stat', err'⟩ := answers_statSyms seq noError_u (by rw [stat]; rfl) room
  rw [stat] at stat'
  have noError_v := noError_u.of_err_eq err'
  obtain ⟨t, finish, stat'', err''⟩ := answers_statFinish noError_v (by rw [stat', foldl_accumulate_mode]; rfl)
  rw [stat'] at stat''
  refine ⟨t, ?_, noError_v.of_err_eq err'', stat''⟩
  rw [statProgram, List.cons_append, List.flatMap_cons, List.flatMap_append]
  exact start.append (symbols.append finish)

/-- R114, R119: what the steps of a sequence within LEN_LIMIT leave in the unit after STAT_START. -/
theorem foldl_startStat_spec {seq : List Nibble} (limit : seq.length ≤ 2 ^ 64 - 16) :
    StatInv (seq.foldl accumulate startStat) ∧ (seq.foldl accumulate startStat).m.toNat = seq.length ∧
      ∀ a b, (countAt (seq.foldl accumulate startStat).n a b).toNat = pairCount seq a b := by
  refine ⟨?invariant, ?length, fun a b => ?count⟩
  case invariant =>
    refine (statInv_empty (mode := .accum) nofun).foldl_accumulate rfl ?_
    rw [lenLimit_toNat]
    exact (Nat.zero_add _).trans_le limit
  case length =>
    rw [foldl_accumulate_m, startStat, BitVec.zero_add, BitVec.toNat_ofNat]
    exact Nat.mod_eq_of_lt (by omega)
  case count =>
    have bounded := pairCount_le_length seq a b
    rw [countAt_foldl_startStat, BitVec.toNat_ofNat]
    exact Nat.mod_eq_of_lt (by omega)

end Sys2Proof.Machine

end StatisticsRuns

/-! PROOFS. The statements about the statistics unit (43_statistics.md). -/

section StatisticsStatements

namespace Sys2Proof.Proofs

open Sys2Proof.Machine

/-- Settles O56: the run leaves the steps of the sequence and then STAT_FINISH. The counts are the pair counts, and the
invariant gives their total. -/
theorem statisticsCommandsRenderTheEngine : Obligations.StatisticsCommandsRenderTheEngine := by
  unfold Obligations.StatisticsCommandsRenderTheEngine
  intro seq s noError limit
  obtain ⟨t, ⟨run, -⟩, noError_t, stat⟩ := answers_statProgram noError limit
  obtain ⟨inv, length, count⟩ := foldl_startStat_spec limit
  have inv_t : StatInv t.stat := stat ▸ inv.finish
  have length_t : t.stat.m.toNat = seq.length := by rw [stat]; exact length
  have count_t (a b : Nibble) : (countAt t.stat.n a b).toNat = pairCount seq a b := by rw [stat]; exact count a b
  have total_t : total t.stat.n = seq.length - 1 := by rw [inv_t.transitions, length_t]
  have row_t (a : Nibble) : rowTotal t.stat.n a = (allSymbols.map fun c => pairCount seq a c).sum := by
    rw [rowTotal, funext (count_t a)]
  have finished : t.stat.h = finishEntropies t.stat.n := by rw [stat]
  refine ⟨t, run, noError_t, by rw [stat], count_t, length_t, ?total, fun a b => ?row, finished, ?entropies⟩
  case total => rw [readReg_statT_toNat inv_t, total_t]
  case row =>
    obtain ⟨joint_rounded, joint_zero⟩ := countQuotient_correctlyRounded (countAt_le_total t.stat.n a b)
    obtain ⟨cond_rounded, cond_zero⟩ := countQuotient_correctlyRounded (countAt_le_rowTotal t.stat.n a b)
    rw [count_t, total_t] at joint_rounded joint_zero
    rw [count_t, row_t] at cond_rounded cond_zero
    rw [readReg_rowSum_toNat inv_t, readReg_pj, readReg_pc, count_t, total_t, row_t]
    exact ⟨rfl, fun long => joint_rounded (by omega), fun short => joint_zero (by omega), cond_rounded, cond_zero⟩
  case entropies =>
    rw [readReg_hJoint, readReg_hPrev, readReg_hCond, finished]
    exact ⟨finishEntropies_joint_error_le t.stat.n, finishEntropies_prev_error_le t.stat.n,
      finishEntropies_cond_error_le t.stat.n⟩

/-- Settles O48: the step's counts by countAt_accumulate; below the limit STAT_M does not wrap. -/
theorem statSymCountsThePair : Obligations.StatSymCountsThePair := by
  unfold Obligations.StatSymCountsThePair
  intro x s noError mode room
  rw [← lenLimit_toNat] at room
  exact ⟨_, exec_statSym_performed noError mode room x, rfl, mode, toNat_add_one_of_room room, rfl, rfl, rfl,
    countAt_accumulate s.stat x⟩

/-- Settles O49: where STAT_BYTE has room for both steps, the second STAT_SYM has room after the first. -/
theorem statByteIsTwoStatSyms : Obligations.StatByteIsTwoStatSyms := by
  unfold Obligations.StatByteIsTwoStatSyms
  intro b s noError mode room
  have room_two : s.stat.m.toNat + 2 ≤ Config.lenLimit.toNat := by rw [lenLimit_toNat]; omega
  have room_hi : s.stat.m.toNat < Config.lenLimit.toNat := by omega
  have counted_hi := toNat_add_one_of_room room_hi
  have room_lo : (s.stat.m + 1#64).toNat < Config.lenLimit.toNat := by omega
  have counted_lo := toNat_add_one_of_room room_lo
  refine ⟨_, { s with stat := accumulate s.stat (hiSymbol b) }, exec_statByte_performed noError mode room_two b,
    exec_statSym_performed noError mode room_hi _,
    exec_statSym_performed (s := { s with stat := accumulate s.stat (hiSymbol b) }) noError mode room_lo _, ?_, rfl⟩
  exact counted_lo.trans (congrArg (· + 1) counted_hi)

/-- Settles O50: H_COND is finite and without a sign, so its product with 0.25 is rounded to nearest. -/
theorem statFinishComputesTheEntropies : Obligations.StatFinishComputesTheEntropies := by
  unfold Obligations.StatFinishComputesTheEntropies
  intro s noError mode
  have cond_finite := nonnegFinite_condEntropy (entropyFn_joint_near s.stat.n).1 (entropyFn_prev_near s.stat.n).1
  have quarter_pattern : 0x3FD0000000000000#64 = quarter := rfl
  refine ⟨_, exec_statFinish_performed noError mode, rfl, ?_⟩
  dsimp only
  rw [finishEntropies_joint, finishEntropies_prev, finishEntropies_cond, finishEntropies_perBit, finishEntropies_rel,
    quarter_pattern, condEntropy]
  exact ⟨Prod.mk.eta, rfl, rfl, rfl, f64Mul_quarter_nearestEven cond_finite⟩

/-- Settles O51: both components obey the law, because EPS_H is a bound with which the law can hold. -/
theorem entropyFunctionIsAccurate : Obligations.EntropyFunctionIsAccurate := by
  unfold Obligations.EntropyFunctionIsAccurate
  intro n
  obtain ⟨joint_finite, joint_near⟩ := entropyFn_joint_near n
  obtain ⟨prev_finite, prev_near⟩ := entropyFn_prev_near n
  exact ⟨entropyFn_of_total_eq_zero, fun _ => ⟨joint_finite, prev_finite, joint_near, prev_near⟩⟩

/-- Settles O52: HP* has 16 parts, and HC* is an average of entropies of 16 parts. -/
theorem exactEntropyBounds : Obligations.ExactEntropyBounds := by
  unfold Obligations.ExactEntropyBounds
  intro n
  exact ⟨exactPrev_nonneg n, exactPrev_le_four n, exactJoint_nonneg n, exactJoint_le_eight n, exactCond_bounds n⟩

/-- Settles O53: the clamp takes nothing from the nearness, because HC* is not negative, and the rounding adds its
error. -/
theorem conditionalEntropyWithinTolerance : Obligations.ConditionalEntropyWithinTolerance := by
  unfold Obligations.ConditionalEntropyWithinTolerance
  exact finishEntropies_cond_error_le

/-- Settles O54: the entropy registers are +0.0 until STAT_FINISH and then its results; a probability is a quotient of a
count by a sum it is part of. -/
theorem floatRegistersStayNonnegativeAndFinite : Obligations.FloatRegistersStayNonnegativeAndFinite := by
  unfold Obligations.FloatRegistersStayNonnegativeAndFinite
  intro s a b inv
  obtain ⟨joint, prev, cond, perBit, rel⟩ := inv.stat.nonnegFinite_entropies
  simp only [List.forall_mem_cons, List.not_mem_nil, IsEmpty.forall_iff, implies_true, and_true]
  have pj := nonnegFinite_countQuotient (countAt_le_total s.stat.n a b)
  have pc := nonnegFinite_countQuotient (countAt_le_rowTotal s.stat.n a b)
  rw [nonnegFinite_iff] at joint prev cond perBit rel pj pc
  exact ⟨joint, prev, cond, perBit, rel, pj, pc⟩

/-- Settles O55: with at most one symbol there is no transition, so every count and sum is 0. -/
theorem degenerateStatisticsAreZero : Obligations.DegenerateStatisticsAreZero := by
  unfold Obligations.DegenerateStatisticsAreZero
  intro s inv noError mode few
  have total_zero : total s.stat.n = 0 := by rw [inv.stat.transitions]; omega
  have row_zero (a : Nibble) : rowTotal s.stat.n a = 0 :=
    Nat.eq_zero_of_le_zero (total_zero ▸ rowTotal_le_total s.stat.n a)
  have count_zero (a b : Nibble) : countAt s.stat.n a b = 0#64 :=
    BitVec.eq_of_toNat_eq (Nat.eq_zero_of_le_zero (total_zero ▸ countAt_le_total s.stat.n a b))
  refine ⟨_, exec_statFinish_performed noError mode, ?scalars, fun a b => ⟨count_zero a b, ?rowSum, ?pj, ?pc⟩⟩
  case scalars =>
    simp only [List.forall_mem_cons, List.not_mem_nil, IsEmpty.forall_iff, implies_true, and_true, readReg, total_zero,
      finishEntropies_of_total_eq_zero total_zero, zeroEntropies]
  case rowSum => rw [readReg, row_zero]
  case pj => rw [readReg_pj, total_zero, countQuotient_zero_right]
  case pc => rw [readReg_pc, row_zero, countQuotient_zero_right]

/-- Settles O47: STAT_START has no check of its own, so without an error it is performed. -/
theorem statStartClearsTheTables : Obligations.StatStartClearsTheTables := by
  unfold Obligations.StatStartClearsTheTables
  intro s noError
  exact ⟨_, exec_statStart_performed noError, rfl, rfl, zeroCounts_at, rfl, rfl, rfl, rfl⟩

end Sys2Proof.Proofs

end StatisticsStatements

/-! PROOFS. The errors of a command word (R134 to R137): the causes of the table with what the latch records, and that a
word which sets the latch does so for one of them. -/

section RaisedErrors

namespace Sys2Proof.Machine

variable {i : Instr} {w : U64} {s t : State}

/-- `Raises w s code value pos`: in s the word w has the cause that the table of R134 gives for `code`, and the latch is
to record `value` and `pos`. -/
inductive Raises (w : U64) (s : State) : ErrCode → U64 → U64 → Prop
  | corruptStream (command : decode w = .ok .decVal) (missing : ∀ x, bankGet s.codec.cnt x ≠ s.port.dataIn) :
      Raises w s .corruptStream s.port.dataIn s.codec.pos
  | invalidLength (command : decode w = .ok .joinEnd) (odd : s.join.halfValid = true) :
      Raises w s .invalidLength (symbolWord s.join.half) s.join.cnt
  | illegalCommand (illegal : legal w = false) : Raises w s .illegalCommand w 0#64
  | sequence {i : Instr} (command : decode w = .ok i) (wrong : ¬ ModeAccepts i s) : Raises w s .sequence w 0#64
  | lengthOverflow {i : Instr} (command : decode w = .ok i) (passes : PassesLimit i s) :
      Raises w s .lengthOverflow w (stepsAndCount i s).2

/-! ### The commands whose mode and length checks pass -/

section Accepted

variable {count : U64} (room : ¬ PassesLimit i s)
include room

theorem room_for_one (steps : stepsAndCount i s = (1, count)) : count.toNat < Config.lenLimit.toNat :=
  (roomForOne_iff count).mp ((roomForOne_iff_not_passesLimit steps).mpr room)

theorem room_for_two (steps : stepsAndCount i s = (2, count)) : count.toNat + 2 ≤ Config.lenLimit.toNat :=
  (roomForTwo_iff count).mp ((roomForTwo_iff_not_passesLimit steps).mpr room)

/-- R81, steps 5 and 6: after the checks of mode and length only DEC_VAL and JOIN_END can fail, on their data; any other
command leaves no error latched. -/
theorem exec_accepted_cases (noError : NoError s) (mode : ModeAccepts i s) :
    (∃ t, exec i s = .next t ∧ NoError t) ∨ (i = .decVal ∧ lookup s.codec.cnt s.port.dataIn = none) ∨
      (i = .joinEnd ∧ s.join.halfValid = true) := by
  cases i with
  | nop => exact .inl ⟨_, exec_nop s, noError⟩
  | softReset => exact .inl ⟨_, exec_softReset s, rfl⟩
  | errClear => exact .inl ⟨_, exec_errClear s, rfl⟩
  | encStart => exact .inl ⟨_, exec_encStart_performed noError, noError⟩
  | encSym x => exact .inl ⟨_, exec_encSym_performed noError mode (room_for_one room rfl) x, noError⟩
  | encByte b => exact .inl ⟨_, exec_encByte_performed noError mode (room_for_two room rfl) b, noError⟩
  | decStart => exact .inl ⟨_, exec_decStart_performed noError, noError⟩
  | decVal =>
    cases found : lookup s.codec.cnt s.port.dataIn with
    | none => exact .inr (.inl ⟨rfl, rfl⟩)
    | some x => exact .inl ⟨_, exec_decVal_performed noError mode (room_for_one room rfl) found, noError⟩
  | statStart => exact .inl ⟨_, exec_statStart_performed noError, noError⟩
  | statSym x => exact .inl ⟨_, exec_statSym_performed noError mode (room_for_one room rfl) x, noError⟩
  | statByte b => exact .inl ⟨_, exec_statByte_performed noError mode (room_for_two room rfl) b, noError⟩
  | statFinish => exact .inl ⟨_, exec_statFinish_performed noError mode, noError⟩
  | split b => exact .inl ⟨_, exec_split_performed noError b, noError⟩
  | joinStart => exact .inl ⟨_, exec_joinStart_performed noError, noError⟩
  | joinSym x =>
    exact .inl ⟨_, exec_joinSym_performed noError mode (room_for_one room rfl) x,
      noError.of_err_eq (joinSymbol_err x s)⟩
  | joinEnd =>
    cases odd : s.join.halfValid with
    | true => exact .inr (.inr ⟨rfl, rfl⟩)
    | false => exact .inl ⟨_, exec_joinEnd_even noError mode odd, noError⟩

end Accepted

/-! ### What a word that sets the latch has done -/

/-- R136: a legal word fails at the first of its checks whose cause holds. -/
theorem exec_raises_or_noError (noError : NoError s) (command : decode w = .ok i) :
    (∃ code value pos, Raises w s code value pos ∧ exec i s = .next (raise code w value pos s)) ∨
      ∃ t, exec i s = .next t ∧ NoError t := by
  obtain rfl := encode_of_decode command
  by_cases mode : ModeAccepts i s
  case neg => exact .inl ⟨_, _, _, .sequence command mode, exec_wrongMode noError mode⟩
  by_cases passes : PassesLimit i s
  case pos => exact .inl ⟨_, _, _, .lengthOverflow command passes, exec_passesLimit noError mode passes⟩
  obtain performed | ⟨rfl, missing⟩ | ⟨rfl, odd⟩ := exec_accepted_cases passes noError mode
  · exact .inr performed
  · exact .inl ⟨_, _, _, .corruptStream command (lookup_none.mp missing),
      exec_decVal_corrupt noError mode (room_for_one passes rfl) missing⟩
  · exact .inl ⟨_, _, _, .invalidLength command odd, exec_joinEnd_odd noError mode odd⟩

/-- R134, R135, R137: a word that sets the latch has one of the causes of the table, and the state after it is that of
`raise` with the values of its row. -/
theorem executeWord_raises (noError : NoError s) (run : executeWord w s = .next t) (latched : t.err.err = true) :
    ∃ code value pos, Raises w s code value pos ∧ t = raise code w value pos s := by
  cases command : decode w with
  | error e =>
    rw [executeWord_illegal s command, if_neg (Bool.eq_false_iff.mp noError)] at run
    exact ⟨_, _, _, .illegalCommand (legal_eq_false_of_decode command), (Host.Outcome.next.inj run).symm⟩
  | ok i =>
    rw [executeWord_ok s command] at run
    obtain ⟨code, value, pos, cause, raised⟩ | ⟨u, done, noError_u⟩ := exec_raises_or_noError noError command
    · exact ⟨code, value, pos, cause, Host.Outcome.next.inj (run.symm.trans raised)⟩
    · obtain rfl := Host.Outcome.next.inj (done.symm.trans run)
      exact absurd (latched.symm.trans noError_u) (by decide)

end Sys2Proof.Machine

end RaisedErrors

/-! PROOFS. The statements about the errors (60_exceptions.md) and the idle step (R149, R152). -/

section ErrorStatements

namespace Sys2Proof.Proofs

open Sys2Proof.Machine

/-- Settles O23: the state after the word is that of `raise`, whose ERR_OPC is the word's opcode field. -/
theorem failingCommandWritesOnlyTheLatch : Obligations.FailingCommandWritesOnlyTheLatch := by
  unfold Obligations.FailingCommandWritesOnlyTheLatch
  intro w s t noError run latched
  obtain ⟨code, value, pos, -, rfl⟩ := executeWord_raises noError run latched
  exact ⟨rfl, opcField_eq_setWidth w⟩

/-- Settles O24, row by row of the table of causes. -/
theorem errorLatchRecordsTheTable : Obligations.ErrorLatchRecordsTheTable := by
  unfold Obligations.ErrorLatchRecordsTheTable
  intro w s t noError run latched
  obtain ⟨code, value, pos, cause, rfl⟩ := executeWord_raises noError run latched
  refine ⟨opcField_eq_setWidth w, ?_⟩
  cases cause with
  | corruptStream command missing => exact ⟨command, missing, rfl, rfl⟩
  | invalidLength command odd => exact ⟨command, odd, rfl, rfl⟩
  | illegalCommand illegal => exact ⟨illegal, rfl, rfl⟩
  | sequence command wrong => exact ⟨⟨_, command, wrong⟩, rfl, rfl⟩
  | lengthOverflow command passes => exact ⟨rfl, _, command, passes, rfl⟩

/-- Settles O10: with no input left the step has nothing to take. -/
theorem idleStepKeepsState : Obligations.IdleStepKeepsState := by
  unfold Obligations.IdleStepKeepsState
  exact fun s => step_idle

end Sys2Proof.Proofs

end ErrorStatements
